-- ==== Sys2Proof/Word.lean ====
section
/-! DEFINITION. The widths of SGE/FSR: bytes, 16-bit words, 14-bit segment masks and the 10-bit usage bar
(spec 30_encoding.md R60 to R65). Every quantity is unsigned (00_scope.md R8 (e)). -/

namespace Sys2Proof

/-- One byte: a character code (R60) or one byte of a buffer space (R51). -/
abbrev Byte := BitVec 8

/-- Sixteen bits: a command word (R80) or the value of a label slot (R61). -/
abbrev Word := BitVec 16

/-- A segment mask: bit b set means segment b is drawn (R62). -/
abbrev Mask := BitVec 14

/-- The usage bar, ten bits (R65). -/
abbrev Bar := BitVec 10

end Sys2Proof
end

