-- ==== Sys2Proof/Syntax.lean ====
section
/-! DEFINITION. The six operations of the block (spec 00_scope.md R3), one constructor for each row of
spec/opcode_table.json. -/

namespace Sys2Proof

/-- An operation with its immediate operand. Operands that are not in the command word are registers and
buffer spaces (30_encoding.md R72). -/
inductive Instr where
  /-- CHARMASK c: look up the segment mask of the character code c (R100). -/
  | charmask (c : Byte)
  /-- SEGGEOM b: read the geometry entry of segment bit b (R103); 14 and 15 are legal operands that raise
  BadOperand (R104). -/
  | seggeom (b : BitVec 4)
  /-- ENCTEXT: encode the text in TXT into the label (R110). -/
  | enctext
  /-- ENCRAW: encode the hexadecimal string in TXT into the label (R116). -/
  | encraw
  /-- DECRENDER: draw the label as five lines of text (R130). -/
  | decrender
  /-- FSRENDER: rewrite the free-space page payload (R140). -/
  | fsrender
  deriving DecidableEq, Repr

end Sys2Proof
end

