-- ==== Sys2Proof/WellFormed.lean ====
section
/-! DEFINITION. Which command words are legal (spec 30_encoding.md R80 to R82), said field by field. The decoder
(Decode.lean) is written from the mask and match table of R81 instead, so the two can be compared.
An operation of Instr carries its operand at its exact width, so every term of Instr is legal; what can be
ill-formed is a command in its three fields. -/

namespace Sys2Proof

/-- The one command format, CMD16 (R80): OP in bits 15:12, Z in bits 11:8, ARG in bits 7:0. -/
structure Cmd16 where
  op  : BitVec 4
  z   : BitVec 4
  arg : Byte
  deriving DecidableEq, Repr

/-- OP is one of the six assigned codes 0x1 to 0x6 (R81, R82). -/
def Cmd16.opAssigned (c : Cmd16) : Bool :=
  decide (1 ≤ c.op.toNat) && decide (c.op.toNat ≤ 6)

/-- The Z field must be 0 (R80). -/
def Cmd16.zClear (c : Cmd16) : Bool :=
  c.z == 0#4

/-- ARG is free for CHARMASK, has bits 7:4 clear for SEGGEOM, and is 0 for every other operation (R80, R81). -/
def Cmd16.argAllowed (c : Cmd16) : Bool :=
  if c.op = 1#4 then true
  else if c.op = 2#4 then decide (c.arg.toNat < 16)
  else c.arg == 0#8

/-- A legal command: the three checks together. Every word that fails one of them is illegal (R82). -/
def Cmd16.wellFormed (c : Cmd16) : Bool :=
  c.opAssigned && c.zClear && c.argAllowed

/-- The fields of an operation's command (R81, R85). -/
def Instr.form : Instr → Cmd16
  | .charmask c => { op := 1#4, z := 0#4, arg := c }
  | .seggeom b  => { op := 2#4, z := 0#4, arg := b.setWidth 8 }
  | .enctext    => { op := 3#4, z := 0#4, arg := 0#8 }
  | .encraw     => { op := 4#4, z := 0#4, arg := 0#8 }
  | .decrender  => { op := 5#4, z := 0#4, arg := 0#8 }
  | .fsrender   => { op := 6#4, z := 0#4, arg := 0#8 }

/-- An operation is well formed when its command is legal. -/
def Instr.wellFormed (i : Instr) : Bool :=
  i.form.wellFormed

end Sys2Proof
end

