-- ==== Sys2Proof/Decode.lean ====
section
/-! DEFINITION. The decoder and the encoder of command words (spec 30_encoding.md R80 to R84), the decoder from the mask
and match columns of R81, the encoder from its pattern column. -/

namespace Sys2Proof

/-- Why a word is illegal (R82). All of them have the same effect; the name says which check failed first. -/
inductive IllegalWord where
  /-- OP = 0x0 or 0x7 to 0xF. -/
  | unassignedOp (op : BitVec 4)
  /-- Z is not 0. -/
  | zNotZero (z : BitVec 4)
  /-- ARG has a bit set that the operation does not allow. -/
  | argNotAllowed (arg : Byte)
  deriving DecidableEq, Repr

/-- One row of the opcode map (R81): a word w is the row's when (w & mask) = match. -/
structure OpcodeRow where
  mask  : Word
  value : Word
  deriving DecidableEq, Repr

def rowCharmask  : OpcodeRow := { mask := 0xFF00#16, value := 0x1000#16 }
def rowSeggeom   : OpcodeRow := { mask := 0xFFF0#16, value := 0x2000#16 }
def rowEnctext   : OpcodeRow := { mask := 0xFFFF#16, value := 0x3000#16 }
def rowEncraw    : OpcodeRow := { mask := 0xFFFF#16, value := 0x4000#16 }
def rowDecrender : OpcodeRow := { mask := 0xFFFF#16, value := 0x5000#16 }
def rowFsrender  : OpcodeRow := { mask := 0xFFFF#16, value := 0x6000#16 }

/-- The opcode map, in the table's order (R81). -/
def opcodeRows : List OpcodeRow :=
  [rowCharmask, rowSeggeom, rowEnctext, rowEncraw, rowDecrender, rowFsrender]

/-- The match test of R81. -/
def OpcodeRow.isMatch (r : OpcodeRow) (w : Word) : Bool :=
  (w &&& r.mask) == r.value

/-- OP, Z and ARG of a word (R80). -/
def Cmd16.ofWord (w : Word) : Cmd16 :=
  { op := w.extractLsb' 12 4, z := w.extractLsb' 8 4, arg := w.extractLsb' 0 8 }

/-- The word of three fields (R80). -/
def Cmd16.toWord (c : Cmd16) : Word :=
  (c.op ++ c.z) ++ c.arg

/-- The first check of R82 that an illegal word fails. -/
def illegalReason (w : Word) : IllegalWord :=
  let c := Cmd16.ofWord w
  if c.opAssigned = false then .unassignedOp c.op
  else if c.zClear = false then .zNotZero c.z
  else .argNotAllowed c.arg

/-- The decoder: total on all 65536 words (R81, R82). -/
def decode (w : Word) : Except IllegalWord Instr :=
  if rowCharmask.isMatch w then .ok (.charmask (w.extractLsb' 0 8))
  else if rowSeggeom.isMatch w then .ok (.seggeom (w.extractLsb' 0 4))
  else if rowEnctext.isMatch w then .ok .enctext
  else if rowEncraw.isMatch w then .ok .encraw
  else if rowDecrender.isMatch w then .ok .decrender
  else if rowFsrender.isMatch w then .ok .fsrender
  else .error (illegalReason w)

/-- The encoder, from the patterns of R81 (bit 15 first): 00010000cccccccc, 001000000000bbbb and four constant
words. -/
def encode : Instr → Word
  | .charmask c => 0b00010000#8 ++ c
  | .seggeom b  => 0b001000000000#12 ++ b
  | .enctext    => 0x3000#16
  | .encraw     => 0x4000#16
  | .decrender  => 0x5000#16
  | .fsrender   => 0x6000#16

/-- The instruction the decoder reads from a table row's nbits bits w, every bit above them 0. A command is one
16-bit word taken by value (R56, R84), so there is no byte order to apply; bits beyond a word are no command. -/
def decodeTableWord (nbits w : Nat) : Option Instr :=
  let v := w % 2 ^ nbits
  if v < 2 ^ 16 then (decode (BitVec.ofNat 16 v)).toOption else none

end Sys2Proof
end

