-- ==== Sys2Proof/Config.lean ====
section
/-! DEFINITION. What is fixed for one block and what the spec leaves open: the four buffer spaces, the two constant
tables GLYPH and GEOM, whose contents no source gives (spec 10_state.md R20 to R27, 92_eei_decisions.md D26,
93_implementation_defined.md U8), and the values a reset event leaves (R30, U9). The open values are constants
without a body: nothing can be proved of them but what their types say. -/

namespace Sys2Proof

/-- The four buffer spaces (R28). -/
inductive Space where
  /-- The input string (20_memory.md R40). -/
  | txt
  /-- The label (R41). -/
  | lbl
  /-- The free-space page payload (R42). -/
  | fsp
  /-- The render output, 5 rows of 73 bytes (R43). -/
  | grid
  deriving DecidableEq, Repr, Inhabited

/-- How many bytes a space has: 96, 24, 16 and 5 * 73 (R28). -/
def Space.size : Space → Nat
  | .txt  => 96
  | .lbl  => 24
  | .fsp  => 16
  | .grid => 365

/-- A printable character, by its distance from 0x20: codes 0x20 to 0x7E (R27, D35). -/
abbrev Printable := Fin 95

/-- A glyph fragment: one to three printable characters (R27). -/
inductive Fragment where
  | one (a : Printable)
  | two (a b : Printable)
  | three (a b c : Printable)
  deriving DecidableEq, Repr, Inhabited

/-- One geometry entry: row 0 to 4, column 0 to 4 and a fragment (R27). The type holds exactly the entries R27
admits. -/
structure GeomEntry where
  row  : Fin 5
  col  : Fin 5
  frag : Fragment
  deriving DecidableEq, Repr, Inhabited

/-- A glyph mask table: entry k is the mask of the character with code 0x20 + k (R20). Fourteen bits is R22. -/
abbrev GlyphTable := Fin 95 → Mask

/-- A segment geometry table, indexed by segment bit (R27). -/
abbrev GeomTable := Fin 14 → GeomEntry

/-- The index whose entry the entry k must equal: a lowercase letter's is its uppercase letter's (R23), that of '<' is
that of '(' (R24), that of 'S' (and so of 's') is that of '5' (R25). Every other index is its own. -/
def Config.glyphSource (k : Fin 95) : Fin 95 :=
  let u := if 0x41 ≤ k.val ∧ k.val ≤ 0x5A then k.val - 0x20 else k.val
  if u = 0x1C then 0x08
  else if u = 0x33 then 0x15
  else Fin.ofNat 95 u

/-- FREE VALUE (entry 4): the masks of the indices that are their own source. -/
opaque Config.freeMask : Fin 95 → Mask

/-- GLYPH, the block's mask table (R20, R21). Every table that satisfies R22 to R25 is of this form
(Laws/Tables.lean), and nothing else is known of it. The duplication is in the table, not in the lookup (R101). -/
def Config.glyph : GlyphTable :=
  fun k => Config.freeMask (Config.glyphSource k)

/-- FREE VALUE (entry 5): GEOM, the block's segment geometry, constrained by its type alone (R27). -/
opaque Config.geom : GeomTable

/-- What a reset event leaves in the registers that R30 calls unspecified. -/
structure ResetDraw where
  free  : BitVec 64
  total : BitVec 64
  kbf   : BitVec 16
  tlen  : BitVec 8
  res   : BitVec 16
  geo   : BitVec 32
  llen  : BitVec 7
  deriving DecidableEq, Repr, Inhabited

/-- FREE VALUE (entry 6): the registers after the n-th reset event (R30, U9). -/
opaque Config.registersAfterReset : Nat → ResetDraw

/-- FREE VALUE (entry 28): the length the host passes to receiveDiagnostic for a page code; the source does not say whether
it is the payload's or the whole buffer's (44_host_page_operations.md R176). -/
opaque Config.receiveLength : Nat → Nat

/-- FREE VALUE (entry 6): the byte at an offset of a space after the n-th reset event (R30, U9). -/
opaque Config.byteAfterReset : Nat → Space → Nat → Byte

end Sys2Proof
end

