-- ==== Sys2Proof/Machine/State.lean ====
section
/-! DEFINITION. The state of SGE/FSR and of the host that drives it (spec 10_state.md R10 to R17, R28, R30), the reasons a
step can stop, and the state after reset. -/

namespace Sys2Proof.Machine

/-- The contents of one buffer space: (offset, byte) pairs with rising offsets and no byte 0x00 listed; an offset that is
not listed reads 0x00 (entry 3: DESIGN CHOICE). -/
abbrev Memory := List Host.Cell

/-- An address as a host program writes it: a space and an offset, or a row and a column of GRID (20_memory.md section 1,
R43). The numbers are not bounded here: an access outside a space is refused when it is made (R44). -/
inductive Loc where
  | txt (o : Nat)
  | lbl (o : Nat)
  | fsp (o : Nat)
  | grid (r x : Nat)
  deriving DecidableEq, Repr

/-- The registers of the block, any of which the host's GET may name (R13 to R15, R85; entry 24). -/
inductive Reg where
  | free
  | total
  | kbf
  | tlen
  | res
  | geo
  | llen
  | status
  deriving DecidableEq, Repr

/-- One action of the host between operations (30_encoding.md R85, 20_memory.md R44, 70_reset_and_hazards.md R231). -/
inductive HostAction where
  /-- Issue a command word (R80). -/
  | command (w : Word)
  /-- SET FREE, v (R13). -/
  | setFree (v : BitVec 64)
  /-- SET TOTAL, v (R13). -/
  | setTotal (v : BitVec 64)
  /-- SET KBF, v (R13). -/
  | setKbf (v : BitVec 16)
  /-- SET TLEN, v (R13). -/
  | setTlen (v : BitVec 8)
  /-- PUT of one byte (R44). -/
  | put (l : Loc) (b : Byte)
  /-- GET of one byte (R44). -/
  | get (l : Loc)
  /-- GET of a register (R85). -/
  | getReg (r : Reg)
  /-- IF STATUS: leave out the next n actions when (STATUS = code) has the truth value given (R85; entry 18). -/
  | skipIf (equal : Bool) (code : Byte) (n : Nat)
  /-- The reset event (R230, R231). -/
  | reset
  deriving DecidableEq, Repr

/-- Everything the spec gives the machine, and three fields of the model's own for the host (pending, received) and for
the free values of a reset event (resets). The constant tables are Config.glyph and Config.geom (R26). -/
structure State where
  /-- FREE, an operand of FSRENDER (R13). -/
  free   : BitVec 64
  /-- TOTAL, an operand of FSRENDER (R13). -/
  total  : BitVec 64
  /-- KBF, the unit factor, an operand of FSRENDER (R13). -/
  kbf    : BitVec 16
  /-- TLEN, the length of the input string (R13). -/
  tlen   : BitVec 8
  /-- RES, the result of CHARMASK (R14). -/
  res    : BitVec 16
  /-- GEO, the result of SEGGEOM (R14, R70). -/
  geo    : BitVec 32
  /-- LLEN, the line length DECRENDER gives (R14). -/
  llen   : BitVec 7
  /-- STATUS, the outcome of the last operation (R15). -/
  status : BitVec 8
  /-- Space TXT (R40). -/
  txt    : Memory
  /-- Space LBL (R41). -/
  lbl    : Memory
  /-- Space FSP (R42). -/
  fsp    : Memory
  /-- Space GRID, the byte GRID[r][x] at offset 73 * r + x (R43; entry 16). -/
  grid   : Memory
  /-- What the host still has to do, oldest first (R10, R12, R53; entry 1). -/
  pending  : List HostAction
  /-- What the host's reads have returned, oldest first (R44; entry 17). -/
  received : List (BitVec 64)
  /-- How many reset events have happened; indexes the free values they leave (entry 6). -/
  resets   : Nat
  deriving DecidableEq, Repr

/-- Reasons a step could end in a fault. There are none: the block has no trap and nothing in the spec stops it
(60_exceptions.md R205, R207, R212; entry 20). -/
inductive Fault where
  deriving DecidableEq, Repr

/-- Reasons a step has no meaning. -/
inductive Refusal where
  /-- An operation without a meaning yet. Raised by no arm of exec: safe. -/
  | notModelled (mnemonic : String)
  /-- ENCRAW with 13 to 24 groups: R119 gives the band no step and no outcome (U1). Raised by ENCRAW: safe. -/
  | rawGroupsBeyondLabel
  /-- FSRENDER with FREE > TOTAL > 0: R144 gives it no result (U2). Raised by FSRENDER: safe. -/
  | freeAboveTotal
  /-- FSRENDER with TOTAL > 0 and KBF = 0: R144 gives it no result (U3). Raised by FSRENDER: safe. -/
  | zeroUnitFactor
  /-- A host access to an offset outside a space: R44 refuses it (U10). Raised by PUT and GET: safe. -/
  | accessOutsideSpace
  /-- A host write to GRID: R44 refuses it (U10). Raised by PUT: safe. -/
  | hostWriteToGrid
  deriving DecidableEq, Repr

/-- The machine right after reset: STATUS is 0x00 (R30, R230). Every other register and byte is unspecified by R30 and
holds 0 here (entries 2 and 3: DESIGN CHOICE), and the host has nothing to do yet (entry 1). -/
def State.reset : State where
  free   := 0#64
  total  := 0#64
  kbf    := 0#16
  tlen   := 0#8
  res    := 0#16
  geo    := 0#32
  llen   := 0#7
  status := 0x00#8
  txt    := []
  lbl    := []
  fsp    := []
  grid   := []
  pending  := []
  received := []
  resets   := 0

end Sys2Proof.Machine
end

