-- ==== Sys2Proof/Machine/Flags.lean ====
section
/-! DEFINITION. The block's only flag register is STATUS: its outcome codes (spec 60_exceptions.md R200), and the flag bits
FSRENDER keeps in the free-space payload (30_encoding.md R64, R67). -/

namespace Sys2Proof.Machine

/-- The outcome of an operation (R200). -/
inductive OutcomeKind where
  | ok
  | cleared
  | unsupportedChar
  | tooLong
  | badLength
  | notHex
  | outOfRange
  | displayOverflow
  | illegalCommand
  | badOperand
  deriving DecidableEq, Repr

/-- The code STATUS receives (R200, R71). -/
def OutcomeKind.code : OutcomeKind → BitVec 8
  | .ok              => 0x00#8
  | .cleared         => 0x01#8
  | .unsupportedChar => 0x10#8
  | .tooLong         => 0x11#8
  | .badLength       => 0x12#8
  | .notHex          => 0x13#8
  | .outOfRange      => 0x14#8
  | .displayOverflow => 0x20#8
  | .illegalCommand  => 0x30#8
  | .badOperand      => 0x31#8

/-- OK and CLEARED are successes, every other outcome is an error (R200). -/
def OutcomeKind.isError : OutcomeKind → Bool
  | .ok      => false
  | .cleared => false
  | _        => true

/-- All outcomes (R200). -/
def OutcomeKind.all : List OutcomeKind :=
  [.ok, .cleared, .unsupportedChar, .tooLong, .badLength, .notHex, .outOfRange, .displayOverflow, .illegalCommand,
   .badOperand]

/-- The one-bit flags of the free-space payload (R64). -/
inductive FspFlag where
  /-- The bar-enabled marker. -/
  | baren
  /-- The unit indicator GB. -/
  | ugb
  /-- The unit indicator TB. -/
  | utb
  /-- The "free" indicator. -/
  | freeind
  /-- The decimal point. -/
  | dp
  deriving DecidableEq, Repr

/-- The payload byte that holds a flag (R64, R67; the place of DP is D16's, entry 12). -/
def FspFlag.offset : FspFlag → Nat
  | .baren   => 4
  | .ugb     => 10
  | .utb     => 10
  | .freeind => 10
  | .dp      => 11

/-- The bit of that byte (R64, R67). -/
def FspFlag.bit : FspFlag → Nat
  | .baren   => 7
  | .ugb     => 1
  | .utb     => 2
  | .freeind => 4
  | .dp      => 1

end Sys2Proof.Machine
end

