-- ==== Sys2Proof/Machine/Ops.lean ====
section
/-! DEFINITION. The named operations over buffer spaces and registers that every meaning is written with: spec
00_scope.md R9, 20_memory.md R40 to R51; and the end of an operation in its outcome, which is the only thing an error
does (60_exceptions.md R200 to R207). -/

namespace Sys2Proof.Machine

/-! ### One buffer space -/

/-- The byte at an offset; an offset that is not listed reads 0x00 (entry 3). -/
def Memory.read : Memory → Nat → Byte
  | [], _ => 0#8
  | (k, v) :: m, a => if k = a then v else Memory.read m a

/-- List a byte at an offset, keeping the offsets rising. -/
def Memory.insert : Memory → Nat → Byte → Memory
  | [], a, b => [(a, b)]
  | (k, v) :: m, a, b =>
    if a < k then (a, b) :: (k, v) :: m
    else if a = k then (a, b) :: m
    else (k, v) :: Memory.insert m a b

/-- List nothing at an offset. -/
def Memory.erase : Memory → Nat → Memory
  | [], _ => []
  | (k, v) :: m, a => if k = a then Memory.erase m a else (k, v) :: Memory.erase m a

/-- Store a byte; the byte 0x00 is never listed. A write stores the byte and does nothing else (R51). -/
def Memory.write (m : Memory) (a : Nat) (b : Byte) : Memory :=
  if b = 0#8 then Memory.erase m a else Memory.insert m a b

/-- The contents that read f o at every offset o below n. -/
def Memory.tabulate (n : Nat) (f : Nat → Byte) : Memory :=
  (List.range n).filterMap fun o => if f o = 0#8 then none else some (o, f o)

/-- The offsets rise from lo, lie below size, and no listed byte is 0x00. -/
def Memory.canonicalFrom (size : Nat) : Nat → Memory → Bool
  | _, [] => true
  | lo, (k, v) :: m => decide (lo ≤ k) && decide (k < size) && (v != 0#8) && Memory.canonicalFrom size (k + 1) m

/-- The canonical form of the contents of a space of the given size: equal contents are equal lists. -/
def Memory.wf (size : Nat) (m : Memory) : Bool :=
  Memory.canonicalFrom size 0 m

/-! ### The state's spaces (R28) -/

/-- The contents of a space. -/
def State.space (s : State) : Space → Memory
  | .txt  => s.txt
  | .lbl  => s.lbl
  | .fsp  => s.fsp
  | .grid => s.grid

/-- Replace the contents of a space. -/
def State.setSpace (s : State) (sp : Space) (m : Memory) : State :=
  match sp with
  | .txt  => { s with txt := m }
  | .lbl  => { s with lbl := m }
  | .fsp  => { s with fsp := m }
  | .grid => { s with grid := m }

/-- All four spaces are in canonical form. -/
def State.memoryWf (s : State) : Bool :=
  Memory.wf (Space.size .txt) s.txt && Memory.wf (Space.size .lbl) s.lbl &&
    Memory.wf (Space.size .fsp) s.fsp && Memory.wf (Space.size .grid) s.grid

/-- MemRead(S+o, 1) (R9). -/
def State.readByte (s : State) (sp : Space) (o : Nat) : Byte :=
  Memory.read (s.space sp) o

/-- MemWrite(S+o, 1, b) (R9). -/
def State.writeByte (s : State) (sp : Space) (o : Nat) (b : Byte) : State :=
  s.setSpace sp (Memory.write (s.space sp) o b)

/-- MemRead(S+o, 2): big-endian, the more significant byte at the lower offset (R8 (d), R9, R49). -/
def State.readWord (s : State) (sp : Space) (o : Nat) : Word :=
  s.readByte sp o ++ s.readByte sp (o + 1)

/-- MemWrite(S+o, 2, v): big-endian, as two one-byte writes (R9, R49, R50). -/
def State.writeWord (s : State) (sp : Space) (o : Nat) (v : Word) : State :=
  (s.writeByte sp o (v.extractLsb' 8 8)).writeByte sp (o + 1) (v.extractLsb' 0 8)

/-! ### The bit-access primitive (R46, R47) -/

/-- A byte with one bit set or cleared, all others untouched (R47). -/
def setBitOf (old : Byte) (b : Nat) (v : Bool) : Byte :=
  if v then old ||| (1#8 <<< b) else old &&& ~~~(1#8 <<< b)

/-- GetBit(S+o, b) (R46). -/
def State.getBit (s : State) (sp : Space) (o b : Nat) : Bool :=
  (s.readByte sp o).getLsbD b

/-- SetBit(S+o, b, v) (R47). -/
def State.setBit (s : State) (sp : Space) (o b : Nat) (v : Bool) : State :=
  s.writeByte sp o (setBitOf (s.readByte sp o) b v)

/-- SetBit on a flag of the free-space payload (R64). -/
def State.setFlag (s : State) (f : FspFlag) (v : Bool) : State :=
  s.setBit .fsp f.offset f.bit v

/-! ### The label -/

/-- The value of a label slot (R41, R61). -/
def State.slot (s : State) (i : Nat) : Word :=
  s.readWord .lbl (2 * i)

/-- Write all twelve slots in ascending order (R110, R116). -/
def State.writeLabel (s : State) (value : Nat → Word) : State :=
  (List.range 12).foldl (fun t i => t.writeWord .lbl (2 * i) (value i)) s

/-! ### The end of an operation -/

/-- The last action of every operation: STATUS receives the code of its outcome (R15, R200). -/
def State.finish (s : State) (o : OutcomeKind) : State :=
  { s with status := o.code }

/-- raise E(): the operation ends at once with an error outcome (R9). Only STATUS is written; there is no handler, no
saved program counter and no mode, and control goes nowhere (R205), so nothing returns from it either (R207). What was
written before stays (R156). -/
def State.raise (s : State) (e : OutcomeKind) : State :=
  s.finish e

end Sys2Proof.Machine
end

