-- ==== Sys2Proof/Machine/Operands.lean ====
section
/-! DEFINITION. How the operands of the operations are put together from bits (spec 30_encoding.md R60 to R72). -/

namespace Sys2Proof.Machine

/-! ### Characters and the glyph table -/

/-- The table index of a character code: c - 0x20 for the supported codes 0x20 to 0x7E, none for the others (R60). -/
def glyphIndex (c : Byte) : Option (Fin 95) :=
  if h : 0x20 ≤ c.toNat ∧ c.toNat ≤ 0x7E then some ⟨c.toNat - 0x20, by omega⟩ else none

/-- The mask of a character, indexing with c - 0x20 and nothing else (R100, R101); none for an unsupported code. -/
def charToMask (glyph : GlyphTable) (c : Byte) : Option Mask :=
  (glyphIndex c).map glyph

/-- The first n characters of TXT (R40, R72). -/
def State.inputChars (s : State) (n : Nat) : List Byte :=
  (List.range n).map (s.readByte .txt)

/-! ### Raw hexadecimal groups (R63) -/

/-- The value of a hexadecimal digit character; none for any other code (R63). -/
def hexDigit (c : Byte) : Option Nat :=
  let v := c.toNat
  if 0x30 ≤ v ∧ v ≤ 0x39 then some (v - 0x30)
  else if 0x41 ≤ v ∧ v ≤ 0x46 then some (v - 0x41 + 10)
  else if 0x61 ≤ v ∧ v ≤ 0x66 then some (v - 0x61 + 10)
  else none

/-- Four consecutive characters of TXT. -/
structure RawGroup where
  c0 : Byte
  c1 : Byte
  c2 : Byte
  c3 : Byte
  deriving DecidableEq, Repr

/-- Group k: the characters 4k to 4k+3 (R63). -/
def State.rawGroup (s : State) (k : Nat) : RawGroup where
  c0 := s.readByte .txt (4 * k)
  c1 := s.readByte .txt (4 * k + 1)
  c2 := s.readByte .txt (4 * k + 2)
  c3 := s.readByte .txt (4 * k + 3)

/-- The first g groups of TXT. -/
def State.rawGroups (s : State) (g : Nat) : List RawGroup :=
  (List.range g).map s.rawGroup

/-- The value of a group, first character most significant; none when a character is no hexadecimal digit (R63). -/
def RawGroup.value (g : RawGroup) : Option Nat :=
  match hexDigit g.c0, hexDigit g.c1, hexDigit g.c2, hexDigit g.c3 with
  | some d0, some d1, some d2, some d3 => some (d0 * 4096 + d1 * 256 + d2 * 16 + d3)
  | _, _, _, _ => none

/-! ### Geometry entries (R27, R70) -/

/-- The code of a printable character (R27). -/
def printableCode (p : Printable) : Byte :=
  BitVec.ofNat 8 (0x20 + p.val)

/-- The characters of a fragment, in order. -/
def Fragment.chars : Fragment → List Byte
  | .one a       => [printableCode a]
  | .two a b     => [printableCode a, printableCode b]
  | .three a b c => [printableCode a, printableCode b, printableCode c]

/-- flen, 1 to 3 (R27). -/
def Fragment.flen (f : Fragment) : Nat :=
  (Fragment.chars f).length

/-- The 32-bit format of an entry: frag2, frag1, frag0, flen, col, row from the most significant end, an absent
fragment character as 0x00 (R70). -/
def packGeom (g : GeomEntry) : BitVec 32 :=
  (Fragment.chars g.frag).getD 2 0#8 ++ ((Fragment.chars g.frag).getD 1 0#8 ++ ((Fragment.chars g.frag).getD 0 0#8 ++
    (BitVec.ofNat 2 (Fragment.flen g.frag) ++ (BitVec.ofNat 3 g.col.val ++ BitVec.ofNat 3 g.row.val))))

/-! ### The operands of FSRENDER (R72, R157) -/

/-- F, the free byte count. -/
def State.freeCount (s : State) : Nat := s.free.toNat

/-- T, the total byte count. -/
def State.totalCount (s : State) : Nat := s.total.toNat

/-- K, the unit factor. -/
def State.unitFactor (s : State) : Nat := s.kbf.toNat

end Sys2Proof.Machine
end

