-- ==== Sys2Proof/Machine/FreeSpace.lean ====
section
/-! DEFINITION. The free-space render operation FSRENDER (spec 43_freespace_render.md R140 to R162). All arithmetic is exact,
over the natural numbers (R157, D18; entry 11). -/

namespace Sys2Proof.Machine

/-- Clear the lit marker and the digit of a digit byte, bits 7 and 3:0 (R142). -/
def State.clearDigit (s : State) (o : Nat) : State :=
  s.writeByte .fsp o (s.readByte .fsp o &&& 0x70#8)

/-- The reset step, which every invocation begins with (R142). -/
def State.fspReset (s : State) : State :=
  let s := s.setFlag .baren false
  let s := s.writeByte .fsp 6 0#8
  let s := (s.setBit .fsp 7 6 false).setBit .fsp 7 7 false
  let s := ((s.setFlag .ugb false).setFlag .utb false).setFlag .freeind false
  let s := s.setFlag .dp false
  ((s.clearDigit 12).clearDigit 13).clearDigit 14

/-- round(10 * F / T), halves up, in exact arithmetic (R145). -/
def roundedTenths (F T : Nat) : Nat :=
  (20 * F + T) / (2 * T)

/-- segmentsUsed: more segments the less is free (R145, R147). -/
def segmentsUsed (F T : Nat) : Nat :=
  10 - roundedTenths F T

/-- The bar with its n most significant bits set (R65). -/
def barOf (n : Nat) : Bar :=
  BitVec.ofNat 10 (((1 <<< n) - 1) <<< (10 - n))

/-- Write the bar, bits 9:2 to FSP+6 and bits 1:0 to bits 7:6 of FSP+7, and set BAREN (R146). -/
def State.writeBar (s : State) (bar : Bar) : State :=
  let s := s.writeByte .fsp 6 (bar.extractLsb' 2 8)
  let s := s.writeByte .fsp 7 ((s.readByte .fsp 7 &&& 0x3F#8) ||| ((bar.extractLsb' 0 2).setWidth 8 <<< 6))
  s.setFlag .baren true

/-- TB mode exactly when F >= 1000 * K^3 (R148). -/
def tbMode (F K : Nat) : Bool :=
  !decide (F < 1000 * K ^ 3)

/-- D: the displayed value is F / D (R148). -/
def displayDivisor (F K : Nat) : Nat :=
  if tbMode F K then K ^ 4 else K ^ 3

/-- The value is still 1000 or more in TB mode (R149). -/
def displayOverflows (F K : Nat) : Bool :=
  tbMode F K && decide (F ≥ 1000 * K ^ 4)

/-- What the digit step shows: the hundreds position may stay blank. -/
structure Digits where
  hundreds : Option Nat
  tens     : Nat
  ones     : Nat
  point    : Bool
  deriving DecidableEq, Repr

/-- The digits of F / D (R150, R151): an integer from 10 up, truncated, hundreds only from 100 up; otherwise X.YY,
truncated to hundredths (R155, D19; entry 11). -/
def displayDigits (F D : Nat) : Digits :=
  if F ≥ 10 * D then
    let I := F / D
    { hundreds := if I ≥ 100 then some (I / 100) else none, tens := I / 10 % 10, ones := I % 10, point := false }
  else
    let C := 100 * F / D
    { hundreds := some (C / 100), tens := C / 10 % 10, ones := C % 10, point := true }

/-- Write a digit: OR 0x80 | d into the position's byte (R66, R152). -/
def State.writeDigit (s : State) (o d : Nat) : State :=
  s.writeByte .fsp o (s.readByte .fsp o ||| 0x80#8 ||| BitVec.ofNat 8 d)

/-- Write the digits, hundreds at FSP+12, tens at FSP+13, ones at FSP+14, and the decimal point (R150, R151, R154). -/
def State.writeDigits (s : State) (d : Digits) : State :=
  let s := match d.hundreds with
    | some h => s.writeDigit 12 h
    | none   => s
  let s := (s.writeDigit 13 d.tens).writeDigit 14 d.ones
  if d.point then s.setFlag .dp true else s

/-- Set the unit indicator and the "free" indicator (R153). -/
def State.writeUnit (s : State) (tb : Bool) : State :=
  (if tb then s.setFlag .utb true else s.setFlag .ugb true).setFlag .freeind true

/-- FSRENDER (R140). TOTAL alone chooses the branch (R141); FREE above TOTAL and a unit factor of 0 have no result
(R144); an overflow keeps the reset step and the bar (R156). -/
def execFsrender (s : State) : Host.Outcome State Fault Refusal :=
  let F := s.freeCount
  let T := s.totalCount
  let K := s.unitFactor
  if T = 0 then .next (s.fspReset.finish .cleared)
  else if K = 0 then .refused .zeroUnitFactor
  else if F > T then .refused .freeAboveTotal
  else if displayOverflows F K then
    .next ((s.fspReset.writeBar (barOf (segmentsUsed F T))).raise .displayOverflow)
  else
    .next ((((s.fspReset.writeBar (barOf (segmentsUsed F T))).writeDigits
      (displayDigits F (displayDivisor F K))).writeUnit (tbMode F K)).finish .ok)

end Sys2Proof.Machine
end

