-- ==== Sys2Proof/Machine/Glyph.lean ====
section
/-! DEFINITION. The glyph lookup operations CHARMASK and SEGGEOM (spec 40_glyph_lookup.md R100 to R104). Each is written
for any table, as the spec's rules are (D26), and then taken at the block's own. -/

namespace Sys2Proof.Machine

/-- CHARMASK c over a mask table (R100): RES receives the mask with zeros above it. -/
def charmaskWith (glyph : GlyphTable) (c : Byte) (s : State) : Host.Outcome State Fault Refusal :=
  match charToMask glyph c with
  | none   => .next (s.raise .unsupportedChar)
  | some m => .next (({ s with res := m.setWidth 16 } : State).finish .ok)

/-- SEGGEOM b over a geometry table (R103, R104): GEO receives the packed entry. -/
def seggeomWith (geom : GeomTable) (b : BitVec 4) (s : State) : Host.Outcome State Fault Refusal :=
  if h : b.toNat < 14 then .next (({ s with geo := packGeom (geom ⟨b.toNat, h⟩) } : State).finish .ok)
  else .next (s.raise .badOperand)

/-- CHARMASK (R100). -/
def execCharmask (c : Byte) (s : State) : Host.Outcome State Fault Refusal :=
  charmaskWith Config.glyph c s

/-- SEGGEOM (R103). -/
def execSeggeom (b : BitVec 4) (s : State) : Host.Outcome State Fault Refusal :=
  seggeomWith Config.geom b s

end Sys2Proof.Machine
end

