-- ==== Sys2Proof/Machine/Label.lean ====
section
/-! DEFINITION. The label encode operations ENCTEXT and ENCRAW (spec 41_label_encode.md R110 to R123). Both write the label
only after every check has passed (R115). -/

namespace Sys2Proof.Machine

/-- The masks of a text, examined in ascending position; the first unsupported character ends it (R110, R112). -/
def encodeChars (glyph : GlyphTable) : List Byte → Except OutcomeKind (List Mask)
  | [] => .ok []
  | c :: cs =>
    match charToMask glyph c with
    | none   => .error .unsupportedChar
    | some m =>
      match encodeChars glyph cs with
      | .error e => .error e
      | .ok ms   => .ok (m :: ms)

/-- One group of ENCRAW: NotHex before OutOfRange (R120, R122). -/
def encodeGroup (g : RawGroup) : Except OutcomeKind Mask :=
  match RawGroup.value g with
  | none   => .error .notHex
  | some v => if v > 0x3FFF then .error .outOfRange else .ok (BitVec.ofNat 14 v)

/-- The groups of ENCRAW, examined in ascending order (R116, R122). -/
def encodeGroups : List RawGroup → Except OutcomeKind (List Mask)
  | [] => .ok []
  | g :: gs =>
    match encodeGroup g with
    | .error e => .error e
    | .ok m =>
      match encodeGroups gs with
      | .error e => .error e
      | .ok ms   => .ok (m :: ms)

/-- What slot i receives: mask i with zeros above it, and 0x0000 after the last mask (R113, R114, R121). -/
def slotValue (ms : List Mask) (i : Nat) : Word :=
  (ms.getD i 0#14).setWidth 16

/-- The end of an encoder: the label and OK, or the error and nothing else (R114, R115). -/
def storeLabel (r : Except OutcomeKind (List Mask)) (s : State) : Host.Outcome State Fault Refusal :=
  match r with
  | .error e => .next (s.raise e)
  | .ok ms   => .next ((s.writeLabel (slotValue ms)).finish .ok)

/-- ENCTEXT over a mask table (R110). The length is checked first and from TLEN alone (R111). -/
def enctextWith (glyph : GlyphTable) (s : State) : Host.Outcome State Fault Refusal :=
  if s.tlen.toNat > 12 then .next (s.raise .tooLong)
  else storeLabel (encodeChars glyph (s.inputChars s.tlen.toNat)) s

/-- ENCTEXT (R110). -/
def execEnctext (s : State) : Host.Outcome State Fault Refusal :=
  enctextWith Config.glyph s

/-- ENCRAW (R116): TooLong, BadLength, the refused band of 13 to 24 groups (R119), then the groups. -/
def execEncraw (s : State) : Host.Outcome State Fault Refusal :=
  if s.tlen.toNat > 96 then .next (s.raise .tooLong)
  else if s.tlen.toNat % 4 ≠ 0 then .next (s.raise .badLength)
  else if s.tlen.toNat / 4 > 12 then .refused .rawGroupsBeyondLabel
  else storeLabel (encodeGroups (s.rawGroups (s.tlen.toNat / 4))) s

end Sys2Proof.Machine
end

