-- ==== Sys2Proof/Machine/Render.lean ====
section
/-! DEFINITION. The label render operation DECRENDER (spec 42_label_render.md R130 to R137). -/

namespace Sys2Proof.Machine

/-- Where GRID[r][x] lies in the contents of GRID (entry 16). -/
def gridOffset (r x : Nat) : Nat :=
  73 * r + x

/-- GRID[r][x] (R43). -/
def State.gridByte (s : State) (r x : Nat) : Byte :=
  s.readByte .grid (gridOffset r x)

/-- The grid with 0x20 in every one of its 5 * 73 places (R134). -/
def blankGrid : Memory :=
  (List.range 365).map fun o => (o, 0x20#8)

/-- Write characters at consecutive columns of a row, overwriting what was there (R133). -/
def stampChars (r : Nat) : Nat → List Byte → Memory → Memory
  | _, [], m => m
  | x, c :: cs, m => stampChars r (x + 1) cs (Memory.write m (gridOffset r x) c)

/-- Stamp one geometry entry into the cell of a slot, at column 6 * slot + col (R133). -/
def stampEntry (g : GeomEntry) (slot : Nat) (m : Memory) : Memory :=
  stampChars g.row.val (6 * slot + g.col.val) (Fragment.chars g.frag) m

/-- The fourteen segment bits, ascending (R62, R135). -/
def segmentBits : List (Fin 14) :=
  [0, 1, 2, 3, 4, 5, 6, 7, 8, 9, 10, 11, 12, 13]

/-- Stamp the entries of the set bits among some bits of a slot value, in the order given (R132, R135). -/
def stampBits (geom : GeomTable) (slot : Nat) (w : Word) : List (Fin 14) → Memory → Memory
  | [], m => m
  | b :: bs, m =>
    stampBits geom slot w bs (if w.getLsbD b.val then stampEntry (geom b) slot m else m)

/-- Stamp one slot: a value of 0x0000, all sixteen bits, draws nothing (R131); otherwise bits 0 to 13 do, and bits 14 and
15 select nothing (R132). -/
def stampSlot (geom : GeomTable) (slot : Nat) (w : Word) (m : Memory) : Memory :=
  if w = 0#16 then m else stampBits geom slot w segmentBits m

/-- Stamp some slots in the order given (R130). -/
def stampSlots (geom : GeomTable) (value : Nat → Word) : List Nat → Memory → Memory
  | [], m => m
  | i :: is, m => stampSlots geom value is (stampSlot geom i (value i) m)

/-- The terminator column after some slots, in the order given: a slot that is not blank moves it to 6 * slot + 5 (R136). -/
def terminatorColumn (value : Nat → Word) : List Nat → Nat → Nat
  | [], l => l
  | i :: is, l => terminatorColumn value is (if value i = 0#16 then l else 6 * i + 5)

/-- DECRENDER over a geometry table (R130): the whole grid, LLEN and OK. It has no error (R200). -/
def decrenderWith (geom : GeomTable) (s : State) : Host.Outcome State Fault Refusal :=
  .next (({ s with
    grid := stampSlots geom s.slot (List.range 12) blankGrid
    llen := BitVec.ofNat 7 (terminatorColumn s.slot (List.range 12) 0) } : State).finish .ok)

/-- DECRENDER (R130). -/
def execDecrender (s : State) : Host.Outcome State Fault Refusal :=
  decrenderWith Config.geom s

/-- Line r of the result: GRID[r][0] to GRID[r][LLEN - 1] (R43, R68, R130). -/
def State.line (s : State) (r : Nat) : List Byte :=
  (List.range s.llen.toNat).map (s.gridByte r)

/-- The five lines (R68). -/
def State.lines (s : State) : List (List Byte) :=
  (List.range 5).map s.line

end Sys2Proof.Machine
end

