-- ==== Sys2Proof/Machine/Dispatch.lean ====
section
/-! DEFINITION. One arm for each operation (spec 00_scope.md R3). -/

namespace Sys2Proof.Machine

def exec (i : Instr) (s : State) : Host.Outcome State Fault Refusal :=
  match i with
  | .charmask c => Sys2Proof.Machine.execCharmask c s
  | .seggeom b => Sys2Proof.Machine.execSeggeom b s
  | .enctext => Sys2Proof.Machine.execEnctext s
  | .encraw => Sys2Proof.Machine.execEncraw s
  | .decrender => Sys2Proof.Machine.execDecrender s
  | .fsrender => Sys2Proof.Machine.execFsrender s

end Sys2Proof.Machine
end

