-- ==== Sys2Proof/Machine/HostActs.lean ====
section
/-! DEFINITION. What the host does to the block between operations (spec 20_memory.md R44, 30_encoding.md R80 to R85,
70_reset_and_hazards.md R230, R231): command words, register and byte accesses, IF STATUS and the reset event. -/

namespace Sys2Proof.Machine

/-- The space and the offset of a location; none when it lies outside its space (R40 to R44). -/
def Loc.address : Loc → Option (Space × Nat)
  | .txt o    => if o < Space.size .txt then some (.txt, o) else none
  | .lbl o    => if o < Space.size .lbl then some (.lbl, o) else none
  | .fsp o    => if o < Space.size .fsp then some (.fsp, o) else none
  | .grid r x => if r < 5 ∧ x < 73 then some (.grid, gridOffset r x) else none

/-- The host has read a value, shown with zeros above it (entry 17). The block's state does not change (R44). -/
def State.receive (s : State) (v : BitVec 64) : State :=
  { s with received := s.received ++ [v] }

/-- A host read of one byte: outside a space it is refused (R44, U10). -/
def hostGet (l : Loc) (s : State) : Host.Outcome State Fault Refusal :=
  match Loc.address l with
  | none         => .refused .accessOutsideSpace
  | some (sp, o) => .next (s.receive ((s.readByte sp o).setWidth 64))

/-- A host write of one byte of TXT, LBL or FSP: GRID and places outside a space are refused (R44, U10). -/
def hostPut (l : Loc) (b : Byte) (s : State) : Host.Outcome State Fault Refusal :=
  match Loc.address l with
  | none            => .refused .accessOutsideSpace
  | some (.grid, _) => .refused .hostWriteToGrid
  | some (.txt, o)  => .next (s.writeByte .txt o b)
  | some (.lbl, o)  => .next (s.writeByte .lbl o b)
  | some (.fsp, o)  => .next (s.writeByte .fsp o b)

/-- The value of a register, with zeros above it (R13 to R15). -/
def State.reg (s : State) : Reg → BitVec 64
  | .free   => s.free
  | .total  => s.total
  | .kbf    => s.kbf.setWidth 64
  | .tlen   => s.tlen.setWidth 64
  | .res    => s.res.setWidth 64
  | .geo    => s.geo.setWidth 64
  | .llen   => s.llen.setWidth 64
  | .status => s.status.setWidth 64

/-- The reset event (R230): STATUS is 0x00, every other register and byte is unspecified, a free value that depends on
how many reset events came before (R30, U9; entry 6). The tables are constants (R26); the host's own lists stay. -/
def State.resetEvent (s : State) : State :=
  let d := Config.registersAfterReset s.resets
  { free     := d.free
    total    := d.total
    kbf      := d.kbf
    tlen     := d.tlen
    res      := d.res
    geo      := d.geo
    llen     := d.llen
    status   := 0x00#8
    txt      := Memory.tabulate (Space.size .txt) (Config.byteAfterReset s.resets .txt)
    lbl      := Memory.tabulate (Space.size .lbl) (Config.byteAfterReset s.resets .lbl)
    fsp      := Memory.tabulate (Space.size .fsp) (Config.byteAfterReset s.resets .fsp)
    grid     := Memory.tabulate (Space.size .grid) (Config.byteAfterReset s.resets .grid)
    pending  := s.pending
    received := s.received
    resets   := s.resets + 1 }

/-- A command word, taken by value (R56): an operation, or for an illegal word no operation and STATUS = IllegalCommand
(R82). -/
def issueCommand (w : Word) (s : State) : Host.Outcome State Fault Refusal :=
  match decode w with
  | .ok i    => exec i s
  | .error _ => .next (s.raise .illegalCommand)

/-- One action of the host (R44, R85, R231). -/
def hostAct (a : HostAction) (s : State) : Host.Outcome State Fault Refusal :=
  match a with
  | .command w  => issueCommand w s
  | .setFree v  => .next { s with free := v }
  | .setTotal v => .next { s with total := v }
  | .setKbf v   => .next { s with kbf := v }
  | .setTlen v  => .next { s with tlen := v }
  | .put l b    => hostPut l b s
  | .get l      => hostGet l s
  | .getReg r   => .next (s.receive (s.reg r))
  | .skipIf equal code n =>
    .next (if decide (s.status = code) = equal then { s with pending := s.pending.drop n } else s)
  | .reset      => .next s.resetEvent

/-- PUT TXT, string: one byte write for each character, then SET TLEN (R85). -/
def putText (chars : List Byte) : List HostAction :=
  (chars.zipIdx.map fun p => HostAction.put (.txt p.2) p.1) ++ [.setTlen (BitVec.ofNat 8 chars.length)]

/-- PUT LBL+o or FSP+o, bytes: writes at consecutive offsets (R85). -/
def putBytes (at' : Nat → Loc) (o : Nat) (bytes : List Byte) : List HostAction :=
  bytes.zipIdx.map fun p => HostAction.put (at' (o + p.2)) p.1

/-- GET of n consecutive bytes (R85). -/
def getBytes (at' : Nat → Loc) (o n : Nat) : List HostAction :=
  (List.range n).map fun k => HostAction.get (at' (o + k))

end Sys2Proof.Machine
end

