-- ==== Sys2Proof/Machine/Step.lean ====
section
/-! DEFINITION. One step of the machine: the host's next action (spec 10_state.md R10, R12, R53). -/

namespace Sys2Proof.Machine

/-- The oldest action of the host is taken off its list and performed. With nothing to do the block is idle and holds its
state (60_exceptions.md R212; entry 7). -/
def step (s : State) : Host.Outcome State Fault Refusal :=
  match s.pending with
  | []        => .next s
  | a :: rest => hostAct a { s with pending := rest }

/-- s with the command whose nbits bits are w (those above them 0) as the host's very next action. -/
def State.withFetchWord (s : State) (nbits w : Nat) : State :=
  { s with pending := .command (BitVec.ofNat 16 (w % 2 ^ nbits)) :: s.pending }

end Sys2Proof.Machine
end

