-- ==== Sys2Proof/Machine/HostPages.lean ====
section
/-! DEFINITION. The pages around the block, on the host's side (spec 44_host_page_operations.md R171 to R179): layouts,
validators, the bit primitive on a page buffer and ModePageFlagOperation. None of this is an operation of the block
(R170); the transport is an argument (entry 19). -/

namespace Sys2Proof.Machine

/-- A page as the transport carries it, offset 0 first. -/
abbrev Buffer := List Byte

/-- The host's own error kinds (R184). -/
inductive HostError where
  /-- Validation mismatch. -/
  | malformedPage
  /-- The underlying exchange failed. -/
  | transportError
  deriving DecidableEq, Repr

/-- The byte of a buffer at an offset has a value; false where the buffer has no such byte. -/
def byteIs (buf : Buffer) (o v : Nat) : Bool :=
  match buf[o]? with
  | some b => b.toNat == v
  | none   => false

/-- getBit on any buffer (R46); none, refused, out of range (R48, U11). -/
def bufferGetBit (buf : Buffer) (o b : Nat) : Option Bool :=
  if b < 8 then (buf[o]?).map fun x => x.getLsbD b else none

/-- setBit on any buffer (R47); none, refused, out of range (R48, U11). -/
def bufferSetBit (buf : Buffer) (o b : Nat) (v : Bool) : Option Buffer :=
  if b < 8 then (buf[o]?).map fun x => buf.set o (setBitOf x b v) else none

/-! ### Layouts (R171 to R173) -/

/-- A mode page: header of mode-data length, medium type, device-specific parameter and block-descriptor length, then PS,
SPF and page code, page length, and the payload (R171). DESIGN CHOICE (entry 26): medium type, device-specific parameter
and PS are 0, values the spec does not give; no page operation builds a page with this. -/
def modePage (code : Nat) (payload : List Byte) : Buffer :=
  [BitVec.ofNat 8 (payload.length + 5), 0#8, 0#8, 0#8, BitVec.ofNat 8 code, BitVec.ofNat 8 payload.length] ++ payload

/-- A diagnostic page: page code, reserved, big-endian page length, and the payload (R172). DESIGN CHOICE (entry 26): the
reserved byte is 0, a value the spec does not give; no page operation builds a page with this. -/
def diagnosticPage (code : Nat) (payload : List Byte) : Buffer :=
  [BitVec.ofNat 8 code, 0#8, BitVec.ofNat 8 (payload.length / 256), BitVec.ofNat 8 payload.length] ++ payload

/-- A mode page that holds a flag (R173). -/
structure FlagPage where
  code       : Nat
  payloadLen : Nat
  /-- The flag's byte, relative to the payload. -/
  flagOffset : Nat
  flagBit    : Nat
  deriving DecidableEq, Repr

/-- Mode page 0x20, the VCD-disable flag (R173). -/
def vcdDisablePage : FlagPage :=
  { code := 0x20, payloadLen := 6, flagOffset := 2, flagBit := 1 }

/-- Mode page 0x21, the inverse-display flag (R173). -/
def inverseDisplayPage : FlagPage :=
  { code := 0x21, payloadLen := 10, flagOffset := 8, flagBit := 0 }

/-- The flag's byte in the whole buffer: the payload begins at offset 6 (R171, R173). -/
def flagPosition (p : FlagPage) : Nat :=
  6 + p.flagOffset

/-! ### Validators (R174, R175) -/

/-- validateModePage: all five conditions hold (R174). -/
def modePageValid (buf : Buffer) (code len : Nat) : Bool :=
  byteIs buf 0 (len + 5) && byteIs buf 3 0 && (bufferGetBit buf 4 6 == some false) &&
    ((buf[4]?).map (fun b => (b &&& 0x3F#8).toNat) == some code) && byteIs buf 5 len

/-- validateDiagnosticPage: the page code and the big-endian length agree; byte 1 is not examined (R175). -/
def diagnosticPageValid (buf : Buffer) (code len : Nat) : Bool :=
  byteIs buf 0 code &&
    (match buf[2]?, buf[3]? with
     | some h, some l => h.toNat * 256 + l.toNat == len
     | _, _ => false)

/-! ### The transport (R176) -/

/-- The transport capability, a collaborator: what each call answers (R176). A read answers a buffer, or none for
TransportError; a write answers whether it succeeded. -/
structure Transport where
  modeSense         : (pageCode : Nat) → Option Buffer
  modeSelect        : Buffer → Bool
  receiveDiagnostic : (pageCode length : Nat) → Option Buffer
  sendDiagnostic    : Buffer → Bool

/-- One call of the transport with its arguments (R176). -/
inductive TransportCall where
  | modeSense (pageCode : Nat)
  | modeSelect (buf : Buffer)
  | receiveDiagnostic (pageCode length : Nat)
  | sendDiagnostic (buf : Buffer)
  deriving DecidableEq, Repr

/-- The buffer a call hands to the device; none for a read. -/
def sentBuffer : TransportCall → Option Buffer
  | .modeSense _           => none
  | .modeSelect buf        => some buf
  | .receiveDiagnostic _ _ => none
  | .sendDiagnostic buf    => some buf

/-! ### ModePageFlagOperation (R178, R179) -/

/-- How ModePageFlagOperation ends. -/
inductive FlagResult where
  /-- No target was requested: the current flag. -/
  | current (flag : Bool)
  /-- The flag already has the target value: "(already)", no write. -/
  | already
  /-- The page was written back. -/
  | written
  | failed (e : HostError)
  /-- A bit outside the buffer: U11. -/
  | refused
  deriving DecidableEq, Repr

/-- A run of ModePageFlagOperation: its result and the transport calls it made, oldest first. -/
structure FlagRun where
  result : FlagResult
  calls  : List TransportCall
  deriving DecidableEq, Repr

/-- The buffers a run wrote, one for each write call (R179). -/
def FlagRun.writes (r : FlagRun) : List Buffer :=
  r.calls.filterMap sentBuffer

/-- The page to write back: the PS bit at byte 4 bit 7 cleared and the flag set to the target (R178). -/
def flagWriteBack (p : FlagPage) (buf : Buffer) (target : Bool) : Option Buffer :=
  (bufferSetBit buf 4 7 false).bind fun b => bufferSetBit b (flagPosition p) p.flagBit target

/-- ModePageFlagOperation (R178): modeSense of the page's code, then at most one modeSelect. -/
def modePageFlagOperation (p : FlagPage) (target : Option Bool) (t : Transport) : FlagRun :=
  match t.modeSense p.code with
  | none => { result := .failed .transportError, calls := [.modeSense p.code] }
  | some buf =>
    if modePageValid buf p.code p.payloadLen = false then
      { result := .failed .malformedPage, calls := [.modeSense p.code] }
    else
      match bufferGetBit buf (flagPosition p) p.flagBit, target with
      | none, _ => { result := .refused, calls := [.modeSense p.code] }
      | some cur, none => { result := .current cur, calls := [.modeSense p.code] }
      | some cur, some want =>
        if cur = want then { result := .already, calls := [.modeSense p.code] }
        else
          match flagWriteBack p buf want with
          | none   => { result := .refused, calls := [.modeSense p.code] }
          | some b =>
            { result := if t.modeSelect b then .written else .failed .transportError
              calls := [.modeSense p.code, .modeSelect b] }

end Sys2Proof.Machine
end

