-- ==== Sys2Proof/Machine/HostOps.lean ====
section
/-! DEFINITION. DiagnosticPageOperation, the host's two read-modify-write cycles that use the block (spec
44_host_page_operations.md R180 to R186): the label on page 0x87 and the free-space display on page 0x86. The host
drives the block by the actions of HostActs alone; the transport and the filesystem's reply are arguments (entry 19), and
nothing else changes the device meanwhile (R236). -/

namespace Sys2Proof.Machine

/-- A run of some actions: the state reached, and the refusal that ended it, if one did. -/
structure ActionsRun where
  state   : State
  refused : Option Refusal
  deriving DecidableEq, Repr

/-- Perform actions in order up to the first that is refused. A refused action has no next state, and the state reached is
the one it was refused in: what the host did before it stays done (DESIGN CHOICE, entry 27). -/
def runActions : List HostAction → State → ActionsRun
  | [], s => { state := s, refused := none }
  | a :: as, s =>
    match hostAct a s with
    | .next t    => runActions as t
    | .fault f   => nomatch f
    | .refused e => { state := s, refused := some e }

/-- The host presents a string: the characters TXT can hold and a length that says whether there are more (R40, D29). -/
def presentText (chars : List Byte) : List HostAction :=
  ((chars.take 96).zipIdx.map fun p => HostAction.put (.txt p.2) p.1) ++
    [.setTlen (BitVec.ofNat 8 (min chars.length 255))]

/-- n bytes of a space as the host reads them (R44). -/
def State.bytes (s : State) (sp : Space) (n : Nat) : List Byte :=
  (List.range n).map (s.readByte sp)

/-- The nine bytes the host shows for the outcome CLEARED, "(cleared)" (R143, D28). -/
def clearedMarker : List Byte :=
  [0x28, 0x63, 0x6C, 0x65, 0x61, 0x72, 0x65, 0x64, 0x29]

/-- How a page operation ends. -/
inductive PageResult where
  /-- No new value was supplied. -/
  | shown
  /-- The new value equals the current one: nothing is sent (R180). -/
  | unchanged
  /-- The page was sent. -/
  | written
  /-- The block reported an error, with its code: an input-encoding error before any exchange (R185), or DisplayOverflow
  (R186). -/
  | blockError (status : BitVec 8)
  | failed (e : HostError)
  /-- The filesystem gave no measurement because it failed (R177). -/
  | statFailed
  /-- The block has no outcome for these operands (R234; entry 27), or the received buffer ends before its payload does
  (entry 19). -/
  | refused
  deriving DecidableEq, Repr

/-- A run of a page operation. -/
structure PageRun where
  result : PageResult
  /-- The lines of text shown. -/
  shown  : List (List Byte)
  /-- The transport calls made, oldest first. -/
  calls  : List TransportCall
  /-- The block's state afterwards; after a refused command, the state it was refused in (DESIGN CHOICE, entry 27). -/
  state  : State
  deriving DecidableEq, Repr

/-- The buffers a run handed to sendDiagnostic, one for each call. -/
def PageRun.sends (r : PageRun) : List Buffer :=
  r.calls.filterMap sentBuffer

/-- The one read of a page operation (R176, R180); its length argument is free (entry 28). -/
def pageRead (code : Nat) : TransportCall :=
  .receiveDiagnostic code (Config.receiveLength code)

/-- What the transport answers to that read. -/
def receivePage (t : Transport) (code : Nat) : Option Buffer :=
  t.receiveDiagnostic code (Config.receiveLength code)

/-- A new label: a text or a string of hexadecimal digits. -/
inductive LabelInput where
  | text (chars : List Byte)
  | raw (chars : List Byte)
  deriving DecidableEq, Repr

/-- The host's actions that encode a new label (R181 (1)). -/
def labelActions : LabelInput → List HostAction
  | .text chars => presentText chars ++ [.command (encode .enctext)]
  | .raw chars  => presentText chars ++ [.command (encode .encraw)]

/-- A part of a page replaced. -/
def spliceBytes (buf : Buffer) (o : Nat) (bytes : List Byte) : Buffer :=
  buf.take o ++ bytes ++ buf.drop (o + bytes.length)

/-- The last part of both instances: send the page when the new bytes differ from the current ones, otherwise nothing
(R180). -/
def sendIfChanged (t : Transport) (code : Nat) (buf : Buffer) (o : Nat) (current new : List Byte)
    (shown : List (List Byte)) (s : State) : PageRun :=
  if new = current then { result := .unchanged, shown := shown, calls := [pageRead code], state := s }
  else
    let page := spliceBytes buf o new
    { result := if t.sendDiagnostic page then .written else .failed .transportError
      shown := shown, calls := [pageRead code, .sendDiagnostic page], state := s }

/-- An end of a page operation after its read, with nothing shown and nothing sent. -/
def endAfterRead (code : Nat) (result : PageResult) (s : State) : PageRun :=
  { result := result, shown := [], calls := [pageRead code], state := s }

/-- The label instance from its read on (R181 (2) to (4)): the label is at page offsets 12 to 35 (R45). -/
def labelExchange (new : Option (List Byte)) (t : Transport) (s : State) : PageRun :=
  match receivePage t 0x87 with
  | none => endAfterRead 0x87 (.failed .transportError) s
  | some buf =>
    if diagnosticPageValid buf 0x87 32 = false then endAfterRead 0x87 (.failed .malformedPage) s
    else
      let current := (buf.drop 12).take 24
      if current.length ≠ 24 then endAfterRead 0x87 .refused s
      else
        let run := runActions (putBytes .lbl 0 current ++ [.command (encode .decrender)]) s
        match run.refused, new with
        | some _, _    => endAfterRead 0x87 .refused run.state
        | none, none   => { result := .shown, shown := run.state.lines, calls := [pageRead 0x87], state := run.state }
        | none, some n => sendIfChanged t 0x87 buf 12 current n run.state.lines run.state

/-- The label instance (R181): a new label is encoded before the first exchange, and an encoding error ends the whole
operation there (R185), as a refused command does (R234; entry 27). -/
def labelPageOperation (new : Option LabelInput) (t : Transport) (s : State) : PageRun :=
  match new with
  | none => labelExchange none t s
  | some l =>
    let run := runActions (labelActions l) s
    match run.refused with
    | some _ => { result := .refused, shown := [], calls := [], state := run.state }
    | none =>
      if run.state.status = OutcomeKind.code .ok then labelExchange (some (run.state.bytes .lbl 24)) t run.state
      else { result := .blockError run.state.status, shown := [], calls := [], state := run.state }

/-- What statSpace answers (R177). -/
inductive StatReply where
  | measured (freeBytes totalBytes : BitVec 64)
  /-- The reserved path: render the cleared state. -/
  | noMeasurement
  | notFound
  | ioError
  deriving DecidableEq, Repr

/-- The operands the host presents for a reply: no measurement is TOTAL = 0 (R177). -/
def statActions (kbf : BitVec 16) : StatReply → Option (List HostAction)
  | .measured f t  => some [.setFree f, .setTotal t, .setKbf kbf]
  | .noMeasurement => some [.setTotal 0#64]
  | .notFound      => none
  | .ioError       => none

/-- FSRENDER with the operands presented, and what the host then does with the payload (R182 (3), (4)): after DisplayOverflow
nothing is sent (R186), and nothing after a refused command (R234; entry 27). -/
def freeSpaceRender (operands : List HostAction) (t : Transport) (buf : Buffer) (current : List Byte) (s : State) :
    PageRun :=
  let run := runActions (operands ++ [.command (encode .fsrender)]) s
  match run.refused with
  | some _ => endAfterRead 0x86 .refused run.state
  | none =>
    if run.state.status = OutcomeKind.code .displayOverflow then
      endAfterRead 0x86 (.blockError run.state.status) run.state
    else
      sendIfChanged t 0x86 buf 4 current (run.state.bytes .fsp 16)
        (if run.state.status = OutcomeKind.code .cleared then [clearedMarker] else []) run.state

/-- The free-space instance (R182): the payload is at page offsets 4 to 19 (R45, D15) and is copied to FSP whatever
follows. -/
def freeSpacePageOperation (new : Option StatReply) (kbf : BitVec 16) (t : Transport) (s : State) : PageRun :=
  match receivePage t 0x86 with
  | none => endAfterRead 0x86 (.failed .transportError) s
  | some buf =>
    if diagnosticPageValid buf 0x86 16 = false then endAfterRead 0x86 (.failed .malformedPage) s
    else
      let current := (buf.drop 4).take 16
      if current.length ≠ 16 then endAfterRead 0x86 .refused s
      else
        let loaded := (runActions (putBytes .fsp 0 current) s).state
        match new with
        | none => endAfterRead 0x86 .shown loaded
        | some reply =>
          match statActions kbf reply with
          | none          => endAfterRead 0x86 .statFailed loaded
          | some operands => freeSpaceRender operands t buf current loaded

end Sys2Proof.Machine
end

