-- ==== Sys2Proof/Safety.lean ====
section
/-! DEFINITION. The terms in which claims speak of good states and good runs: the invariant every step keeps, what an
operation may read and write (10_state.md R16), the operand bands to which the spec gives no result
(70_reset_and_hazards.md R234), and the stamps of a rendering (42_label_render.md R133). -/

namespace Sys2Proof.Machine

/-! ### The invariant -/

/-- STATUS holds a code of R200; other codes are never produced (30_encoding.md R83 (e)). -/
def State.statusLegal (s : State) : Bool :=
  OutcomeKind.all.any fun o => o.code == s.status

/-- The invariant: the four spaces are in canonical form and STATUS holds a code of R200. -/
def State.inv (s : State) : Bool :=
  s.memoryWf && s.statusLegal

/-! ### Operands outside the refused bands -/

/-- The operands are outside the refused bands of R234: ENCRAW with 13 to 24 groups, FSRENDER with TOTAL > 0 and
FREE > TOTAL or KBF = 0. -/
def hasResult (i : Instr) (s : State) : Bool :=
  match i with
  | .charmask _ => true
  | .seggeom _  => true
  | .enctext    => true
  | .encraw     => !(decide (s.tlen.toNat ≤ 96) && decide (s.tlen.toNat % 4 = 0) && decide (s.tlen.toNat / 4 > 12))
  | .decrender  => true
  | .fsrender   => decide (s.totalCount = 0) || (decide (s.unitFactor ≠ 0) && decide (s.freeCount ≤ s.totalCount))

/-- The operation is executed: it ends with an outcome in a next state. -/
def Completes (i : Instr) (s : State) : Prop :=
  ∃ t, exec i s = .next t

/-- The operands of FSRENDER choose the populated state and satisfy its preconditions (R141, R144). -/
def Populated (s : State) : Prop :=
  0 < s.total.toNat ∧ 0 < s.kbf.toNat ∧ s.free.toNat ≤ s.total.toNat

/-! ### What an operation leaves unchanged -/

/-- The operand registers are unchanged (R13). -/
def OperandRegsKept (s t : State) : Prop :=
  t.free = s.free ∧ t.total = s.total ∧ t.kbf = s.kbf ∧ t.tlen = s.tlen

/-- The result registers are unchanged (R14). -/
def ResultRegsKept (s t : State) : Prop :=
  t.res = s.res ∧ t.geo = s.geo ∧ t.llen = s.llen

/-- The host's lists and the count of reset events are unchanged. -/
def HostKept (s t : State) : Prop :=
  t.pending = s.pending ∧ t.received = s.received ∧ t.resets = s.resets

/-- Every byte of a space is unchanged. -/
def SpaceKept (sp : Space) (s t : State) : Prop :=
  ∀ o, t.readByte sp o = s.readByte sp o

/-- Everything but STATUS, RES, GEO, LLEN and the bytes of one space is unchanged. -/
def OnlySpaceWritten (sp : Space) (s t : State) : Prop :=
  OperandRegsKept s t ∧ HostKept s t ∧ ∀ sp', sp' ≠ sp → SpaceKept sp' s t

/-- The bits of the free-space payload that FSRENDER owns (30_encoding.md R64). -/
def fspOwned (o b : Nat) : Bool :=
  (o == 4 && b == 7) || (o == 6 && decide (b < 8)) || (o == 7 && (b == 6 || b == 7)) ||
    (o == 10 && (b == 1 || b == 2 || b == 4)) || (o == 11 && b == 1) ||
    ((o == 12 || o == 13 || o == 14) && (decide (b < 4) || b == 7))

/-- One byte of a space is written with b; every other byte, every register and the host's lists are unchanged. -/
def ByteStored (sp : Space) (o : Nat) (b : Byte) (s t : State) : Prop :=
  (∀ sp' o', t.readByte sp' o' = if sp' = sp ∧ o' = o then b else s.readByte sp' o') ∧
  OperandRegsKept s t ∧ ResultRegsKept s t ∧ HostKept s t ∧ t.status = s.status

/-! ### What an operation reads and what it gives (R11, R16) -/

/-- Two states agree on the operands an operation reads. -/
def ReadsAgree (i : Instr) (s1 s2 : State) : Prop :=
  match i with
  | .charmask _ => True
  | .seggeom _  => True
  | .enctext    => s1.tlen = s2.tlen ∧ ∀ o, o < s1.tlen.toNat → s1.readByte .txt o = s2.readByte .txt o
  | .encraw     => s1.tlen = s2.tlen ∧ ∀ o, o < s1.tlen.toNat → s1.readByte .txt o = s2.readByte .txt o
  | .decrender  => ∀ o, o < 24 → s1.readByte .lbl o = s2.readByte .lbl o
  | .fsrender   =>
    s1.free = s2.free ∧ s1.total = s2.total ∧ s1.kbf = s2.kbf ∧ ∀ o, o < 16 → s1.readByte .fsp o = s2.readByte .fsp o

/-- Two states agree on the results of an operation: the outcome, and what it stores when it succeeds (FSRENDER stores
also when it overflows, R156). Grid columns from LLEN on are no result (U13). -/
def ResultsAgree (i : Instr) (t1 t2 : State) : Prop :=
  t1.status = t2.status ∧
    match i with
    | .charmask _ => t1.status = 0x00#8 → t1.res = t2.res
    | .seggeom _  => t1.status = 0x00#8 → t1.geo = t2.geo
    | .enctext    => t1.status = 0x00#8 → ∀ o, o < 24 → t1.readByte .lbl o = t2.readByte .lbl o
    | .encraw     => t1.status = 0x00#8 → ∀ o, o < 24 → t1.readByte .lbl o = t2.readByte .lbl o
    | .decrender  => t1.llen = t2.llen ∧ ∀ r, r < 5 → t1.line r = t2.line r
    | .fsrender   => ∀ o, o < 16 → t1.readByte .fsp o = t2.readByte .fsp o

/-! ### Characters, masks and slots -/

/-- The code of character i of TXT. -/
def State.charCode (s : State) (i : Nat) : Nat :=
  (s.readByte .txt i).toNat

/-- The supported character codes (R60). -/
def Supported (c : Nat) : Prop :=
  0x20 ≤ c ∧ c ≤ 0x7E

/-- The block's mask of a supported character code (R20). -/
def maskOf (c : Nat) : Mask :=
  Config.glyph (Fin.ofNat 95 (c - 0x20))

/-- The two bytes of label slot i hold v, the more significant byte first (R41, R61). -/
def SlotHolds (t : State) (i v : Nat) : Prop :=
  (t.readByte .lbl (2 * i)).toNat = v / 256 ∧ (t.readByte .lbl (2 * i + 1)).toNat = v % 256

/-- The characters that are hexadecimal digits: 0 to 9, A to F, a to f (R63). -/
def HexCharacter (c : Byte) : Prop :=
  (0x30 ≤ c.toNat ∧ c.toNat ≤ 0x39) ∨ (0x41 ≤ c.toNat ∧ c.toNat ≤ 0x46) ∨ (0x61 ≤ c.toNat ∧ c.toNat ≤ 0x66)

/-- The uppercase hexadecimal digit of d (R63, R123). -/
def upperHexDigit (d : Nat) : Byte :=
  BitVec.ofNat 8 (if d < 10 then 0x30 + d else 0x41 + (d - 10))

/-- Group k of TXT spells v in four uppercase hexadecimal digits (R123). -/
def GroupSpells (s : State) (k v : Nat) : Prop :=
  s.readByte .txt (4 * k) = upperHexDigit (v / 4096 % 16) ∧
  s.readByte .txt (4 * k + 1) = upperHexDigit (v / 256 % 16) ∧
  s.readByte .txt (4 * k + 2) = upperHexDigit (v / 16 % 16) ∧
  s.readByte .txt (4 * k + 3) = upperHexDigit (v % 16)

/-- A group of four hexadecimal digits whose value fits a mask (R120). -/
def GroupFits (s : State) (k v : Nat) : Prop :=
  RawGroup.value (s.rawGroup k) = some v ∧ v ≤ 0x3FFF

/-! ### Stamps (R132, R133) -/

/-- Segment b of slot i writes the character c at row r, column x. -/
def Stamps (geom : GeomTable) (value : Nat → Word) (i : Nat) (b : Fin 14) (r x : Nat) (c : Byte) : Prop :=
  i < 12 ∧ (value i).getLsbD b.val = true ∧ (geom b).row.val = r ∧
    ∃ k, x = 6 * i + (geom b).col.val + k ∧ (Fragment.chars (geom b).frag)[k]? = some c

/-- A rendering of slot values, as far as column width of each row: 0x20 where nothing is stamped, otherwise the
character of the last stamp, slots in ascending order and bits in ascending order (R133 to R135). -/
def Renders (geom : GeomTable) (value : Nat → Word) (width : Nat) (t : State) : Prop :=
  ∀ r x, r < 5 → x < width →
    ((∀ i b c, ¬ Stamps geom value i b r x c) → t.gridByte r x = 0x20#8) ∧
    (∀ i b c, Stamps geom value i b r x c →
      (∀ i' b' c', Stamps geom value i' b' r x c' → i' < i ∨ (i' = i ∧ b'.val ≤ b.val)) → t.gridByte r x = c)

/-- The terminator column of slot values: 0 when all are blank, otherwise 6 * last + 5 (R136). -/
def TerminatesAt (value : Nat → Word) (l : Nat) : Prop :=
  ((∀ i, i < 12 → value i = 0#16) → l = 0) ∧
  (∀ last, last < 12 → value last ≠ 0#16 → (∀ i, last < i → i < 12 → value i = 0#16) → l = 6 * last + 5)

/-! ### The free-space display -/

/-- D, the divisor of the displayed value (R148). -/
def divisorOf (F K : Nat) : Nat :=
  if F < 1000 * K ^ 3 then K ^ 3 else K ^ 4

/-- The ten-bit bar of n segments as a number (R65). -/
def barNumber (n : Nat) : Nat :=
  (2 ^ n - 1) * 2 ^ (10 - n)

/-- FSP holds the bar of n segments and BAREN is set; the other bits of FSP+7 are those of s (R146). -/
def BarShown (s t : State) (n : Nat) : Prop :=
  (t.readByte .fsp 6).toNat = barNumber n / 4 ∧
  (t.readByte .fsp 7).toNat = barNumber n % 4 * 64 + (s.readByte .fsp 7).toNat % 64 ∧
  t.getBit .fsp 4 7 = true

/-- The digit position at offset o is written with d (R66, R152). -/
def DigitShown (t : State) (o d : Nat) : Prop :=
  t.readByte .fsp o &&& 0x8F#8 = BitVec.ofNat 8 (0x80 + d)

/-- The digit position at offset o is blank: neither lit nor a digit (R66). -/
def DigitBlank (t : State) (o : Nat) : Prop :=
  t.readByte .fsp o &&& 0x8F#8 = 0#8

/-! ### Page operations (44_host_page_operations.md) -/

/-- Group k of a raw string: its characters 4k to 4k+3 (R63). -/
def charGroup (chars : List Byte) (k : Nat) : RawGroup where
  c0 := chars.getD (4 * k) 0#8
  c1 := chars.getD (4 * k + 1) 0#8
  c2 := chars.getD (4 * k + 2) 0#8
  c3 := chars.getD (4 * k + 3) 0#8

/-- A group of a raw string is four hexadecimal digits whose value v fits a mask (R120). -/
def CharGroupFits (chars : List Byte) (k v : Nat) : Prop :=
  RawGroup.value (charGroup chars k) = some v ∧ v ≤ 0x3FFF

/-- A new label has an encoding, and v gives its twelve slot values (R110, R113, R116, R121). -/
def Encodes : LabelInput → (Nat → Nat) → Prop
  | .text chars, v =>
    chars.length ≤ 12 ∧ (∀ c ∈ chars, Supported c.toNat) ∧
      ∀ i, v i = if i < chars.length then (maskOf (chars.getD i 0#8).toNat).toNat else 0
  | .raw chars, v =>
    chars.length ≤ 48 ∧ chars.length % 4 = 0 ∧ (∀ k, k < chars.length / 4 → CharGroupFits chars k (v k)) ∧
      ∀ k, chars.length / 4 ≤ k → v k = 0

/-- Slot i of the label on a page buffer holds v, big-endian (R45, R61). -/
def PageSlotHolds (buf : Buffer) (i v : Nat) : Prop :=
  ∃ hi lo : Byte, buf[12 + 2 * i]? = some hi ∧ buf[12 + 2 * i + 1]? = some lo ∧
    hi.toNat = v / 256 ∧ lo.toNat = v % 256

/-- The page's twelve slots hold the values v. -/
def PageLabelHolds (buf : Buffer) (v : Nat → Nat) : Prop :=
  ∀ i, i < 12 → PageSlotHolds buf i (v i)

/-- The payload of a 0x86 page buffer is what FSP of a state holds (R45). -/
def PagePayloadHolds (buf : Buffer) (u : State) : Prop :=
  ∀ o, o < 16 → buf[4 + o]? = some (u.readByte .fsp o)

/-- A state holds the operands of FSRENDER that a reply of statSpace gives; no measurement is TOTAL = 0 (R177, R182). -/
def MeasurementPresented (kbf : BitVec 16) (u : State) : StatReply → Prop
  | .measured f total => u.free = f ∧ u.total = total ∧ u.kbf = kbf
  | .noMeasurement    => u.total = 0#64
  | .notFound         => False
  | .ioError          => False

/-- A page operation ends with an error of the block before any call of the transport (R185). -/
def EndsBeforeExchange (r : PageRun) (code : BitVec 8) : Prop :=
  r.result = .blockError code ∧ r.calls = []

end Sys2Proof.Machine
end

