-- ==== Sys2Proof/Certificates/Slice0/Obligations.lean ====
section
/-! DEFINITION. The statements for the provers, from the numbered rules of spec/. Each docstring names the rules it rests on,
and the log entry where a clause is the model's own choice. -/

open Sys2Proof Sys2Proof.Machine

/-! ### Command words (30_encoding.md R80 to R84) -/

/-- Every operation's command is legal and decodes to the operation, with every operand value (R80, R81). -/
def Obligations.DecodeOfEncode : Prop :=
  ∀ i : Instr, i.wellFormed = true ∧ decode (encode i) = .ok i

/-- A legal word is the encoding of what it decodes to: no bit of a word is dropped (R81, R84). -/
def Obligations.EncodeOfDecode : Prop :=
  ∀ (w : Word) (i : Instr), decode w = .ok i → encode i = w

/-- The mask and match table of R81 and the field checks of R80 and R82 accept the same words. -/
def Obligations.DecodeAcceptsWellFormedWords : Prop :=
  ∀ w : Word, (∃ i, decode w = .ok i) ↔ (Cmd16.ofWord w).wellFormed = true

/-- No word matches two rows of the opcode map (R81). -/
def Obligations.OpcodeRowsDisjoint : Prop :=
  ∀ w : Word, opcodeRows.Pairwise fun r q => ¬ (r.isMatch w = true ∧ q.isMatch w = true)

/-- Words written out from R81, as 95_test_vectors.md 3.1 lists them. -/
def Obligations.WrittenWordsDecode : Prop :=
  decode 0b0001000001000001#16 = .ok (.charmask 0x41#8) ∧ decode 0b0010000000001101#16 = .ok (.seggeom 13#4) ∧
  decode 0b0011000000000000#16 = .ok .enctext ∧ decode 0b0100000000000000#16 = .ok .encraw ∧
  decode 0b0101000000000000#16 = .ok .decrender ∧ decode 0b0110000000000000#16 = .ok .fsrender

/-- R82: which words are illegal, what issuing one does, and that SEGGEOM 14 and 15 are legal words that raise
BadOperand. -/
def Obligations.IllegalWordWritesStatusOnly : Prop :=
  ∀ (w : Word) (s : State),
    let op := (w.extractLsb' 12 4).toNat
    let z := (w.extractLsb' 8 4).toNat
    let arg := (w.extractLsb' 0 8).toNat
    let illegal := op = 0 ∨ 7 ≤ op ∨ z ≠ 0 ∨ (3 ≤ op ∧ op ≤ 6 ∧ arg ≠ 0) ∨ (op = 2 ∧ 16 ≤ arg)
    (illegal → issueCommand w s = .next { s with status := 0x30#8 }) ∧
    (¬ illegal → ∃ i, decode w = .ok i) ∧
    (∀ b : BitVec 4, 14 ≤ b.toNat → issueCommand (0x200#12 ++ b) s = .next { s with status := 0x31#8 })

/-! ### The step (10_state.md R10, R12) -/

/-- A step runs the decoded operation: the command is taken off the host's list (the model's form of the host, entry 1)
and the operation acts on the state that is left; a word that does not decode writes STATUS alone. -/
def Obligations.StepRunsDecodedInstruction : Prop :=
  ∀ (s : State) (w : Word) (rest : List HostAction), s.pending = .command w :: rest →
    (∀ i, decode w = .ok i → step s = exec i { s with pending := rest }) ∧
    (∀ e, decode w = .error e → step s = .next { s with pending := rest, status := 0x30#8 })

/-- With nothing to do the block is idle and holds its state (R212; the idle step is the model's choice, entry 7). -/
def Obligations.StepIdleHoldsState : Prop :=
  ∀ s : State, s.pending = [] → step s = .next s

/-- Every step keeps the four spaces in canonical form and STATUS among the codes of R200. -/
def Obligations.StepKeepsInvariant : Prop :=
  ∀ s t : State, s.inv = true → step s = .next t → t.inv = true

/-- The invariant holds right after reset (R30; the bytes and registers R30 leaves open are the model's choice, entries 2
and 3). -/
def Obligations.ResetHasInvariant : Prop :=
  State.reset.inv = true

/-- After reset STATUS is 0x00 (R30, R230). -/
def Obligations.ResetStatusIsZero : Prop :=
  State.reset.status = 0x00#8 ∧ ∀ s : State, ∃ t, hostAct .reset s = .next t ∧ t.status = 0x00#8 ∧
    t.pending = s.pending ∧ t.received = s.received

/-! ### Every operation (10_state.md R11, R13 to R16, 60_exceptions.md R200 to R206) -/

/-- Outside the refused bands of R234 every operation completes, and inside them it is refused. -/
def Obligations.CompletesExactlyOutsideBands : Prop :=
  ∀ (i : Instr) (s : State),
    (hasResult i s = true → Completes i s) ∧ (hasResult i s = false → ∃ r, exec i s = .refused r)

/-- The write columns of R16: no operation writes an operand register, TXT or the host's lists, and each result register
and space is written by its own operations alone. -/
def Obligations.ExecWritesOnlyItsResults : Prop :=
  ∀ (i : Instr) (s t : State), exec i s = .next t →
    OperandRegsKept s t ∧ HostKept s t ∧ SpaceKept .txt s t ∧
    ((∀ c, i ≠ .charmask c) → t.res = s.res) ∧
    ((∀ b, i ≠ .seggeom b) → t.geo = s.geo) ∧
    (i ≠ .enctext → i ≠ .encraw → SpaceKept .lbl s t) ∧
    (i ≠ .decrender → t.llen = s.llen ∧ SpaceKept .grid s t) ∧
    (i ≠ .fsrender → SpaceKept .fsp s t)

/-- The read columns of R16 and R11: an operation's outcome and results depend on its declared operands alone. -/
def Obligations.ExecReadsOnlyItsOperands : Prop :=
  ∀ (i : Instr) (s1 s2 : State), ReadsAgree i s1 s2 →
    (∀ t1, exec i s1 = .next t1 → ∃ t2, exec i s2 = .next t2 ∧ ResultsAgree i t1 t2) ∧
    (∀ r, exec i s1 = .refused r → exec i s2 = .refused r)

/-- R206 and R115: an error outcome other than DisplayOverflow leaves everything but STATUS as it was. -/
def Obligations.ErrorsChangeStatusOnly : Prop :=
  ∀ (i : Instr) (s t : State), exec i s = .next t →
    t.status ∈ [0x10#8, 0x11#8, 0x12#8, 0x13#8, 0x14#8, 0x31#8] → t = { s with status := t.status }

/-- R200: the outcomes each operation can raise. -/
def Obligations.OutcomesByOperation : Prop :=
  ∀ (i : Instr) (s t : State), exec i s = .next t →
    match i with
    | .charmask _ => t.status ∈ [0x00#8, 0x10#8]
    | .seggeom _  => t.status ∈ [0x00#8, 0x31#8]
    | .enctext    => t.status ∈ [0x00#8, 0x10#8, 0x11#8]
    | .encraw     => t.status ∈ [0x00#8, 0x11#8, 0x12#8, 0x13#8, 0x14#8]
    | .decrender  => t.status = 0x00#8
    | .fsrender   => t.status ∈ [0x00#8, 0x01#8, 0x20#8]

/-! ### The bit primitive (20_memory.md R46, R47) -/

/-- R47: SetBit sets or clears exactly one bit and leaves every other bit of every byte. -/
def Obligations.SetBitChangesOneBit : Prop :=
  ∀ (s : State) (sp : Space) (o b : Nat) (v : Bool), b < 8 →
    ∀ (sp' : Space) (o' k : Nat),
      (s.setBit sp o b v).getBit sp' o' k = if sp' = sp ∧ o' = o ∧ k = b then v else s.getBit sp' o' k

/-! ### CHARMASK and SEGGEOM (40_glyph_lookup.md) -/

/-- R100: CHARMASK on a supported code and on any other code, and its command word. -/
def Obligations.CharmaskLooksUpMask : Prop :=
  ∀ (c : Byte) (s : State),
    decode (0b00010000#8 ++ c) = .ok (.charmask c) ∧
    (0x20 ≤ c.toNat → c.toNat ≤ 0x7E →
      exec (.charmask c) s =
        .next { s with res := (Config.glyph (Fin.ofNat 95 (c.toNat - 0x20))).setWidth 16, status := 0x00#8 } ∧
      ((Config.glyph (Fin.ofNat 95 (c.toNat - 0x20))).setWidth 16).toNat ≤ 0x3FFF) ∧
    (c.toNat < 0x20 ∨ 0x7E < c.toNat → exec (.charmask c) s = .next { s with status := 0x10#8 })

/-- R101: a lowercase letter gives what its uppercase letter gives, '(' what '<' gives, '5' and 's' what 'S' gives. -/
def Obligations.CharmaskSharedMasks : Prop :=
  (∀ (j : Nat) (s : State), j < 26 →
    exec (.charmask (BitVec.ofNat 8 (0x61 + j))) s = exec (.charmask (BitVec.ofNat 8 (0x41 + j))) s) ∧
  (∀ s : State, exec (.charmask 0x28#8) s = exec (.charmask 0x3C#8) s) ∧
  (∀ s : State, exec (.charmask 0x35#8) s = exec (.charmask 0x53#8) s ∧
    exec (.charmask 0x73#8) s = exec (.charmask 0x53#8) s)

/-- R103, R104: SEGGEOM on a segment bit, on 14 and on 15, and its command word. -/
def Obligations.SeggeomReadsEntry : Prop :=
  ∀ (b : BitVec 4) (s : State),
    decode (0b001000000000#12 ++ b) = .ok (.seggeom b) ∧
    (∀ h : b.toNat < 14,
      exec (.seggeom b) s = .next { s with geo := packGeom (Config.geom ⟨b.toNat, h⟩), status := 0x00#8 }) ∧
    (14 ≤ b.toNat → exec (.seggeom b) s = .next { s with status := 0x31#8 })

/-- R70: the fields of GEO after SEGGEOM and their ranges. That fragment characters lie in 0x20 to 0x7E is R27 with the spec's
own decision D35 (entry 5). -/
def Obligations.GeoFields : Prop :=
  ∀ (b : BitVec 4) (s : State) (h : b.toNat < 14), ∃ t, exec (.seggeom b) s = .next t ∧
    let g := Config.geom ⟨b.toNat, h⟩
    let cs := Fragment.chars g.frag
    t.geo.extractLsb' 0 3 = BitVec.ofNat 3 g.row.val ∧ t.geo.extractLsb' 3 3 = BitVec.ofNat 3 g.col.val ∧
    (t.geo.extractLsb' 6 2).toNat = cs.length ∧
    cs[0]? = some (t.geo.extractLsb' 8 8) ∧
    t.geo.extractLsb' 16 8 = (cs[1]?).getD 0x00#8 ∧ t.geo.extractLsb' 24 8 = (cs[2]?).getD 0x00#8 ∧
    1 ≤ cs.length ∧ cs.length ≤ 3 ∧ g.row.val ≤ 4 ∧ g.col.val ≤ 4 ∧
    ∀ c ∈ cs, 0x20 ≤ c.toNat ∧ c.toNat ≤ 0x7E

/-! ### ENCTEXT and ENCRAW (41_label_encode.md) -/

/-- R110, R113, R114: a text of at most twelve supported characters fills the slots from the left, blanks follow, and
nothing but LBL and STATUS changes. -/
def Obligations.EnctextStoresMasks : Prop :=
  ∀ s : State, s.tlen.toNat ≤ 12 → (∀ i, i < s.tlen.toNat → Supported (s.charCode i)) →
    ∃ t, exec .enctext s = .next t ∧ t.status = 0x00#8 ∧
      (∀ i, i < 12 → SlotHolds t i (if i < s.tlen.toNat then (maskOf (s.charCode i)).toNat else 0)) ∧
      (∀ o, 24 ≤ o → t.readByte .lbl o = s.readByte .lbl o) ∧
      OnlySpaceWritten .lbl s t ∧ ResultRegsKept s t

/-- R111: more than twelve characters are TooLong, whatever they are, and nothing else changes. That the length is checked
before the characters is the spec's own reading (D7, entry 13). -/
def Obligations.EnctextTooLong : Prop :=
  ∀ s : State, 12 < s.tlen.toNat → exec .enctext s = .next { s with status := 0x11#8 }

/-- R110, R112: an unsupported character anywhere in a text of at most twelve ends in UnsupportedChar. -/
def Obligations.EnctextUnsupportedChar : Prop :=
  ∀ (s : State) (i : Nat), s.tlen.toNat ≤ 12 → i < s.tlen.toNat → ¬ Supported (s.charCode i) →
    exec .enctext s = .next { s with status := 0x10#8 }

/-- R63: the hexadecimal digits, the value of a group of four of them, and that a group with any other character has
none. -/
def Obligations.HexGroupValue : Prop :=
  (∀ (c : Byte) (d : Nat), hexDigit c = some d ↔
    (d ≤ 9 ∧ c.toNat = 0x30 + d) ∨
    (10 ≤ d ∧ d ≤ 15 ∧ (c.toNat = 0x41 + (d - 10) ∨ c.toNat = 0x61 + (d - 10)))) ∧
  (∀ (s : State) (k d0 d1 d2 d3 : Nat),
    hexDigit (s.readByte .txt (4 * k)) = some d0 → hexDigit (s.readByte .txt (4 * k + 1)) = some d1 →
    hexDigit (s.readByte .txt (4 * k + 2)) = some d2 → hexDigit (s.readByte .txt (4 * k + 3)) = some d3 →
    RawGroup.value (s.rawGroup k) = some (d0 * 4096 + d1 * 256 + d2 * 16 + d3)) ∧
  (∀ (s : State) (k : Nat),
    RawGroup.value (s.rawGroup k) = none ↔ ∃ j, j < 4 ∧ ¬ HexCharacter (s.readByte .txt (4 * k + j)))

/-- R116, R121: up to twelve groups within range fill the slots from the left, blanks follow, and nothing but LBL and
STATUS changes. -/
def Obligations.EncrawStoresGroups : Prop :=
  ∀ (s : State) (v : Nat → Nat), s.tlen.toNat ≤ 48 → s.tlen.toNat % 4 = 0 →
    (∀ k, k < s.tlen.toNat / 4 → GroupFits s k (v k)) →
    ∃ t, exec .encraw s = .next t ∧ t.status = 0x00#8 ∧
      (∀ k, k < 12 → SlotHolds t k (if k < s.tlen.toNat / 4 then v k else 0)) ∧
      (∀ o, 24 ≤ o → t.readByte .lbl o = s.readByte .lbl o) ∧
      OnlySpaceWritten .lbl s t ∧ ResultRegsKept s t

/-- R117: TooLong exactly when TLEN is above 96. -/
def Obligations.EncrawTooLong : Prop :=
  ∀ s : State,
    (96 < s.tlen.toNat → exec .encraw s = .next { s with status := 0x11#8 }) ∧
    (s.tlen.toNat ≤ 96 → ∀ t, exec .encraw s = .next t → t.status ≠ 0x11#8)

/-- R118: BadLength exactly when TLEN is at most 96 and no multiple of four. -/
def Obligations.EncrawBadLength : Prop :=
  ∀ s : State,
    (s.tlen.toNat ≤ 96 → s.tlen.toNat % 4 ≠ 0 → exec .encraw s = .next { s with status := 0x12#8 }) ∧
    (96 < s.tlen.toNat ∨ s.tlen.toNat % 4 = 0 → ∀ t, exec .encraw s = .next t → t.status ≠ 0x12#8)

/-- R120, R122: the first group that does not fit decides: NotHex when a character is no digit, OutOfRange when its value
is above 0x3FFF. -/
def Obligations.EncrawFirstBadGroupDecides : Prop :=
  ∀ (s : State) (k : Nat), s.tlen.toNat ≤ 48 → s.tlen.toNat % 4 = 0 → k < s.tlen.toNat / 4 →
    (∀ j, j < k → ∃ v, GroupFits s j v) →
    ((∃ j, j < 4 ∧ ¬ HexCharacter (s.readByte .txt (4 * k + j))) →
      exec .encraw s = .next { s with status := 0x13#8 }) ∧
    (∀ v, RawGroup.value (s.rawGroup k) = some v → 0x3FFF < v → exec .encraw s = .next { s with status := 0x14#8 })

/-- R119: ENCRAW is refused exactly for 13 to 24 groups. -/
def Obligations.EncrawBandRefused : Prop :=
  ∀ (s : State) (r : Refusal), exec .encraw s = .refused r ↔
    (52 ≤ s.tlen.toNat ∧ s.tlen.toNat ≤ 96 ∧ s.tlen.toNat % 4 = 0) ∧ r = .rawGroupsBeyondLabel

/-- R123: ENCTEXT of a text and ENCRAW of the hexadecimal spelling of its masks write the same label. -/
def Obligations.EncodersAgree : Prop :=
  ∀ s1 s2 : State, s1.tlen.toNat ≤ 12 → (∀ i, i < s1.tlen.toNat → Supported (s1.charCode i)) →
    s2.tlen.toNat = 4 * s1.tlen.toNat →
    (∀ i, i < s1.tlen.toNat → GroupSpells s2 i (maskOf (s1.charCode i)).toNat) →
    ∃ t1 t2, exec .enctext s1 = .next t1 ∧ exec .encraw s2 = .next t2 ∧ t1.status = 0x00#8 ∧ t2.status = 0x00#8 ∧
      ∀ o, o < 24 → t1.readByte .lbl o = t2.readByte .lbl o

/-! ### DECRENDER (42_label_render.md) -/

/-- R136: LLEN and the five equal line lengths. R130, R16: DECRENDER never fails and writes nothing but GRID, LLEN and STATUS.
That nothing is stored past GRID's 365 bytes is said of states in canonical form, and rests on the model's choices of
entries 3 and 16. -/
def Obligations.DecrenderTerminator : Prop :=
  ∀ s : State, ∃ t, exec .decrender s = .next t ∧ t.status = 0x00#8 ∧
    TerminatesAt s.slot t.llen.toNat ∧ (∀ r, r < 5 → (t.line r).length = t.llen.toNat) ∧
    OnlySpaceWritten .grid s t ∧ (s.memoryWf = true → ∀ o, 365 ≤ o → t.readByte .grid o = s.readByte .grid o) ∧
    t.res = s.res ∧ t.geo = s.geo

/-- R130 to R135: every character of the five lines is that of the last stamp at its place, or 0x20. -/
def Obligations.DecrenderShowsLastStamp : Prop :=
  ∀ s : State, ∃ t, exec .decrender s = .next t ∧ Renders Config.geom s.slot t.llen.toNat t

/-- DECRENDER on its own result gives the same outcome and the same lines (95_test_vectors.md 3.5; the bytes of GRID from
column LLEN on are no result, entry 21). -/
def Obligations.DecrenderIdempotent : Prop :=
  ∀ s t : State, exec .decrender s = .next t →
    ∃ u, exec .decrender t = .next u ∧ u.status = t.status ∧ u.llen = t.llen ∧ ∀ r, r < 5 → u.line r = t.line r

/-- R137: ENCTEXT and then DECRENDER render the masks of the text's characters themselves. The background and the order of
bits are the spec's own choices (D13, entry 14). -/
def Obligations.TextRoundTripRenders : Prop :=
  ∀ s : State, s.tlen.toNat ≤ 12 → (∀ i, i < s.tlen.toNat → Supported (s.charCode i)) →
    ∃ t u, exec .enctext s = .next t ∧ exec .decrender t = .next u ∧
      let value : Nat → Word := fun i => if i < s.tlen.toNat then (maskOf (s.charCode i)).setWidth 16 else 0#16
      TerminatesAt value u.llen.toNat ∧ Renders Config.geom value u.llen.toNat u

/-! ### FSRENDER (43_freespace_render.md) -/

/-- R143: with TOTAL = 0 the reset step and nothing else, whatever FREE and KBF are. -/
def Obligations.FsrenderCleared : Prop :=
  ∀ s : State, s.total = 0#64 → ∃ t, exec .fsrender s = .next t ∧ t.status = 0x01#8 ∧
    t.readByte .fsp 4 = s.readByte .fsp 4 &&& 0x7F#8 ∧ t.readByte .fsp 6 = 0x00#8 ∧
    t.readByte .fsp 7 = s.readByte .fsp 7 &&& 0x3F#8 ∧ t.readByte .fsp 10 = s.readByte .fsp 10 &&& 0xE9#8 ∧
    t.readByte .fsp 11 = s.readByte .fsp 11 &&& 0xFD#8 ∧
    (∀ o, 12 ≤ o → o ≤ 14 → t.readByte .fsp o = s.readByte .fsp o &&& 0x70#8) ∧
    (∀ o, o ∉ [4, 6, 7, 10, 11, 12, 13, 14] → t.readByte .fsp o = s.readByte .fsp o) ∧
    OnlySpaceWritten .fsp s t ∧ ResultRegsKept s t

/-- R144: FSRENDER is refused exactly when TOTAL > 0 and KBF = 0 or FREE > TOTAL. -/
def Obligations.FsrenderRefusals : Prop :=
  ∀ s : State, (∃ r, exec .fsrender s = .refused r) ↔
    0 < s.total.toNat ∧ (s.kbf.toNat = 0 ∨ s.total.toNat < s.free.toNat)

/-- R145: round(10 * F / T) is k exactly when (2k-1) * T <= 20 * F < (2k+1) * T, and it is at most 10. That the arithmetic is
exact is the spec's own choice (D18, entry 11). -/
def Obligations.RoundingOfBar : Prop :=
  ∀ F T k : Nat, 0 < T → F ≤ T →
    (roundedTenths F T = k ↔ 2 * k * T ≤ 20 * F + T ∧ 20 * F < (2 * k + 1) * T) ∧ roundedTenths F T ≤ 10 ∧
    segmentsUsed F T + roundedTenths F T = 10

/-- R65, R146: in the populated state, overflow or not, the bar is shown and BAREN is set. The count of segments is exact
arithmetic, the spec's own choice (D18, entry 11). -/
def Obligations.FsrenderShowsBar : Prop :=
  ∀ s : State, Populated s →
    ∃ t, exec .fsrender s = .next t ∧
      BarShown s t (10 - (20 * s.free.toNat + s.total.toNat) / (2 * s.total.toNat))

/-- R150: a value of 10 or more is shown as an integer, hundreds only from 100 up, without a decimal point. Truncation
(D19) and the place of the decimal point (D16) are the spec's own choices: entries 11 and 12. -/
def Obligations.FsrenderIntegerFormat : Prop :=
  ∀ s : State, Populated s → s.free.toNat < 1000 * s.kbf.toNat ^ 4 →
    10 * divisorOf s.free.toNat s.kbf.toNat ≤ s.free.toNat →
    ∃ t, exec .fsrender s = .next t ∧ t.status = 0x00#8 ∧
      let I := s.free.toNat / divisorOf s.free.toNat s.kbf.toNat
      I < 1000 ∧ (100 ≤ I → DigitShown t 12 (I / 100)) ∧ (I < 100 → DigitBlank t 12) ∧
      DigitShown t 13 (I / 10 % 10) ∧ DigitShown t 14 (I % 10) ∧ t.getBit .fsp 11 1 = false

/-- R151: a value below 10 is shown as X.YY, all three digits, with the decimal point. Truncation (D19) and the place of
the decimal point (D16) are the spec's own choices: entries 11 and 12. -/
def Obligations.FsrenderDecimalFormat : Prop :=
  ∀ s : State, Populated s → s.free.toNat < 1000 * s.kbf.toNat ^ 4 →
    s.free.toNat < 10 * divisorOf s.free.toNat s.kbf.toNat →
    ∃ t, exec .fsrender s = .next t ∧ t.status = 0x00#8 ∧
      let C := 100 * s.free.toNat / divisorOf s.free.toNat s.kbf.toNat
      C < 1000 ∧ DigitShown t 12 (C / 100) ∧ DigitShown t 13 (C / 10 % 10) ∧ DigitShown t 14 (C % 10) ∧
      t.getBit .fsp 11 1 = true

/-- R153: an OK outcome of the populated state sets exactly one unit indicator, TB from 1000 * K^3 up, and the "free"
indicator. -/
def Obligations.FsrenderUnitFlags : Prop :=
  ∀ s : State, Populated s → s.free.toNat < 1000 * s.kbf.toNat ^ 4 →
    ∃ t, exec .fsrender s = .next t ∧ t.status = 0x00#8 ∧
      t.getBit .fsp 10 2 = decide (1000 * s.kbf.toNat ^ 3 ≤ s.free.toNat) ∧
      t.getBit .fsp 10 1 = decide (s.free.toNat < 1000 * s.kbf.toNat ^ 3) ∧ t.getBit .fsp 10 4 = true

/-- R149, R156: from 1000 * K^4 up the outcome is DisplayOverflow: the reset step and the bar stay, and there is no digit,
no decimal point, no unit and no "free" indicator. The exact count of the bar (D18) and the place of the decimal point (D16)
are the spec's own choices: entries 11 and 12. -/
def Obligations.FsrenderOverflow : Prop :=
  ∀ s : State, Populated s → 1000 * s.kbf.toNat ^ 4 ≤ s.free.toNat →
    ∃ t, exec .fsrender s = .next t ∧ t.status = 0x20#8 ∧
      BarShown s t (10 - (20 * s.free.toNat + s.total.toNat) / (2 * s.total.toNat)) ∧
      DigitBlank t 12 ∧ DigitBlank t 13 ∧ DigitBlank t 14 ∧ t.getBit .fsp 11 1 = false ∧
      t.getBit .fsp 10 1 = false ∧ t.getBit .fsp 10 2 = false ∧ t.getBit .fsp 10 4 = false

/-- R160: FSRENDER changes no bit of FSP but those it owns, and outside FSP nothing but STATUS. -/
def Obligations.FsrenderUntouchedBits : Prop :=
  ∀ s t : State, exec .fsrender s = .next t →
    (∀ o b, fspOwned o b = false → t.getBit .fsp o b = s.getBit .fsp o b) ∧
    OnlySpaceWritten .fsp s t ∧ ResultRegsKept s t

/-- R161: FSRENDER on its own output gives the same payload and the same outcome. -/
def Obligations.FsrenderIdempotent : Prop :=
  ∀ s t : State, exec .fsrender s = .next t →
    ∃ u, exec .fsrender t = .next u ∧ u.status = t.status ∧ SpaceKept .fsp t u

/-- R161: the payload after FSRENDER depends on the payload before only through the bits it does not own. -/
def Obligations.FsrenderForgetsOwnedBits : Prop :=
  ∀ s1 s2 t1 : State, s1.free = s2.free → s1.total = s2.total → s1.kbf = s2.kbf →
    (∀ o b, fspOwned o b = false → s1.getBit .fsp o b = s2.getBit .fsp o b) →
    exec .fsrender s1 = .next t1 →
    ∃ t2, exec .fsrender s2 = .next t2 ∧ t2.status = t1.status ∧ SpaceKept .fsp t1 t2

/-! ### The host (20_memory.md R44, 10_state.md R13, R14) -/

/-- R13: SET writes one operand register and nothing else. -/
def Obligations.HostSetsOperandRegister : Prop :=
  ∀ s : State,
    (∀ v, hostAct (.setFree v) s = .next { s with free := v }) ∧
    (∀ v, hostAct (.setTotal v) s = .next { s with total := v }) ∧
    (∀ v, hostAct (.setKbf v) s = .next { s with kbf := v }) ∧
    (∀ v, hostAct (.setTlen v) s = .next { s with tlen := v })

/-- R44 with the bounds of R40 to R43: a host write to one of the 96 bytes of TXT, the 24 of LBL or the 16 of FSP stores its
byte and changes no other; outside the space, and to GRID, it is refused. -/
def Obligations.HostWriteStoresOneByte : Prop :=
  ∀ (b : Byte) (s : State),
    (∀ o, (o < 96 → ∃ t, hostAct (.put (.txt o) b) s = .next t ∧ ByteStored .txt o b s t) ∧
      (96 ≤ o → hostAct (.put (.txt o) b) s = .refused .accessOutsideSpace)) ∧
    (∀ o, (o < 24 → ∃ t, hostAct (.put (.lbl o) b) s = .next t ∧ ByteStored .lbl o b s t) ∧
      (24 ≤ o → hostAct (.put (.lbl o) b) s = .refused .accessOutsideSpace)) ∧
    (∀ o, (o < 16 → ∃ t, hostAct (.put (.fsp o) b) s = .next t ∧ ByteStored .fsp o b s t) ∧
      (16 ≤ o → hostAct (.put (.fsp o) b) s = .refused .accessOutsideSpace)) ∧
    (∀ r x, (r < 5 → x < 73 → hostAct (.put (.grid r x) b) s = .refused .hostWriteToGrid) ∧
      (5 ≤ r ∨ 73 ≤ x → hostAct (.put (.grid r x) b) s = .refused .accessOutsideSpace))

/-- R44 with the bounds of R40 to R43: a host read gives the byte at its place and changes nothing of the block (the list of
values read is the model's own, entry 17; the place of GRID[r][x] is entry 16); outside a space it is refused. -/
def Obligations.HostReadChangesNothing : Prop :=
  ∀ s : State,
    let answer : Byte → State := fun v => { s with received := s.received ++ [v.setWidth 64] }
    (∀ o, (o < 96 → hostAct (.get (.txt o)) s = .next (answer (s.readByte .txt o))) ∧
      (96 ≤ o → hostAct (.get (.txt o)) s = .refused .accessOutsideSpace)) ∧
    (∀ o, (o < 24 → hostAct (.get (.lbl o)) s = .next (answer (s.readByte .lbl o))) ∧
      (24 ≤ o → hostAct (.get (.lbl o)) s = .refused .accessOutsideSpace)) ∧
    (∀ o, (o < 16 → hostAct (.get (.fsp o)) s = .next (answer (s.readByte .fsp o))) ∧
      (16 ≤ o → hostAct (.get (.fsp o)) s = .refused .accessOutsideSpace)) ∧
    (∀ r x, (r < 5 → x < 73 → hostAct (.get (.grid r x)) s = .next (answer (s.gridByte r x))) ∧
      (5 ≤ r ∨ 73 ≤ x → hostAct (.get (.grid r x)) s = .refused .accessOutsideSpace))

/-- R14, R15, R85: GET of a register gives its value and changes nothing of the block (the list of values read is the
model's own, entry 17; that GET may name an operand register is entry 24). -/
def Obligations.HostReadsRegister : Prop :=
  ∀ s : State,
    let answer : BitVec 64 → State := fun v => { s with received := s.received ++ [v] }
    hostAct (.getReg .res) s = .next (answer (s.res.setWidth 64)) ∧
    hostAct (.getReg .geo) s = .next (answer (s.geo.setWidth 64)) ∧
    hostAct (.getReg .llen) s = .next (answer (s.llen.setWidth 64)) ∧
    hostAct (.getReg .status) s = .next (answer (s.status.setWidth 64)) ∧
    hostAct (.getReg .free) s = .next (answer s.free) ∧
    hostAct (.getReg .total) s = .next (answer s.total) ∧
    hostAct (.getReg .kbf) s = .next (answer (s.kbf.setWidth 64)) ∧
    hostAct (.getReg .tlen) s = .next (answer (s.tlen.setWidth 64))

/-- R85: the host's branch on STATUS leaves out the next n actions when STATUS = code has the truth value asked for, and
changes nothing of the block (the form of the branch is the model's choice, entry 18). -/
def Obligations.HostBranchesOnStatus : Prop :=
  ∀ (s : State) (equal : Bool) (code : Byte) (n : Nat) (rest : List HostAction),
    s.pending = .skipIf equal code n :: rest →
    ((s.status = code ↔ equal = true) → step s = .next { s with pending := rest.drop n }) ∧
    ((s.status = code ↔ equal = false) → step s = .next { s with pending := rest })

/-! ### Pages around the block (44_host_page_operations.md; the form of the host functions is the model's, entry 19) -/

/-- R174: the five conditions of validateModePage. -/
def Obligations.ModePageConditions : Prop :=
  ∀ (buf : Buffer) (code len : Nat), modePageValid buf code len = true ↔
    ∃ b0 b3 b4 b5, buf[0]? = some b0 ∧ buf[3]? = some b3 ∧ buf[4]? = some b4 ∧ buf[5]? = some b5 ∧
      b0.toNat = len + 5 ∧ b3.toNat = 0 ∧ b4.getLsbD 6 = false ∧ b4.toNat % 64 = code ∧ b5.toNat = len

/-- R175: the conditions of validateDiagnosticPage. -/
def Obligations.DiagnosticPageConditions : Prop :=
  ∀ (buf : Buffer) (code len : Nat), diagnosticPageValid buf code len = true ↔
    ∃ b0 b2 b3, buf[0]? = some b0 ∧ buf[2]? = some b2 ∧ buf[3]? = some b3 ∧
      b0.toNat = code ∧ b2.toNat * 256 + b3.toNat = len

/-- R178, R179: a flag that already has the target value is not written; otherwise exactly one buffer is written, with PS
cleared, the flag set to the target and every other bit as read. -/
def Obligations.FlagWrittenOnlyWhenDifferent : Prop :=
  ∀ (p : FlagPage) (want cur : Bool) (t : Transport) (buf : Buffer),
    t.modeSense p.code = some buf →
    modePageValid buf p.code p.payloadLen = true → bufferGetBit buf (flagPosition p) p.flagBit = some cur →
    (want = cur → modePageFlagOperation p (some want) t = { result := .already, calls := [.modeSense p.code] }) ∧
    (want ≠ cur → ∃ b, modePageFlagOperation p (some want) t =
        { result := if t.modeSelect b then .written else .failed .transportError
          calls := [.modeSense p.code, .modeSelect b] } ∧
      b.length = buf.length ∧ bufferGetBit b 4 7 = some false ∧
      bufferGetBit b (flagPosition p) p.flagBit = some want ∧
      ∀ o k, (o ≠ 4 ∨ k ≠ 7) → (o ≠ flagPosition p ∨ k ≠ p.flagBit) → bufferGetBit b o k = bufferGetBit buf o k)

/-- R185: a text that ENCTEXT rejects and a raw string that ENCRAW rejects end the label operation before any exchange, and
so does a raw string of the refused band (R119, entry 8). -/
def Obligations.RejectedTextMakesNoExchange : Prop :=
  ∀ (chars : List Byte) (t : Transport) (s : State),
    let text := labelPageOperation (some (.text chars)) t s
    let raw := labelPageOperation (some (.raw chars)) t s
    (12 < chars.length → EndsBeforeExchange text 0x11#8) ∧
    (chars.length ≤ 12 → (∃ c ∈ chars, ¬ Supported c.toNat) → EndsBeforeExchange text 0x10#8) ∧
    (96 < chars.length → EndsBeforeExchange raw 0x11#8) ∧
    (chars.length ≤ 96 → chars.length % 4 ≠ 0 → EndsBeforeExchange raw 0x12#8) ∧
    (∀ k, chars.length ≤ 48 → chars.length % 4 = 0 → k < chars.length / 4 →
      (∀ j, j < k → ∃ v, CharGroupFits chars j v) →
      ((∃ j, j < 4 ∧ ¬ HexCharacter (chars.getD (4 * k + j) 0#8)) → EndsBeforeExchange raw 0x13#8) ∧
      (∀ v, RawGroup.value (charGroup chars k) = some v → 0x3FFF < v → EndsBeforeExchange raw 0x14#8)) ∧
    (52 ≤ chars.length → chars.length ≤ 96 → chars.length % 4 = 0 → raw.result = .refused ∧ raw.calls = [])

/-- R180, R181: a label page that is sent differs from the one received, and only in the label's 24 bytes; with no new label
nothing is sent; and a new label with an encoding is sent, once, exactly when the page does not hold it yet. -/
def Obligations.LabelPageSentOnlyWhenChanged : Prop :=
  ∀ (new : Option LabelInput) (t : Transport) (s : State) (buf : Buffer), receivePage t 0x87 = some buf →
    let run := labelPageOperation new t s
    (∀ b ∈ run.sends, b ≠ buf ∧ b.length = buf.length ∧ ∀ o, o < 12 ∨ 36 ≤ o → b[o]? = buf[o]?) ∧
    (new = none → run.sends = []) ∧
    (∀ l v, new = some l → Encodes l v → diagnosticPageValid buf 0x87 32 = true → 36 ≤ buf.length →
      (PageLabelHolds buf v → run.result = .unchanged ∧ run.sends = []) ∧
      (¬ PageLabelHolds buf v → ∃ b, run.sends = [b] ∧ PageLabelHolds b v ∧
        run.result = if t.sendDiagnostic b then .written else .failed .transportError))

/-- R180, R182: a free-space page that is sent differs from the one received, and only in its payload; without a measurement
or the reserved path nothing is sent; and the payload FSRENDER makes of the received one is sent, once, exactly when it
differs from it. -/
def Obligations.FreeSpacePageSentOnlyWhenChanged : Prop :=
  ∀ (new : Option StatReply) (kbf : BitVec 16) (t : Transport) (s : State) (buf : Buffer), receivePage t 0x86 = some buf →
    let run := freeSpacePageOperation new kbf t s
    (∀ b ∈ run.sends, b ≠ buf ∧ b.length = buf.length ∧ ∀ o, o < 4 ∨ 20 ≤ o → b[o]? = buf[o]?) ∧
    (new = none ∨ new = some .notFound ∨ new = some .ioError → run.sends = []) ∧
    (∀ reply u w, new = some reply → MeasurementPresented kbf u reply → PagePayloadHolds buf u →
      exec .fsrender u = .next w → w.status ≠ 0x20#8 → diagnosticPageValid buf 0x86 16 = true →
      (SpaceKept .fsp u w → run.result = .unchanged ∧ run.sends = []) ∧
      (¬ SpaceKept .fsp u w → ∃ b, run.sends = [b] ∧ PagePayloadHolds b w ∧
        run.result = if t.sendDiagnostic b then .written else .failed .transportError))

/-- R186: after DisplayOverflow the host sends nothing. -/
def Obligations.OverflowSendsNothing : Prop :=
  ∀ (f total : BitVec 64) (kbf : BitVec 16) (t : Transport) (s : State) (buf : Buffer), receivePage t 0x86 = some buf →
    diagnosticPageValid buf 0x86 16 = true → 20 ≤ buf.length →
    0 < kbf.toNat → f.toNat ≤ total.toNat → 1000 * kbf.toNat ^ 4 ≤ f.toNat →
    (freeSpacePageOperation (some (.measured f total)) kbf t s).result = .blockError 0x20#8 ∧
    (freeSpacePageOperation (some (.measured f total)) kbf t s).sends = []

/-- R176, R184: a read that fails ends a page operation with TransportError, a page that does not validate ends it with
MalformedPage, and in both cases nothing is sent (for no new label, or one that has an encoding: the others end before the
read, R185). -/
def Obligations.FailedReadSendsNothing : Prop :=
  ∀ (t : Transport) (s : State),
    (∀ new, new = none ∨ (∃ l v, new = some l ∧ Encodes l v) →
      let run := labelPageOperation new t s
      (receivePage t 0x87 = none → run.result = .failed .transportError ∧ run.sends = []) ∧
      (∀ buf, receivePage t 0x87 = some buf → diagnosticPageValid buf 0x87 32 = false →
        run.result = .failed .malformedPage ∧ run.sends = [])) ∧
    (∀ new kbf,
      let run := freeSpacePageOperation new kbf t s
      (receivePage t 0x86 = none → run.result = .failed .transportError ∧ run.sends = []) ∧
      (∀ buf, receivePage t 0x86 = some buf → diagnosticPageValid buf 0x86 16 = false →
        run.result = .failed .malformedPage ∧ run.sends = [])) ∧
    (∀ p target,
      let run := modePageFlagOperation p target t
      (t.modeSense p.code = none → run.result = .failed .transportError ∧ run.writes = []) ∧
      (∀ buf, t.modeSense p.code = some buf → modePageValid buf p.code p.payloadLen = false →
        run.result = .failed .malformedPage ∧ run.writes = []))

/-- R53, R176, R180: every page operation makes one read, of its own page, and then at most one write; a label operation may
end before its read (R185). The length asked for is free (entry 28). -/
def Obligations.OneReadThenAtMostOneWrite : Prop :=
  ∀ (t : Transport) (s : State),
    (∀ new, let calls := (labelPageOperation new t s).calls
      calls = [] ∨ calls = [pageRead 0x87] ∨ ∃ b, calls = [pageRead 0x87, .sendDiagnostic b]) ∧
    (∀ new kbf, let calls := (freeSpacePageOperation new kbf t s).calls
      calls = [pageRead 0x86] ∨ ∃ b, calls = [pageRead 0x86, .sendDiagnostic b]) ∧
    (∀ p target, let calls := (modePageFlagOperation p target t).calls
      calls = [.modeSense p.code] ∨ ∃ b, calls = [.modeSense p.code, .modeSelect b])
end

