-- ==== Sys2Proof/Laws/Memory.lean ====
section
/-! SUPPORT. What the operations over one buffer space do: a read after a write, and the canonical form, which every
operation keeps and which makes equal contents equal lists. -/

namespace Sys2Proof.Machine

theorem Memory.read_insert (m : Memory) (a : Nat) (b : Byte) (x : Nat) :
    Memory.read (Memory.insert m a b) x = if x = a then b else Memory.read m x := by
  induction m with
  | nil => simp only [Memory.insert, Memory.read, eq_comm]
  | cons p m ih =>
    obtain ⟨k, v⟩ := p
    rw [Memory.insert]
    by_cases h1 : a < k
    · rw [if_pos h1]
      simp only [Memory.read, eq_comm]
    · rw [if_neg h1]
      by_cases h2 : a = k
      · rw [if_pos h2]
        subst h2
        by_cases h : x = a
        · subst h; simp only [Memory.read, if_true]
        · have h' : a ≠ x := fun e => h e.symm
          simp only [Memory.read, if_neg h, if_neg h']
      · rw [if_neg h2]
        by_cases h : x = a
        · have hk : k ≠ x := fun e => h2 (h ▸ e.symm)
          rw [Memory.read, if_neg hk, ih]
          simp only [if_pos h]
        · simp only [Memory.read, ih, if_neg h]

theorem Memory.read_erase (m : Memory) (a x : Nat) :
    Memory.read (Memory.erase m a) x = if x = a then 0#8 else Memory.read m x := by
  induction m with
  | nil => simp only [Memory.erase, Memory.read, ite_self]
  | cons p m ih =>
    obtain ⟨k, v⟩ := p
    rw [Memory.erase]
    by_cases hk : k = a
    · rw [if_pos hk, ih]
      by_cases h : x = a
      · simp only [if_pos h]
      · have h' : k ≠ x := fun e => h (e ▸ hk)
        simp only [Memory.read, if_neg h, if_neg h']
    · rw [if_neg hk]
      by_cases h : x = a
      · have h' : k ≠ x := fun e => hk (e.trans h)
        rw [Memory.read, if_neg h', ih]
        simp only [if_pos h]
      · simp only [Memory.read, ih, if_neg h]

/-- A read after a write: the byte written at its own offset, the old byte elsewhere. It holds of every list, canonical
or not. -/
theorem Memory.read_write (m : Memory) (a : Nat) (b : Byte) (x : Nat) :
    Memory.read (Memory.write m a b) x = if x = a then b else Memory.read m x := by
  unfold Memory.write
  split_ifs with hb h h
  · rw [Memory.read_erase, if_pos h, hb]
  · rw [Memory.read_erase, if_neg h]
  · rw [Memory.read_insert, if_pos h]
  · rw [Memory.read_insert, if_neg h]

theorem Memory.canonicalFrom_mono {size lo lo' : Nat} {m : Memory} (h : lo ≤ lo')
    (hm : Memory.canonicalFrom size lo' m = true) : Memory.canonicalFrom size lo m = true := by
  cases m with
  | nil => rfl
  | cons p m =>
    simp only [Memory.canonicalFrom, Bool.and_eq_true, decide_eq_true_eq] at hm ⊢
    exact ⟨⟨⟨by omega, hm.1.1.2⟩, hm.1.2⟩, hm.2⟩

theorem Memory.canonicalFrom_insert {size lo a : Nat} {b : Byte} {m : Memory} (hb : b ≠ 0#8) (hlo : lo ≤ a)
    (ha : a < size) (hm : Memory.canonicalFrom size lo m = true) :
    Memory.canonicalFrom size lo (Memory.insert m a b) = true := by
  induction m generalizing lo with
  | nil => simp [Memory.insert, Memory.canonicalFrom, hb, hlo, ha]
  | cons p m ih =>
    obtain ⟨k, v⟩ := p
    simp only [Memory.canonicalFrom, Bool.and_eq_true, decide_eq_true_eq] at hm
    obtain ⟨⟨⟨h1, h2⟩, h3⟩, h4⟩ := hm
    unfold Memory.insert
    split_ifs with hk hk'
    · simp [Memory.canonicalFrom, hb, hlo, ha, h2, h4, Nat.succ_le_of_lt hk]
      simpa using h3
    · subst hk'
      simp [Memory.canonicalFrom, hb, hlo, ha, h4]
    · simp only [Memory.canonicalFrom, Bool.and_eq_true, decide_eq_true_eq]
      exact ⟨⟨⟨h1, h2⟩, h3⟩, ih (by omega) h4⟩

theorem Memory.canonicalFrom_erase {size lo a : Nat} {m : Memory}
    (hm : Memory.canonicalFrom size lo m = true) :
    Memory.canonicalFrom size lo (Memory.erase m a) = true := by
  induction m generalizing lo with
  | nil => rfl
  | cons p m ih =>
    obtain ⟨k, v⟩ := p
    simp only [Memory.canonicalFrom, Bool.and_eq_true, decide_eq_true_eq] at hm
    obtain ⟨⟨⟨h1, h2⟩, h3⟩, h4⟩ := hm
    unfold Memory.erase
    split_ifs with hk
    · exact ih (Memory.canonicalFrom_mono (by omega) h4)
    · simp only [Memory.canonicalFrom, Bool.and_eq_true, decide_eq_true_eq]
      exact ⟨⟨⟨h1, h2⟩, h3⟩, ih h4⟩

/-- A write inside the space keeps the canonical form. -/
theorem Memory.wf_write {size a : Nat} {b : Byte} {m : Memory} (ha : a < size) (hm : Memory.wf size m = true) :
    Memory.wf size (Memory.write m a b) = true := by
  unfold Memory.wf Memory.write at *
  split_ifs with hb
  · exact Memory.canonicalFrom_erase hm
  · exact Memory.canonicalFrom_insert hb (Nat.zero_le _) ha hm

theorem Memory.wf_nil (size : Nat) : Memory.wf size [] = true := rfl

/-- In canonical form nothing is listed below the first offset. -/
theorem Memory.read_of_lt {size lo x : Nat} {m : Memory} (hm : Memory.canonicalFrom size lo m = true) (hx : x < lo) :
    Memory.read m x = 0#8 := by
  induction m generalizing lo with
  | nil => rfl
  | cons p m ih =>
    obtain ⟨k, v⟩ := p
    simp only [Memory.canonicalFrom, Bool.and_eq_true, decide_eq_true_eq] at hm
    obtain ⟨⟨⟨h1, h2⟩, h3⟩, h4⟩ := hm
    have : k ≠ x := by omega
    simp only [Memory.read, if_neg this]
    exact ih h4 (by omega)

/-- Contents in canonical form read 0x00 past the size. -/
theorem Memory.read_of_size_le {size lo x : Nat} {m : Memory} (hm : Memory.canonicalFrom size lo m = true)
    (hx : size ≤ x) : Memory.read m x = 0#8 := by
  induction m generalizing lo with
  | nil => rfl
  | cons e m ih =>
    obtain ⟨k, v⟩ := e
    simp only [Memory.canonicalFrom, Bool.and_eq_true, decide_eq_true_eq] at hm
    rw [Memory.read, if_neg (by omega)]
    exact ih hm.2

/-- Two canonical lists with the same contents are the same list. -/
theorem Memory.eq_of_read_eq {size lo : Nat} {m n : Memory} (hm : Memory.canonicalFrom size lo m = true)
    (hn : Memory.canonicalFrom size lo n = true) (h : ∀ x, Memory.read m x = Memory.read n x) : m = n := by
  induction m generalizing lo n with
  | nil =>
    cases n with
    | nil => rfl
    | cons q n =>
      obtain ⟨k, v⟩ := q
      simp only [Memory.canonicalFrom, Bool.and_eq_true, decide_eq_true_eq, bne_iff_ne, ne_eq] at hn
      have := h k
      simp [Memory.read] at this
      exact absurd this.symm hn.1.2
  | cons p m ih =>
    obtain ⟨k, v⟩ := p
    cases n with
    | nil =>
      simp only [Memory.canonicalFrom, Bool.and_eq_true, decide_eq_true_eq, bne_iff_ne, ne_eq] at hm
      have := h k
      simp [Memory.read] at this
      exact absurd this hm.1.2
    | cons q n =>
      obtain ⟨k', v'⟩ := q
      simp only [Memory.canonicalFrom, Bool.and_eq_true, decide_eq_true_eq, bne_iff_ne, ne_eq] at hm hn
      obtain ⟨⟨⟨a1, a2⟩, a3⟩, a4⟩ := hm
      obtain ⟨⟨⟨b1, b2⟩, b3⟩, b4⟩ := hn
      have hk : k = k' := by
        rcases Nat.lt_trichotomy k k' with hlt | he | hlt
        · have h0 := h k
          have hne : k' ≠ k := by omega
          simp only [Memory.read, if_true, if_neg hne] at h0
          rw [Memory.read_of_lt b4 (by omega)] at h0
          exact absurd h0 a3
        · exact he
        · have h0 := h k'
          have hne : k ≠ k' := by omega
          simp only [Memory.read, if_true, if_neg hne] at h0
          rw [Memory.read_of_lt a4 (by omega)] at h0
          exact absurd h0.symm b3
      subst hk
      have hv : v = v' := by simpa [Memory.read] using h k
      subst hv
      rw [ih a4 b4 fun x => ?_]
      have hx := h x
      simp only [Memory.read] at hx
      split_ifs at hx with he
      · rw [Memory.read_of_lt a4 (by omega), Memory.read_of_lt b4 (by omega)]
      · exact hx

/-- Equal contents of a space are equal data. -/
theorem Memory.ext_of_wf {size : Nat} {m n : Memory} (hm : Memory.wf size m = true) (hn : Memory.wf size n = true)
    (h : ∀ x, Memory.read m x = Memory.read n x) : m = n :=
  Memory.eq_of_read_eq hm hn h

/-! ### Whole contents -/

theorem Memory.canonicalFrom_filterMap_range' (f : Nat → Byte) (lo len size : Nat) (h : lo + len ≤ size) :
    Memory.canonicalFrom size lo
      ((List.range' lo len).filterMap fun o => if f o = 0#8 then none else some (o, f o)) = true := by
  induction len generalizing lo with
  | zero => rfl
  | succ len ih =>
    rw [List.range'_succ]
    by_cases hf : f lo = 0#8
    · simp only [List.filterMap_cons, hf, if_true]
      exact Memory.canonicalFrom_mono (Nat.le_succ lo) (ih (lo + 1) (by omega))
    · simp only [List.filterMap_cons, hf, if_false]
      simp only [Memory.canonicalFrom, Bool.and_eq_true, decide_eq_true_eq, bne_iff_ne, ne_eq]
      exact ⟨⟨⟨le_refl _, by omega⟩, hf⟩, ih (lo + 1) (by omega)⟩

/-- Tabulated contents are in canonical form. -/
theorem Memory.wf_tabulate (n : Nat) (f : Nat → Byte) : Memory.wf n (Memory.tabulate n f) = true := by
  unfold Memory.wf Memory.tabulate
  rw [List.range_eq_range']
  exact Memory.canonicalFrom_filterMap_range' f 0 n n (by omega)

theorem Memory.read_filterMap_range' (f : Nat → Byte) (lo len x : Nat) :
    Memory.read ((List.range' lo len).filterMap fun o => if f o = 0#8 then none else some (o, f o)) x =
      if lo ≤ x ∧ x < lo + len then f x else 0#8 := by
  induction len generalizing lo with
  | zero =>
    have : ¬ (lo ≤ x ∧ x < lo + 0) := by omega
    rw [if_neg this]
    rfl
  | succ len ih =>
    rw [List.range'_succ]
    by_cases hx : lo = x
    · subst hx
      have hin : lo ≤ lo ∧ lo < lo + (len + 1) := by omega
      rw [if_pos hin]
      by_cases hf : f lo = 0#8
      · simp only [List.filterMap_cons, hf, if_true]
        rw [ih, if_neg (by omega)]
      · simp [hf, Memory.read]
    · have key : (lo ≤ x ∧ x < lo + (len + 1)) ↔ (lo + 1 ≤ x ∧ x < lo + 1 + len) := by omega
      by_cases hf : f lo = 0#8
      · simp only [List.filterMap_cons, hf, if_true]
        rw [ih]
        simp only [key]
      · simp only [List.filterMap_cons, hf, if_false, Memory.read, if_neg hx]
        rw [ih]
        simp only [key]

/-- Tabulated contents read as the function they were made from. -/
theorem Memory.read_tabulate (n : Nat) (f : Nat → Byte) (x : Nat) :
    Memory.read (Memory.tabulate n f) x = if x < n then f x else 0#8 := by
  unfold Memory.tabulate
  rw [List.range_eq_range', Memory.read_filterMap_range']
  simp

end Sys2Proof.Machine
end

