-- ==== Sys2Proof/Laws/State.lean ====
section
/-! SUPPORT. One lemma for each field of State and each update of it, so that no proof unfolds an update. -/

namespace Sys2Proof.Machine

/-- Two next states that are equal outcomes are equal. Cite it instead of a case split on the equation, which would unfold
the whole operation. -/
theorem next_inj {s t : State} (h : (Host.Outcome.next s : Host.Outcome State Fault Refusal) = .next t) : s = t :=
  Host.Outcome.next.inj h

/-! ### The end of an operation -/

@[simp] theorem State.finish_status (s : State) (o : OutcomeKind) : (s.finish o).status = o.code := rfl
@[simp] theorem State.finish_free (s : State) (o : OutcomeKind) : (s.finish o).free = s.free := rfl
@[simp] theorem State.finish_total (s : State) (o : OutcomeKind) : (s.finish o).total = s.total := rfl
@[simp] theorem State.finish_kbf (s : State) (o : OutcomeKind) : (s.finish o).kbf = s.kbf := rfl
@[simp] theorem State.finish_tlen (s : State) (o : OutcomeKind) : (s.finish o).tlen = s.tlen := rfl
@[simp] theorem State.finish_res (s : State) (o : OutcomeKind) : (s.finish o).res = s.res := rfl
@[simp] theorem State.finish_geo (s : State) (o : OutcomeKind) : (s.finish o).geo = s.geo := rfl
@[simp] theorem State.finish_llen (s : State) (o : OutcomeKind) : (s.finish o).llen = s.llen := rfl
@[simp] theorem State.finish_pending (s : State) (o : OutcomeKind) : (s.finish o).pending = s.pending := rfl
@[simp] theorem State.finish_received (s : State) (o : OutcomeKind) : (s.finish o).received = s.received := rfl
@[simp] theorem State.finish_resets (s : State) (o : OutcomeKind) : (s.finish o).resets = s.resets := rfl
@[simp] theorem State.finish_txt (s : State) (o : OutcomeKind) : (s.finish o).txt = s.txt := rfl
@[simp] theorem State.finish_lbl (s : State) (o : OutcomeKind) : (s.finish o).lbl = s.lbl := rfl
@[simp] theorem State.finish_fsp (s : State) (o : OutcomeKind) : (s.finish o).fsp = s.fsp := rfl
@[simp] theorem State.finish_grid (s : State) (o : OutcomeKind) : (s.finish o).grid = s.grid := rfl

@[simp] theorem State.raise_status (s : State) (e : OutcomeKind) : (s.raise e).status = e.code := rfl
@[simp] theorem State.raise_free (s : State) (e : OutcomeKind) : (s.raise e).free = s.free := rfl
@[simp] theorem State.raise_total (s : State) (e : OutcomeKind) : (s.raise e).total = s.total := rfl
@[simp] theorem State.raise_kbf (s : State) (e : OutcomeKind) : (s.raise e).kbf = s.kbf := rfl
@[simp] theorem State.raise_tlen (s : State) (e : OutcomeKind) : (s.raise e).tlen = s.tlen := rfl
@[simp] theorem State.raise_res (s : State) (e : OutcomeKind) : (s.raise e).res = s.res := rfl
@[simp] theorem State.raise_geo (s : State) (e : OutcomeKind) : (s.raise e).geo = s.geo := rfl
@[simp] theorem State.raise_llen (s : State) (e : OutcomeKind) : (s.raise e).llen = s.llen := rfl
@[simp] theorem State.raise_pending (s : State) (e : OutcomeKind) : (s.raise e).pending = s.pending := rfl
@[simp] theorem State.raise_received (s : State) (e : OutcomeKind) : (s.raise e).received = s.received := rfl
@[simp] theorem State.raise_resets (s : State) (e : OutcomeKind) : (s.raise e).resets = s.resets := rfl
@[simp] theorem State.raise_txt (s : State) (e : OutcomeKind) : (s.raise e).txt = s.txt := rfl
@[simp] theorem State.raise_lbl (s : State) (e : OutcomeKind) : (s.raise e).lbl = s.lbl := rfl
@[simp] theorem State.raise_fsp (s : State) (e : OutcomeKind) : (s.raise e).fsp = s.fsp := rfl
@[simp] theorem State.raise_grid (s : State) (e : OutcomeKind) : (s.raise e).grid = s.grid := rfl

/-! ### A host read -/

@[simp] theorem State.receive_received (s : State) (v : BitVec 64) : (s.receive v).received = s.received ++ [v] := rfl
@[simp] theorem State.receive_free (s : State) (v : BitVec 64) : (s.receive v).free = s.free := rfl
@[simp] theorem State.receive_total (s : State) (v : BitVec 64) : (s.receive v).total = s.total := rfl
@[simp] theorem State.receive_kbf (s : State) (v : BitVec 64) : (s.receive v).kbf = s.kbf := rfl
@[simp] theorem State.receive_tlen (s : State) (v : BitVec 64) : (s.receive v).tlen = s.tlen := rfl
@[simp] theorem State.receive_res (s : State) (v : BitVec 64) : (s.receive v).res = s.res := rfl
@[simp] theorem State.receive_geo (s : State) (v : BitVec 64) : (s.receive v).geo = s.geo := rfl
@[simp] theorem State.receive_llen (s : State) (v : BitVec 64) : (s.receive v).llen = s.llen := rfl
@[simp] theorem State.receive_status (s : State) (v : BitVec 64) : (s.receive v).status = s.status := rfl
@[simp] theorem State.receive_pending (s : State) (v : BitVec 64) : (s.receive v).pending = s.pending := rfl
@[simp] theorem State.receive_resets (s : State) (v : BitVec 64) : (s.receive v).resets = s.resets := rfl
@[simp] theorem State.receive_txt (s : State) (v : BitVec 64) : (s.receive v).txt = s.txt := rfl
@[simp] theorem State.receive_lbl (s : State) (v : BitVec 64) : (s.receive v).lbl = s.lbl := rfl
@[simp] theorem State.receive_fsp (s : State) (v : BitVec 64) : (s.receive v).fsp = s.fsp := rfl
@[simp] theorem State.receive_grid (s : State) (v : BitVec 64) : (s.receive v).grid = s.grid := rfl

/-! ### The contents of a space -/

@[simp] theorem State.setSpace_free (s : State) (sp : Space) (m : Memory) : (s.setSpace sp m).free = s.free := by cases sp <;> rfl
@[simp] theorem State.setSpace_total (s : State) (sp : Space) (m : Memory) : (s.setSpace sp m).total = s.total := by cases sp <;> rfl
@[simp] theorem State.setSpace_kbf (s : State) (sp : Space) (m : Memory) : (s.setSpace sp m).kbf = s.kbf := by cases sp <;> rfl
@[simp] theorem State.setSpace_tlen (s : State) (sp : Space) (m : Memory) : (s.setSpace sp m).tlen = s.tlen := by cases sp <;> rfl
@[simp] theorem State.setSpace_res (s : State) (sp : Space) (m : Memory) : (s.setSpace sp m).res = s.res := by cases sp <;> rfl
@[simp] theorem State.setSpace_geo (s : State) (sp : Space) (m : Memory) : (s.setSpace sp m).geo = s.geo := by cases sp <;> rfl
@[simp] theorem State.setSpace_llen (s : State) (sp : Space) (m : Memory) : (s.setSpace sp m).llen = s.llen := by cases sp <;> rfl
@[simp] theorem State.setSpace_status (s : State) (sp : Space) (m : Memory) : (s.setSpace sp m).status = s.status := by cases sp <;> rfl
@[simp] theorem State.setSpace_pending (s : State) (sp : Space) (m : Memory) : (s.setSpace sp m).pending = s.pending := by cases sp <;> rfl
@[simp] theorem State.setSpace_received (s : State) (sp : Space) (m : Memory) : (s.setSpace sp m).received = s.received := by cases sp <;> rfl
@[simp] theorem State.setSpace_resets (s : State) (sp : Space) (m : Memory) : (s.setSpace sp m).resets = s.resets := by cases sp <;> rfl

/-! ### A byte, a word, a bit, a flag -/

@[simp] theorem State.writeByte_free (s : State) (sp : Space) (o : Nat) (b : Byte) : (s.writeByte sp o b).free = s.free := by cases sp <;> rfl
@[simp] theorem State.writeByte_total (s : State) (sp : Space) (o : Nat) (b : Byte) : (s.writeByte sp o b).total = s.total := by cases sp <;> rfl
@[simp] theorem State.writeByte_kbf (s : State) (sp : Space) (o : Nat) (b : Byte) : (s.writeByte sp o b).kbf = s.kbf := by cases sp <;> rfl
@[simp] theorem State.writeByte_tlen (s : State) (sp : Space) (o : Nat) (b : Byte) : (s.writeByte sp o b).tlen = s.tlen := by cases sp <;> rfl
@[simp] theorem State.writeByte_res (s : State) (sp : Space) (o : Nat) (b : Byte) : (s.writeByte sp o b).res = s.res := by cases sp <;> rfl
@[simp] theorem State.writeByte_geo (s : State) (sp : Space) (o : Nat) (b : Byte) : (s.writeByte sp o b).geo = s.geo := by cases sp <;> rfl
@[simp] theorem State.writeByte_llen (s : State) (sp : Space) (o : Nat) (b : Byte) : (s.writeByte sp o b).llen = s.llen := by cases sp <;> rfl
@[simp] theorem State.writeByte_status (s : State) (sp : Space) (o : Nat) (b : Byte) : (s.writeByte sp o b).status = s.status := by cases sp <;> rfl
@[simp] theorem State.writeByte_pending (s : State) (sp : Space) (o : Nat) (b : Byte) : (s.writeByte sp o b).pending = s.pending := by cases sp <;> rfl
@[simp] theorem State.writeByte_received (s : State) (sp : Space) (o : Nat) (b : Byte) : (s.writeByte sp o b).received = s.received := by cases sp <;> rfl
@[simp] theorem State.writeByte_resets (s : State) (sp : Space) (o : Nat) (b : Byte) : (s.writeByte sp o b).resets = s.resets := by cases sp <;> rfl

@[simp] theorem State.writeWord_free (s : State) (sp : Space) (o : Nat) (v : Word) : (s.writeWord sp o v).free = s.free := by simp [State.writeWord]
@[simp] theorem State.writeWord_total (s : State) (sp : Space) (o : Nat) (v : Word) : (s.writeWord sp o v).total = s.total := by simp [State.writeWord]
@[simp] theorem State.writeWord_kbf (s : State) (sp : Space) (o : Nat) (v : Word) : (s.writeWord sp o v).kbf = s.kbf := by simp [State.writeWord]
@[simp] theorem State.writeWord_tlen (s : State) (sp : Space) (o : Nat) (v : Word) : (s.writeWord sp o v).tlen = s.tlen := by simp [State.writeWord]
@[simp] theorem State.writeWord_res (s : State) (sp : Space) (o : Nat) (v : Word) : (s.writeWord sp o v).res = s.res := by simp [State.writeWord]
@[simp] theorem State.writeWord_geo (s : State) (sp : Space) (o : Nat) (v : Word) : (s.writeWord sp o v).geo = s.geo := by simp [State.writeWord]
@[simp] theorem State.writeWord_llen (s : State) (sp : Space) (o : Nat) (v : Word) : (s.writeWord sp o v).llen = s.llen := by simp [State.writeWord]
@[simp] theorem State.writeWord_status (s : State) (sp : Space) (o : Nat) (v : Word) : (s.writeWord sp o v).status = s.status := by simp [State.writeWord]
@[simp] theorem State.writeWord_pending (s : State) (sp : Space) (o : Nat) (v : Word) : (s.writeWord sp o v).pending = s.pending := by simp [State.writeWord]
@[simp] theorem State.writeWord_received (s : State) (sp : Space) (o : Nat) (v : Word) : (s.writeWord sp o v).received = s.received := by simp [State.writeWord]
@[simp] theorem State.writeWord_resets (s : State) (sp : Space) (o : Nat) (v : Word) : (s.writeWord sp o v).resets = s.resets := by simp [State.writeWord]

@[simp] theorem State.setBit_free (s : State) (sp : Space) (o b : Nat) (v : Bool) : (s.setBit sp o b v).free = s.free := by simp [State.setBit]
@[simp] theorem State.setBit_total (s : State) (sp : Space) (o b : Nat) (v : Bool) : (s.setBit sp o b v).total = s.total := by simp [State.setBit]
@[simp] theorem State.setBit_kbf (s : State) (sp : Space) (o b : Nat) (v : Bool) : (s.setBit sp o b v).kbf = s.kbf := by simp [State.setBit]
@[simp] theorem State.setBit_tlen (s : State) (sp : Space) (o b : Nat) (v : Bool) : (s.setBit sp o b v).tlen = s.tlen := by simp [State.setBit]
@[simp] theorem State.setBit_res (s : State) (sp : Space) (o b : Nat) (v : Bool) : (s.setBit sp o b v).res = s.res := by simp [State.setBit]
@[simp] theorem State.setBit_geo (s : State) (sp : Space) (o b : Nat) (v : Bool) : (s.setBit sp o b v).geo = s.geo := by simp [State.setBit]
@[simp] theorem State.setBit_llen (s : State) (sp : Space) (o b : Nat) (v : Bool) : (s.setBit sp o b v).llen = s.llen := by simp [State.setBit]
@[simp] theorem State.setBit_status (s : State) (sp : Space) (o b : Nat) (v : Bool) : (s.setBit sp o b v).status = s.status := by simp [State.setBit]
@[simp] theorem State.setBit_pending (s : State) (sp : Space) (o b : Nat) (v : Bool) : (s.setBit sp o b v).pending = s.pending := by simp [State.setBit]
@[simp] theorem State.setBit_received (s : State) (sp : Space) (o b : Nat) (v : Bool) : (s.setBit sp o b v).received = s.received := by simp [State.setBit]
@[simp] theorem State.setBit_resets (s : State) (sp : Space) (o b : Nat) (v : Bool) : (s.setBit sp o b v).resets = s.resets := by simp [State.setBit]

@[simp] theorem State.setFlag_free (s : State) (f : FspFlag) (v : Bool) : (s.setFlag f v).free = s.free := by simp [State.setFlag]
@[simp] theorem State.setFlag_total (s : State) (f : FspFlag) (v : Bool) : (s.setFlag f v).total = s.total := by simp [State.setFlag]
@[simp] theorem State.setFlag_kbf (s : State) (f : FspFlag) (v : Bool) : (s.setFlag f v).kbf = s.kbf := by simp [State.setFlag]
@[simp] theorem State.setFlag_tlen (s : State) (f : FspFlag) (v : Bool) : (s.setFlag f v).tlen = s.tlen := by simp [State.setFlag]
@[simp] theorem State.setFlag_res (s : State) (f : FspFlag) (v : Bool) : (s.setFlag f v).res = s.res := by simp [State.setFlag]
@[simp] theorem State.setFlag_geo (s : State) (f : FspFlag) (v : Bool) : (s.setFlag f v).geo = s.geo := by simp [State.setFlag]
@[simp] theorem State.setFlag_llen (s : State) (f : FspFlag) (v : Bool) : (s.setFlag f v).llen = s.llen := by simp [State.setFlag]
@[simp] theorem State.setFlag_status (s : State) (f : FspFlag) (v : Bool) : (s.setFlag f v).status = s.status := by simp [State.setFlag]
@[simp] theorem State.setFlag_pending (s : State) (f : FspFlag) (v : Bool) : (s.setFlag f v).pending = s.pending := by simp [State.setFlag]
@[simp] theorem State.setFlag_received (s : State) (f : FspFlag) (v : Bool) : (s.setFlag f v).received = s.received := by simp [State.setFlag]
@[simp] theorem State.setFlag_resets (s : State) (f : FspFlag) (v : Bool) : (s.setFlag f v).resets = s.resets := by simp [State.setFlag]

/-! ### Which contents an update leaves -/

@[simp] theorem State.space_setSpace (s : State) (sp sp' : Space) (m : Memory) :
    (s.setSpace sp m).space sp' = if sp' = sp then m else s.space sp' := by
  cases sp <;> cases sp' <;> rfl

@[simp] theorem State.space_finish (s : State) (o : OutcomeKind) (sp : Space) : (s.finish o).space sp = s.space sp := by
  cases sp <;> rfl

@[simp] theorem State.space_raise (s : State) (e : OutcomeKind) (sp : Space) : (s.raise e).space sp = s.space sp := by
  cases sp <;> rfl

@[simp] theorem State.space_receive (s : State) (v : BitVec 64) (sp : Space) : (s.receive v).space sp = s.space sp := by
  cases sp <;> rfl

@[simp] theorem State.readByte_finish (s : State) (o : OutcomeKind) (sp : Space) (a : Nat) :
    (s.finish o).readByte sp a = s.readByte sp a := by
  simp [State.readByte]

@[simp] theorem State.readByte_raise (s : State) (e : OutcomeKind) (sp : Space) (a : Nat) :
    (s.raise e).readByte sp a = s.readByte sp a := by
  simp [State.readByte]

@[simp] theorem State.readByte_receive (s : State) (v : BitVec 64) (sp : Space) (a : Nat) :
    (s.receive v).readByte sp a = s.readByte sp a := by
  simp [State.readByte]

/-- The four spaces and the other fields are all of a state. -/
theorem State.ext_of {s t : State} (h1 : s.free = t.free) (h2 : s.total = t.total) (h3 : s.kbf = t.kbf)
    (h4 : s.tlen = t.tlen) (h5 : s.res = t.res) (h6 : s.geo = t.geo) (h7 : s.llen = t.llen)
    (h8 : s.status = t.status) (h9 : s.pending = t.pending) (h10 : s.received = t.received)
    (h11 : s.resets = t.resets) (h : ∀ sp, s.space sp = t.space sp) : s = t := by
  have e1 := h .txt
  have e2 := h .lbl
  have e3 := h .fsp
  have e4 := h .grid
  cases s
  cases t
  simp only [State.space] at *
  subst_vars
  rfl

end Sys2Proof.Machine
end

