-- ==== Sys2Proof/Laws/Ops.lean ====
section
/-! SUPPORT. What each shared operation over the state does, said once: reads after writes, the bit primitive (R46, R47),
the label, and the canonical form. -/

namespace Sys2Proof.Machine

/-- A byte read after a byte write (R51). -/
theorem State.readByte_writeByte (s : State) (sp sp' : Space) (o o' : Nat) (b : Byte) :
    (s.writeByte sp o b).readByte sp' o' = if sp' = sp ∧ o' = o then b else s.readByte sp' o' := by
  unfold State.readByte State.writeByte
  rw [State.space_setSpace]
  by_cases hsp : sp' = sp
  · subst hsp
    simp only [if_true, true_and, Memory.read_write]
  · simp only [hsp, false_and, if_false]

@[simp] theorem State.readByte_writeByte_same (s : State) (sp : Space) (o : Nat) (b : Byte) :
    (s.writeByte sp o b).readByte sp o = b := by
  rw [State.readByte_writeByte, if_pos ⟨rfl, rfl⟩]

theorem State.readByte_writeByte_other (s : State) (sp sp' : Space) (o o' : Nat) (b : Byte)
    (h : sp' ≠ sp ∨ o' ≠ o) : (s.writeByte sp o b).readByte sp' o' = s.readByte sp' o' := by
  rw [State.readByte_writeByte, if_neg]
  rintro ⟨h1, h2⟩
  exact h.elim (fun k => k h1) (fun k => k h2)

theorem append_extractLsb'_word (v : Word) : v.extractLsb' 8 8 ++ v.extractLsb' 0 8 = v := by
  ext i hi
  rw [BitVec.getElem_append]
  split_ifs with h
  · simp [hi]
  · simp only [BitVec.getElem_extractLsb']
    rw [← BitVec.getLsbD_eq_getElem]
    congr 1
    omega

/-- A word read after a word write at the same place gives the word: one byte order for both (R49). -/
theorem State.readWord_writeWord (s : State) (sp : Space) (o : Nat) (v : Word) :
    (s.writeWord sp o v).readWord sp o = v := by
  unfold State.readWord State.writeWord
  have h : o + 1 ≠ o := by omega
  rw [State.readByte_writeByte_other _ _ _ _ _ _ (Or.inr h.symm), State.readByte_writeByte_same,
    State.readByte_writeByte_same, append_extractLsb'_word]

/-- A word write leaves every byte but its own two. -/
theorem State.readByte_writeWord_other (s : State) (sp sp' : Space) (o o' : Nat) (v : Word)
    (h : sp' ≠ sp ∨ (o' ≠ o ∧ o' ≠ o + 1)) : (s.writeWord sp o v).readByte sp' o' = s.readByte sp' o' := by
  unfold State.writeWord
  rw [State.readByte_writeByte_other _ _ _ _ _ _ (h.imp id And.right),
    State.readByte_writeByte_other _ _ _ _ _ _ (h.imp id And.left)]

/-! ### The bit primitive -/

/-- SetBit changes exactly one bit of a byte (R47). -/
theorem getLsbD_setBitOf (x : Byte) (b k : Nat) (v : Bool) (hb : b < 8) :
    (setBitOf x b v).getLsbD k = if k = b then v else x.getLsbD k := by
  have hone : (1#8 <<< b).getLsbD k = decide (k = b) := by
    rw [BitVec.getLsbD_shiftLeft]
    by_cases hk : k = b
    · subst hk; simp [hb]
    · by_cases hk8 : k < 8
      · by_cases hlt : k < b
        · simp [hk8, hlt, hk]
        · have h0 : k - b ≠ 0 := by omega
          simp [hk8, hlt, hk, BitVec.getLsbD_one, h0]
      · simp [hk8, hk]
  by_cases hk8 : k < 8
  · cases v
    · simp only [setBitOf, Bool.false_eq_true, if_false, BitVec.getLsbD_and, BitVec.getLsbD_not, hone, hk8,
        decide_true, Bool.true_and]
      by_cases hk : k = b <;> simp [hk]
    · simp only [setBitOf, if_true, BitVec.getLsbD_or, hone]
      by_cases hk : k = b <;> simp [hk]
  · have hk : k ≠ b := by omega
    rw [if_neg hk, BitVec.getLsbD_of_ge _ _ (by omega), BitVec.getLsbD_of_ge _ _ (by omega)]

/-- SetBit then a read of a byte. -/
theorem State.readByte_setBit (s : State) (sp sp' : Space) (o o' b : Nat) (v : Bool) :
    (s.setBit sp o b v).readByte sp' o' =
      if sp' = sp ∧ o' = o then setBitOf (s.readByte sp o) b v else s.readByte sp' o' := by
  unfold State.setBit
  exact State.readByte_writeByte s sp sp' o o' _

/-! ### The label -/

/-- A byte read after the first k slots are written, in ascending order. -/
theorem State.readByte_writeSlots (value : Nat → Word) (k : Nat) (s : State) (sp : Space) (o : Nat) :
    ((List.range k).foldl (fun t i => t.writeWord .lbl (2 * i) (value i)) s).readByte sp o =
      if sp = .lbl ∧ o < 2 * k then
        (if o % 2 = 0 then (value (o / 2)).extractLsb' 8 8 else (value (o / 2)).extractLsb' 0 8)
      else s.readByte sp o := by
  induction k with
  | zero => simp
  | succ k ih =>
    rw [List.range_succ, List.foldl_append]
    simp only [List.foldl_cons, List.foldl_nil]
    generalize (List.range k).foldl (fun t i => t.writeWord .lbl (2 * i) (value i)) s = t at ih ⊢
    by_cases hsp : sp = .lbl
    · subst hsp
      by_cases h0 : o = 2 * k
      · subst h0
        unfold State.writeWord
        rw [State.readByte_writeByte_other _ _ _ _ _ _ (Or.inr (by omega)), State.readByte_writeByte_same]
        rw [if_pos ⟨rfl, by omega⟩, if_pos (by omega)]
        congr 2
        omega
      · by_cases h1 : o = 2 * k + 1
        · subst h1
          unfold State.writeWord
          rw [State.readByte_writeByte_same, if_pos ⟨rfl, by omega⟩, if_neg (by omega)]
          congr 2
          omega
        · rw [State.readByte_writeWord_other _ _ _ _ _ _ (Or.inr ⟨h0, h1⟩), ih]
          by_cases h2 : o < 2 * k
          · have h3 : o < 2 * (k + 1) := by omega
            simp only [h2, h3, and_self]
          · rw [if_neg (by simp [h2]), if_neg (by simp; omega)]
    · rw [State.readByte_writeWord_other _ _ _ _ _ _ (Or.inl hsp), ih, if_neg (by simp [hsp]),
        if_neg (by simp [hsp])]

/-- Everything writing the label does to the bytes: slot i holds value i, big-endian, and every other byte is as before
(R41, R114). -/
theorem State.readByte_writeLabel (s : State) (value : Nat → Word) (sp : Space) (o : Nat) :
    (s.writeLabel value).readByte sp o =
      if sp = .lbl ∧ o < 24 then
        (if o % 2 = 0 then (value (o / 2)).extractLsb' 8 8 else (value (o / 2)).extractLsb' 0 8)
      else s.readByte sp o :=
  State.readByte_writeSlots value 12 s sp o

/-- Slot i after the label is written. -/
theorem State.slot_writeLabel (s : State) (value : Nat → Word) (i : Nat) (hi : i < 12) :
    (s.writeLabel value).slot i = value i := by
  unfold State.slot State.readWord
  have h0 : 2 * i < 24 ∧ 2 * i + 1 < 24 ∧ 2 * i % 2 = 0 ∧ (2 * i + 1) % 2 ≠ 0 := by omega
  rw [State.readByte_writeLabel, State.readByte_writeLabel]
  simp only [h0.1, h0.2.1, h0.2.2.1, h0.2.2.2, and_self, if_true, if_false]
  rw [show 2 * i / 2 = i by omega, show (2 * i + 1) / 2 = i by omega, append_extractLsb'_word]

/-- Writing the label touches no field but LBL. -/
theorem State.writeLabel_eq (s : State) (value : Nat → Word) :
    s.writeLabel value = { s with lbl := (s.writeLabel value).lbl } := by
  unfold State.writeLabel
  suffices h : ∀ (l : List Nat) (t : State),
      l.foldl (fun t i => t.writeWord .lbl (2 * i) (value i)) t =
        { t with lbl := (l.foldl (fun t i => t.writeWord .lbl (2 * i) (value i)) t).lbl } from h _ _
  intro l
  induction l with
  | nil => intro t; rfl
  | cons i l ih =>
    intro t
    rw [List.foldl_cons]
    exact (ih _).trans rfl

/-! ### The canonical form -/

theorem State.memoryWf_iff (s : State) : s.memoryWf = true ↔ ∀ sp, Memory.wf sp.size (s.space sp) = true := by
  unfold State.memoryWf
  simp only [Bool.and_eq_true]
  constructor
  · rintro ⟨⟨⟨h1, h2⟩, h3⟩, h4⟩ sp
    cases sp <;> assumption
  · intro h
    exact ⟨⟨⟨h .txt, h .lbl⟩, h .fsp⟩, h .grid⟩

/-- Replacing the contents of a space by canonical contents keeps the form. -/
theorem State.memoryWf_setSpace {s : State} {sp : Space} {m : Memory} (hs : s.memoryWf = true)
    (hm : Memory.wf sp.size m = true) : (s.setSpace sp m).memoryWf = true := by
  rw [State.memoryWf_iff] at hs ⊢
  intro sp'
  rw [State.space_setSpace]
  split_ifs with h
  · rw [h]; exact hm
  · exact hs sp'

/-- A byte write inside its space keeps the form. -/
theorem State.memoryWf_writeByte {s : State} {sp : Space} {o : Nat} (b : Byte) (hs : s.memoryWf = true)
    (ho : o < sp.size) : (s.writeByte sp o b).memoryWf = true :=
  State.memoryWf_setSpace hs (Memory.wf_write ho ((State.memoryWf_iff s).mp hs sp))

theorem State.memoryWf_writeWord {s : State} {sp : Space} {o : Nat} (v : Word) (hs : s.memoryWf = true)
    (ho : o + 1 < sp.size) : (s.writeWord sp o v).memoryWf = true :=
  State.memoryWf_writeByte _ (State.memoryWf_writeByte _ hs (by omega)) ho

theorem State.memoryWf_setBit {s : State} {sp : Space} {o : Nat} (b : Nat) (v : Bool) (hs : s.memoryWf = true)
    (ho : o < sp.size) : (s.setBit sp o b v).memoryWf = true :=
  State.memoryWf_writeByte _ hs ho

theorem State.memoryWf_setFlag {s : State} (f : FspFlag) (v : Bool) (hs : s.memoryWf = true) :
    (s.setFlag f v).memoryWf = true :=
  State.memoryWf_setBit _ _ hs (by cases f <;> decide)

theorem State.memoryWf_writeLabel {s : State} (value : Nat → Word) (hs : s.memoryWf = true) :
    (s.writeLabel value).memoryWf = true := by
  unfold State.writeLabel
  suffices h : ∀ (l : List Nat) (t : State), (∀ i ∈ l, i < 12) → t.memoryWf = true →
      (l.foldl (fun t i => t.writeWord .lbl (2 * i) (value i)) t).memoryWf = true from
    h _ _ (fun i hi => List.mem_range.mp hi) hs
  intro l
  induction l with
  | nil => intro t _ ht; exact ht
  | cons i l ih =>
    intro t hl ht
    rw [List.foldl_cons]
    have hi : i < 12 := hl i (List.mem_cons_self ..)
    exact ih _ (fun j hj => hl j (List.mem_cons_of_mem _ hj))
      (State.memoryWf_writeWord _ ht (show 2 * i + 1 < 24 by omega))

@[simp] theorem State.memoryWf_finish (s : State) (o : OutcomeKind) : (s.finish o).memoryWf = s.memoryWf := rfl

@[simp] theorem State.memoryWf_raise (s : State) (e : OutcomeKind) : (s.raise e).memoryWf = s.memoryWf := rfl

end Sys2Proof.Machine
end

