-- ==== Sys2Proof/Laws/FreeSpace.lean ====
section
/-! SUPPORT. What the shared steps of FSRENDER do (43_freespace_render.md R142, R146, R150 to R154): each touches nothing
but space FSP, keeps the canonical form, and has one lemma for the bytes it leaves. -/

namespace Sys2Proof.Machine

/-- A state that differs from s in the contents of FSP alone. -/
def OnlyFsp (s t : State) : Prop :=
  t = { s with fsp := t.fsp }

theorem OnlyFsp.refl (s : State) : OnlyFsp s s := rfl

theorem OnlyFsp.trans {s t u : State} (h1 : OnlyFsp s t) (h2 : OnlyFsp t u) : OnlyFsp s u := by
  unfold OnlyFsp at *
  rw [h2, h1]

theorem onlyFsp_writeByte (s : State) (o : Nat) (b : Byte) : OnlyFsp s (s.writeByte .fsp o b) := rfl

theorem onlyFsp_setFlag (s : State) (f : FspFlag) (v : Bool) : OnlyFsp s (s.setFlag f v) := rfl

theorem onlyFsp_setBit (s : State) (o b : Nat) (v : Bool) : OnlyFsp s (s.setBit .fsp o b v) := rfl

theorem onlyFsp_fspReset (s : State) : OnlyFsp s s.fspReset := by
  unfold State.fspReset State.clearDigit
  refine OnlyFsp.trans ?_ (onlyFsp_writeByte _ 14 _)
  refine OnlyFsp.trans ?_ (onlyFsp_writeByte _ 13 _)
  refine OnlyFsp.trans ?_ (onlyFsp_writeByte _ 12 _)
  refine OnlyFsp.trans ?_ (onlyFsp_setFlag _ .dp _)
  refine OnlyFsp.trans ?_ (onlyFsp_setFlag _ .freeind _)
  refine OnlyFsp.trans ?_ (onlyFsp_setFlag _ .utb _)
  refine OnlyFsp.trans ?_ (onlyFsp_setFlag _ .ugb _)
  refine OnlyFsp.trans ?_ (onlyFsp_setBit _ 7 7 _)
  refine OnlyFsp.trans ?_ (onlyFsp_setBit _ 7 6 _)
  exact OnlyFsp.trans (onlyFsp_setFlag _ .baren _) (onlyFsp_writeByte _ 6 _)

theorem onlyFsp_writeBar (s : State) (bar : Bar) : OnlyFsp s (s.writeBar bar) := rfl

theorem onlyFsp_writeDigit (s : State) (o d : Nat) : OnlyFsp s (s.writeDigit o d) := rfl

theorem onlyFsp_writeDigits (s : State) (d : Digits) : OnlyFsp s (s.writeDigits d) := by
  obtain ⟨h, t, o, p⟩ := d
  cases h <;> cases p <;> rfl

theorem onlyFsp_writeUnit (s : State) (tb : Bool) : OnlyFsp s (s.writeUnit tb) := by
  cases tb <;> rfl

/-- What a state that differs in FSP alone still holds. -/
theorem OnlyFsp.regs {s t : State} (h : OnlyFsp s t) :
    t.free = s.free ∧ t.total = s.total ∧ t.kbf = s.kbf ∧ t.tlen = s.tlen ∧ t.res = s.res ∧ t.geo = s.geo ∧
      t.llen = s.llen ∧ t.status = s.status ∧ t.pending = s.pending ∧ t.received = s.received ∧
      t.resets = s.resets := by
  unfold OnlyFsp at h
  rw [h]
  exact ⟨rfl, rfl, rfl, rfl, rfl, rfl, rfl, rfl, rfl, rfl, rfl⟩

theorem OnlyFsp.space {s t : State} (h : OnlyFsp s t) {sp : Space} (hsp : sp ≠ .fsp) : t.space sp = s.space sp := by
  unfold OnlyFsp at h
  rw [h]
  cases sp with
  | fsp => exact absurd rfl hsp
  | txt => rfl
  | lbl => rfl
  | grid => rfl

/-- A byte of FSP after a byte write there. -/
theorem readFsp_writeByte (s : State) (o o' : Nat) (b : Byte) :
    (s.writeByte .fsp o b).readByte .fsp o' = if o' = o then b else s.readByte .fsp o' := by
  rw [State.readByte_writeByte]
  simp only [true_and]

/-- A byte of FSP after SetBit there (R47). -/
theorem readFsp_setBit (s : State) (o o' b : Nat) (v : Bool) :
    (s.setBit .fsp o b v).readByte .fsp o' =
      if o' = o then setBitOf (s.readByte .fsp o) b v else s.readByte .fsp o' := by
  rw [State.readByte_setBit]
  simp only [true_and]

/-- Every byte of FSP after the reset step, by the masks of R142. -/
theorem readFsp_fspReset (s : State) (o : Nat) :
    s.fspReset.readByte .fsp o =
      if o = 4 then s.readByte .fsp 4 &&& 0x7F#8
      else if o = 6 then 0#8
      else if o = 7 then s.readByte .fsp 7 &&& 0x3F#8
      else if o = 10 then s.readByte .fsp 10 &&& 0xE9#8
      else if o = 11 then s.readByte .fsp 11 &&& 0xFD#8
      else if o = 12 ∨ o = 13 ∨ o = 14 then s.readByte .fsp o &&& 0x70#8
      else s.readByte .fsp o := by
  have c4 : ∀ x : Byte, setBitOf x 7 false = x &&& 0x7F#8 := fun x => rfl
  have c7 : ∀ x : Byte, setBitOf (setBitOf x 6 false) 7 false = x &&& 0x3F#8 := fun x => by
    unfold setBitOf; rw [if_neg (by decide), if_neg (by decide), BitVec.and_assoc]; rfl
  have c10 : ∀ x : Byte, setBitOf (setBitOf (setBitOf x 1 false) 2 false) 4 false = x &&& 0xE9#8 := fun x => by
    unfold setBitOf
    rw [if_neg (by decide), if_neg (by decide), if_neg (by decide), BitVec.and_assoc, BitVec.and_assoc]; rfl
  have c11 : ∀ x : Byte, setBitOf x 1 false = x &&& 0xFD#8 := fun x => rfl
  unfold State.fspReset State.clearDigit State.setFlag
  simp only [readFsp_writeByte, readFsp_setBit, FspFlag.offset, FspFlag.bit]
  by_cases h4 : o = 4
  · subst h4; simp [c4]
  by_cases h6 : o = 6
  · subst h6; simp
  by_cases h7 : o = 7
  · subst h7; simp [c7]
  by_cases h10 : o = 10
  · subst h10; simp [c10]
  by_cases h11 : o = 11
  · subst h11; simp [c11]
  by_cases h12 : o = 12
  · subst h12; simp
  by_cases h13 : o = 13
  · subst h13; simp
  by_cases h14 : o = 14
  · subst h14; simp
  simp [h4, h6, h7, h10, h11, h12, h13, h14]

/-- Every byte of FSP after the bar is written (R146). -/
theorem readFsp_writeBar (s : State) (bar : Bar) (o : Nat) :
    (s.writeBar bar).readByte .fsp o =
      if o = 4 then s.readByte .fsp 4 ||| 0x80#8
      else if o = 6 then bar.extractLsb' 2 8
      else if o = 7 then (s.readByte .fsp 7 &&& 0x3F#8) ||| ((bar.extractLsb' 0 2).setWidth 8 <<< 6)
      else s.readByte .fsp o := by
  have c : ∀ x : Byte, setBitOf x 7 true = x ||| 0x80#8 := fun x => rfl
  unfold State.writeBar State.setFlag
  simp only [readFsp_writeByte, readFsp_setBit, FspFlag.offset, FspFlag.bit]
  by_cases h4 : o = 4
  · subst h4; simp [c]
  by_cases h6 : o = 6
  · subst h6; simp
  by_cases h7 : o = 7
  · subst h7; simp
  simp [h4, h6, h7]

/-- A byte of FSP after a digit is written (R152). -/
theorem readFsp_writeDigit (s : State) (p d o : Nat) :
    (s.writeDigit p d).readByte .fsp o =
      if o = p then s.readByte .fsp p ||| 0x80#8 ||| BitVec.ofNat 8 d else s.readByte .fsp o := by
  unfold State.writeDigit
  rw [readFsp_writeByte]

/-- Every byte of FSP after the digit step (R150, R151, R154). -/
theorem readFsp_writeDigits (s : State) (d : Digits) (o : Nat) :
    (s.writeDigits d).readByte .fsp o =
      if o = 11 then (if d.point then s.readByte .fsp 11 ||| 0x02#8 else s.readByte .fsp 11)
      else if o = 12 then
        (match d.hundreds with
         | some h => s.readByte .fsp 12 ||| 0x80#8 ||| BitVec.ofNat 8 h
         | none   => s.readByte .fsp 12)
      else if o = 13 then s.readByte .fsp 13 ||| 0x80#8 ||| BitVec.ofNat 8 d.tens
      else if o = 14 then s.readByte .fsp 14 ||| 0x80#8 ||| BitVec.ofNat 8 d.ones
      else s.readByte .fsp o := by
  have c : ∀ x : Byte, setBitOf x 1 true = x ||| 0x02#8 := fun x => rfl
  obtain ⟨h, t, n, p⟩ := d
  have cases_o : ∀ P : Prop, (o = 11 → P) → (o = 12 → P) → (o = 13 → P) → (o = 14 → P) →
      (o ≠ 11 → o ≠ 12 → o ≠ 13 → o ≠ 14 → P) → P := by
    intro P a1 a2 a3 a4 a5
    by_cases h1 : o = 11
    · exact a1 h1
    by_cases h2 : o = 12
    · exact a2 h2
    by_cases h3 : o = 13
    · exact a3 h3
    by_cases h4 : o = 14
    · exact a4 h4
    exact a5 h1 h2 h3 h4
  cases h <;> cases p <;>
    (unfold State.writeDigits State.setFlag
     simp only [readFsp_setBit, readFsp_writeDigit, FspFlag.offset, FspFlag.bit, Bool.false_eq_true, if_false, if_true]
     refine cases_o _ ?_ ?_ ?_ ?_ ?_
     · intro e; subst e; simp [c]
     · intro e; subst e; simp
     · intro e; subst e; simp
     · intro e; subst e; simp
     · intro e1 e2 e3 e4; simp [e1, e2, e3, e4])

/-- Every byte of FSP after the flag step (R153). -/
theorem readFsp_writeUnit (s : State) (tb : Bool) (o : Nat) :
    (s.writeUnit tb).readByte .fsp o =
      if o = 10 then s.readByte .fsp 10 ||| (if tb then 0x14#8 else 0x12#8) else s.readByte .fsp o := by
  have c1 : ∀ x : Byte, setBitOf (setBitOf x 1 true) 4 true = x ||| 0x12#8 := fun x => by
    unfold setBitOf; rw [if_pos rfl, if_pos rfl, BitVec.or_assoc]; rfl
  have c2 : ∀ x : Byte, setBitOf (setBitOf x 2 true) 4 true = x ||| 0x14#8 := fun x => by
    unfold setBitOf; rw [if_pos rfl, if_pos rfl, BitVec.or_assoc]; rfl
  unfold State.writeUnit State.setFlag
  cases tb <;> by_cases h : o = 10 <;>
    simp [readFsp_setBit, FspFlag.offset, FspFlag.bit, h, c1, c2]

/-! ### The canonical form -/

theorem memoryWf_clearDigit {s : State} {o : Nat} (ho : o < 16) (hs : s.memoryWf = true) :
    (s.clearDigit o).memoryWf = true :=
  State.memoryWf_writeByte _ hs ho

theorem memoryWf_fspReset {s : State} (hs : s.memoryWf = true) : s.fspReset.memoryWf = true := by
  unfold State.fspReset
  have h1 := State.memoryWf_setFlag .baren false hs
  have h2 := State.memoryWf_writeByte (sp := .fsp) (o := 6) 0#8 h1 (by decide)
  have h3 := State.memoryWf_setBit (sp := .fsp) (o := 7) 6 false h2 (by decide)
  have h4 := State.memoryWf_setBit (sp := .fsp) (o := 7) 7 false h3 (by decide)
  have h5 := State.memoryWf_setFlag .ugb false h4
  have h6 := State.memoryWf_setFlag .utb false h5
  have h7 := State.memoryWf_setFlag .freeind false h6
  have h8 := State.memoryWf_setFlag .dp false h7
  exact memoryWf_clearDigit (by omega) (memoryWf_clearDigit (by omega) (memoryWf_clearDigit (by omega) h8))

theorem memoryWf_writeBar {s : State} (bar : Bar) (hs : s.memoryWf = true) : (s.writeBar bar).memoryWf = true :=
  State.memoryWf_setFlag _ _
    (State.memoryWf_writeByte _ (State.memoryWf_writeByte _ hs (by decide)) (by decide))

theorem memoryWf_writeDigit {s : State} {o : Nat} (d : Nat) (ho : o < 16) (hs : s.memoryWf = true) :
    (s.writeDigit o d).memoryWf = true :=
  State.memoryWf_writeByte _ hs ho

theorem memoryWf_writeDigits {s : State} (d : Digits) (hs : s.memoryWf = true) : (s.writeDigits d).memoryWf = true := by
  obtain ⟨h, t, n, p⟩ := d
  have base : ∀ u : State, u.memoryWf = true → ((u.writeDigit 13 t).writeDigit 14 n).memoryWf = true := fun u hu =>
    memoryWf_writeDigit _ (by omega) (memoryWf_writeDigit _ (by omega) hu)
  cases h with
  | none =>
    cases p
    · exact base s hs
    · exact State.memoryWf_setFlag _ _ (base s hs)
  | some d =>
    have hd := base _ (memoryWf_writeDigit (o := 12) d (by omega) hs)
    cases p
    · exact hd
    · exact State.memoryWf_setFlag _ _ hd

theorem memoryWf_writeUnit {s : State} (tb : Bool) (hs : s.memoryWf = true) : (s.writeUnit tb).memoryWf = true := by
  cases tb <;> exact State.memoryWf_setFlag _ _ (State.memoryWf_setFlag _ _ hs)

end Sys2Proof.Machine
end

