-- ==== Sys2Proof/Laws/Tables.lean ====
section
/-! SUPPORT. The constant tables: Config.glyph is an arbitrary table among those that satisfy 10_state.md R22 to R25, no more
and no less, and the character and fragment helpers of Operands.lean, one spec lemma each. -/

namespace Sys2Proof.Machine

/-- What R23 to R25 ask of a table of 14-bit masks. -/
def GlyphTableAdmissible (g : GlyphTable) : Prop :=
  (∀ j (h : j < 26), g ⟨0x41 + j, by omega⟩ = g ⟨0x21 + j, by omega⟩) ∧ g 0x08 = g 0x1C ∧ g 0x15 = g 0x33

/-- An index and the index its entry is taken from have equal entries in every admissible table. -/
theorem admissible_glyphSource {g : GlyphTable} (hg : GlyphTableAdmissible g) (k : Fin 95) :
    g (Config.glyphSource k) = g k := by
  have h1 : ∀ j, (h : j < 26) → g ⟨0x21 + j, by omega⟩ = g ⟨0x41 + j, by omega⟩ := fun j h => (hg.1 j h).symm
  have h2 := hg.2.1
  have h3 := hg.2.2
  have hs : g 0x33 = g 0x53 := h1 0x12 (by decide)
  have s53 : Config.glyphSource 0x53 = 0x15 := by decide
  by_cases hk : 0x41 ≤ k.val ∧ k.val ≤ 0x5A
  · by_cases h53 : k = 0x53
    · rw [h53, s53, h3, hs]
    · have hu := h1 (k.val - 0x41) (by omega)
      have e1 : (⟨0x41 + (k.val - 0x41), by omega⟩ : Fin 95) = k := Fin.ext (by simp; omega)
      have e2 : Config.glyphSource k = ⟨0x21 + (k.val - 0x41), by omega⟩ := by
        have n53 : k.val ≠ 0x53 := fun e => h53 (Fin.ext e)
        unfold Config.glyphSource
        simp only [hk, and_self, if_true]
        rw [if_neg (by omega), if_neg (by omega)]
        apply Fin.ext
        simp only [Fin.val_ofNat]
        omega
      rw [e2, hu]
      exact congrArg g e1
  · unfold Config.glyphSource
    simp only [hk, if_false]
    split_ifs with a b
    · rw [h2]
      exact congrArg g (Fin.ext a.symm)
    · rw [h3]
      exact congrArg g (Fin.ext b.symm)
    · apply congrArg g
      apply Fin.ext
      simp only [Fin.val_ofNat]
      have := k.isLt
      omega

/-- Every admissible table is of the form Config.glyph has, with the table itself as the free part: the form leaves no
admissible table out. -/
theorem admissible_eq_free_form {g : GlyphTable} (hg : GlyphTableAdmissible g) :
    g = fun k => g (Config.glyphSource k) :=
  funext fun k => (admissible_glyphSource hg k).symm

/-- The block's own table satisfies R23 to R25. -/
theorem admissible_glyph : GlyphTableAdmissible Config.glyph := by
  refine ⟨fun j h => ?_, rfl, rfl⟩
  unfold Config.glyph
  apply congrArg
  unfold Config.glyphSource
  apply Fin.ext
  have c : 0x41 ≤ 0x41 + j ∧ 0x41 + j ≤ 0x5A := by omega
  have d : ¬ (0x41 ≤ 0x21 + j ∧ 0x21 + j ≤ 0x5A) := by omega
  simp only [c, and_self, if_true, d, if_false]
  rw [show 0x41 + j - 0x20 = 0x21 + j by omega]

/-! ### Characters (R60) -/

theorem glyphIndex_eq_some {c : Byte} (h : 0x20 ≤ c.toNat ∧ c.toNat ≤ 0x7E) :
    glyphIndex c = some ⟨c.toNat - 0x20, by omega⟩ := by
  unfold glyphIndex
  rw [dif_pos h]

theorem glyphIndex_eq_none {c : Byte} (h : ¬ (0x20 ≤ c.toNat ∧ c.toNat ≤ 0x7E)) : glyphIndex c = none := by
  unfold glyphIndex
  rw [dif_neg h]

/-- Everything charToMask can answer. -/
theorem charToMask_cases (glyph : GlyphTable) (c : Byte) :
    (∃ h : 0x20 ≤ c.toNat ∧ c.toNat ≤ 0x7E, charToMask glyph c = some (glyph ⟨c.toNat - 0x20, by omega⟩)) ∨
    (¬ (0x20 ≤ c.toNat ∧ c.toNat ≤ 0x7E) ∧ charToMask glyph c = none) := by
  by_cases h : 0x20 ≤ c.toNat ∧ c.toNat ≤ 0x7E
  · exact Or.inl ⟨h, by rw [charToMask, glyphIndex_eq_some h, Option.map_some]⟩
  · exact Or.inr ⟨h, by rw [charToMask, glyphIndex_eq_none h, Option.map_none]⟩

/-! ### Fragments (R27, R70) -/

theorem fragment_flen_pos (f : Fragment) : 1 ≤ Fragment.flen f := by
  cases f <;> simp [Fragment.flen, Fragment.chars]

theorem fragment_flen_le (f : Fragment) : Fragment.flen f ≤ 3 := by
  cases f <;> simp [Fragment.flen, Fragment.chars]

/-- A fragment character is a code 0x20 to 0x7E (R27). -/
theorem printableCode_range (p : Printable) : 0x20 ≤ (printableCode p).toNat ∧ (printableCode p).toNat ≤ 0x7E := by
  have := p.isLt
  unfold printableCode
  rw [BitVec.toNat_ofNat, Nat.mod_eq_of_lt (by omega)]
  omega

theorem printableCode_ne_zero (p : Printable) : printableCode p ≠ 0#8 := by
  intro h
  have := (printableCode_range p).1
  rw [h] at this
  exact absurd this (by decide)

theorem fragment_chars_ne_zero (f : Fragment) {c : Byte} (hc : c ∈ Fragment.chars f) : c ≠ 0#8 := by
  cases f <;> simp only [Fragment.chars, List.mem_cons, List.not_mem_nil, or_false] at hc
  · rw [hc]; exact printableCode_ne_zero _
  · rcases hc with h | h <;> (rw [h]; exact printableCode_ne_zero _)
  · rcases hc with h | h | h <;> (rw [h]; exact printableCode_ne_zero _)

end Sys2Proof.Machine
end

