-- ==== Sys2Proof/Laws/Label.lean ====
section
/-! SUPPORT. What the shared parts of the label encoders can answer (41_label_encode.md R110 to R122). -/

namespace Sys2Proof.Machine

/-- A text is encoded exactly when every character is supported, and then to the masks of its characters in order. -/
theorem encodeChars_ok_iff (glyph : GlyphTable) (cs : List Byte) (ms : List Mask) :
    encodeChars glyph cs = .ok ms ↔ cs.map (charToMask glyph) = ms.map some := by
  induction cs generalizing ms with
  | nil => cases ms <;> simp [encodeChars]
  | cons c cs ih =>
    rw [encodeChars]
    cases hc : charToMask glyph c with
    | none => cases ms <;> simp [hc]
    | some m =>
      cases hr : encodeChars glyph cs with
      | error e =>
        cases ms with
        | nil => simp
        | cons m' ms' =>
          have := ih ms'
          rw [hr] at this
          simp only [reduceCtorEq, false_iff] at this
          simp [this]
      | ok rs =>
        have h1 := (ih rs).mp hr
        cases ms with
        | nil => simp
        | cons m' ms' =>
          simp only [Except.ok.injEq, List.cons.injEq, List.map_cons, hc, Option.some.injEq, h1]
          have : rs.map some = ms'.map some ↔ rs = ms' :=
            (List.map_injective_iff.mpr (Option.some_injective _)).eq_iff
          rw [this]

/-- The only error of a text is UnsupportedChar, and it needs an unsupported character. -/
theorem encodeChars_error (glyph : GlyphTable) (cs : List Byte) (e : OutcomeKind) (h : encodeChars glyph cs = .error e) :
    e = .unsupportedChar ∧ ∃ c ∈ cs, charToMask glyph c = none := by
  induction cs with
  | nil => simp [encodeChars] at h
  | cons c cs ih =>
    rw [encodeChars] at h
    cases hc : charToMask glyph c with
    | none =>
      rw [hc] at h
      simp only [Except.error.injEq] at h
      exact ⟨h.symm, c, List.mem_cons_self .., hc⟩
    | some m =>
      rw [hc] at h
      cases hr : encodeChars glyph cs with
      | ok ms => rw [hr] at h; simp at h
      | error e' =>
        rw [hr] at h
        simp only [Except.error.injEq] at h
        subst h
        obtain ⟨h1, c', h2, h3⟩ := ih hr
        exact ⟨h1, c', List.mem_cons_of_mem _ h2, h3⟩

/-- Everything one group of ENCRAW can answer (R120). -/
theorem encodeGroup_cases (g : RawGroup) :
    (RawGroup.value g = none ∧ encodeGroup g = .error .notHex) ∨
    (∃ v, RawGroup.value g = some v ∧ v > 0x3FFF ∧ encodeGroup g = .error .outOfRange) ∨
    (∃ v, RawGroup.value g = some v ∧ v ≤ 0x3FFF ∧ encodeGroup g = .ok (BitVec.ofNat 14 v)) := by
  unfold encodeGroup
  cases hv : RawGroup.value g with
  | none => exact Or.inl ⟨rfl, rfl⟩
  | some v =>
    by_cases h : v > 0x3FFF
    · exact Or.inr (Or.inl ⟨v, rfl, h, by simp only [if_pos h]⟩)
    · exact Or.inr (Or.inr ⟨v, rfl, by omega, by simp only [if_neg h]⟩)

/-- Groups are encoded exactly when each is, and then to their masks in order. -/
theorem encodeGroups_ok_iff (gs : List RawGroup) (ms : List Mask) :
    encodeGroups gs = .ok ms ↔ gs.map encodeGroup = ms.map Except.ok := by
  induction gs generalizing ms with
  | nil => cases ms <;> simp [encodeGroups]
  | cons g gs ih =>
    rw [encodeGroups]
    cases hg : encodeGroup g with
    | error e => cases ms <;> simp [hg]
    | ok m =>
      cases hr : encodeGroups gs with
      | error e =>
        cases ms with
        | nil => simp
        | cons m' ms' =>
          have := ih ms'
          rw [hr] at this
          simp only [reduceCtorEq, false_iff] at this
          simp [this]
      | ok rs =>
        have h1 := (ih rs).mp hr
        cases ms with
        | nil => simp
        | cons m' ms' =>
          simp only [Except.ok.injEq, List.cons.injEq, List.map_cons, hg, h1]
          have : rs.map (Except.ok (ε := OutcomeKind)) = ms'.map Except.ok ↔ rs = ms' :=
            (List.map_injective_iff.mpr (fun a b h => Except.ok.inj h)).eq_iff
          rw [this]

/-- The error of some groups is that of the first group that has one (R122). -/
theorem encodeGroups_error (gs : List RawGroup) (e : OutcomeKind) (h : encodeGroups gs = .error e) :
    ∃ pre g post, gs = pre ++ g :: post ∧ encodeGroup g = .error e ∧ ∀ p ∈ pre, ∃ m, encodeGroup p = .ok m := by
  induction gs with
  | nil => simp [encodeGroups] at h
  | cons g gs ih =>
    rw [encodeGroups] at h
    cases hg : encodeGroup g with
    | error e' =>
      rw [hg] at h
      simp only [Except.error.injEq] at h
      subst h
      exact ⟨[], g, gs, rfl, hg, fun p hp => absurd hp (List.not_mem_nil)⟩
    | ok m =>
      rw [hg] at h
      cases hr : encodeGroups gs with
      | ok ms => rw [hr] at h; simp at h
      | error e' =>
        rw [hr] at h
        simp only [Except.error.injEq] at h
        subst h
        obtain ⟨pre, g', post, h1, h2, h3⟩ := ih hr
        refine ⟨g :: pre, g', post, by rw [h1]; rfl, h2, fun p hp => ?_⟩
        rcases List.mem_cons.mp hp with rfl | hp
        · exact ⟨m, hg⟩
        · exact h3 p hp

/-- Everything the end of an encoder can answer. -/
theorem storeLabel_cases (r : Except OutcomeKind (List Mask)) (s : State) :
    (∃ e, r = .error e ∧ storeLabel r s = .next (s.raise e)) ∨
    (∃ ms, r = .ok ms ∧ storeLabel r s = .next ((s.writeLabel (slotValue ms)).finish .ok)) := by
  cases r with
  | error e => exact Or.inl ⟨e, rfl, rfl⟩
  | ok ms => exact Or.inr ⟨ms, rfl, rfl⟩

/-- A slot value has bits 15:14 clear (R61). -/
theorem slotValue_lt (ms : List Mask) (i : Nat) : (slotValue ms i).toNat < 2 ^ 14 := by
  unfold slotValue
  rw [BitVec.toNat_setWidth_of_le (by decide)]
  exact (ms.getD i 0#14).isLt

/-- A slot after the last mask receives 0x0000 (R113, R121). -/
theorem slotValue_of_length_le {ms : List Mask} {i : Nat} (h : ms.length ≤ i) : slotValue ms i = 0#16 := by
  unfold slotValue
  rw [List.getD_eq_default _ _ h]
  rfl

end Sys2Proof.Machine
end

