-- ==== Sys2Proof/Laws/Render.lean ====
section
/-! SUPPORT. What the shared parts of DECRENDER do to the grid (42_label_render.md R130 to R136): the background, one
stamp, and the canonical form. -/

namespace Sys2Proof.Machine

/-- The background is 0x20 in all 365 places (R134). -/
theorem read_blankGrid (a : Nat) : Memory.read blankGrid a = if a < 365 then 0x20#8 else 0#8 := by
  have key : ∀ lo len, Memory.read ((List.range' lo len).map fun o => (o, 0x20#8)) a =
      if lo ≤ a ∧ a < lo + len then 0x20#8 else 0#8 := by
    intro lo len
    induction len generalizing lo with
    | zero => rw [if_neg (by omega)]; rfl
    | succ len ih =>
      rw [List.range'_succ, List.map_cons, Memory.read, ih]
      by_cases h : lo = a
      · rw [if_pos h, if_pos (by omega)]
      · rw [if_neg h]
        have : (lo + 1 ≤ a ∧ a < lo + 1 + len) ↔ (lo ≤ a ∧ a < lo + (len + 1)) := by omega
        simp only [this]
  unfold blankGrid
  rw [List.range_eq_range', key]
  simp

theorem wf_blankGrid : Memory.wf (Space.size .grid) blankGrid = true := by
  have key : ∀ lo len, lo + len ≤ 365 →
      Memory.canonicalFrom 365 lo ((List.range' lo len).map fun o => (o, 0x20#8)) = true := by
    intro lo len
    induction len generalizing lo with
    | zero => intro _; rfl
    | succ len ih =>
      intro h
      rw [List.range'_succ, List.map_cons, Memory.canonicalFrom, ih (lo + 1) (by omega)]
      simp
      omega
  unfold blankGrid Memory.wf
  rw [List.range_eq_range']
  exact key 0 365 (by omega)

/-- Everything a stamp of characters does: it writes them at consecutive places and leaves every other place (R133). -/
theorem read_stampChars (r x : Nat) (cs : List Byte) (m : Memory) (a : Nat) :
    Memory.read (stampChars r x cs m) a =
      if gridOffset r x ≤ a ∧ a < gridOffset r x + cs.length then cs.getD (a - gridOffset r x) 0#8
      else Memory.read m a := by
  induction cs generalizing x m with
  | nil =>
    rw [if_neg (by simp)]
    rfl
  | cons c cs ih =>
    rw [stampChars, ih, Memory.read_write]
    have hg : gridOffset r (x + 1) = gridOffset r x + 1 := by unfold gridOffset; omega
    rw [hg, List.length_cons]
    by_cases h0 : a = gridOffset r x
    · subst h0
      rw [if_neg (by omega), if_pos rfl, if_pos (by omega), Nat.sub_self]
      rfl
    · rw [if_neg h0]
      by_cases h1 : gridOffset r x + 1 ≤ a ∧ a < gridOffset r x + 1 + cs.length
      · rw [if_pos h1, if_pos (by omega), show a - gridOffset r x = (a - (gridOffset r x + 1)) + 1 by omega]
        rfl
      · rw [if_neg h1, if_neg (by omega)]

theorem wf_stampChars {r x : Nat} {cs : List Byte} {m : Memory} (h : gridOffset r x + cs.length ≤ 365)
    (hm : Memory.wf (Space.size .grid) m = true) : Memory.wf (Space.size .grid) (stampChars r x cs m) = true := by
  induction cs generalizing x m with
  | nil => exact hm
  | cons c cs ih =>
    rw [List.length_cons] at h
    have hlt : gridOffset r x < 365 := by omega
    exact ih (by unfold gridOffset at *; omega) (Memory.wf_write hlt hm)

/-- No stamp of the twelve slots leaves the grid: the highest column is 72 (R43, R133). -/
theorem wf_stampEntry (g : GeomEntry) {slot : Nat} {m : Memory} (hs : slot < 12)
    (hm : Memory.wf (Space.size .grid) m = true) : Memory.wf (Space.size .grid) (stampEntry g slot m) = true := by
  refine wf_stampChars ?_ hm
  have h1 := g.row.isLt
  have h2 := g.col.isLt
  have h3 : (Fragment.chars g.frag).length ≤ 3 := fragment_flen_le g.frag
  unfold gridOffset
  omega

theorem wf_stampSlot (geom : GeomTable) {slot : Nat} (w : Word) {m : Memory} (hs : slot < 12)
    (hm : Memory.wf (Space.size .grid) m = true) : Memory.wf (Space.size .grid) (stampSlot geom slot w m) = true := by
  unfold stampSlot
  split_ifs
  · exact hm
  · generalize segmentBits = bs
    induction bs generalizing m with
    | nil => exact hm
    | cons b bs ih =>
      rw [stampBits]
      refine ih ?_
      split_ifs
      · exact wf_stampEntry _ hs hm
      · exact hm

theorem wf_stampSlots (geom : GeomTable) (value : Nat → Word) {is : List Nat} {m : Memory} (hs : ∀ i ∈ is, i < 12)
    (hm : Memory.wf (Space.size .grid) m = true) :
    Memory.wf (Space.size .grid) (stampSlots geom value is m) = true := by
  induction is generalizing m with
  | nil => exact hm
  | cons i is ih =>
    exact ih (fun j hj => hs j (List.mem_cons_of_mem _ hj)) (wf_stampSlot geom _ (hs i (List.mem_cons_self ..)) hm)

/-- The terminator column is 0, or 6 * i + 5 for a slot i that is not blank. -/
theorem terminatorColumn_cases (value : Nat → Word) (is : List Nat) (l : Nat) :
    terminatorColumn value is l = l ∨ ∃ i ∈ is, value i ≠ 0#16 ∧ terminatorColumn value is l = 6 * i + 5 := by
  induction is generalizing l with
  | nil => exact Or.inl rfl
  | cons i is ih =>
    rw [terminatorColumn]
    by_cases h : value i = 0#16
    · rw [if_pos h]
      rcases ih l with h' | ⟨j, hj, h1, h2⟩
      · exact Or.inl h'
      · exact Or.inr ⟨j, List.mem_cons_of_mem _ hj, h1, h2⟩
    · rw [if_neg h]
      rcases ih (6 * i + 5) with h' | ⟨j, hj, h1, h2⟩
      · exact Or.inr ⟨i, List.mem_cons_self .., h, h'⟩
      · exact Or.inr ⟨j, List.mem_cons_of_mem _ hj, h1, h2⟩

/-- LLEN holds the terminator column whole: it is at most 71 (R14, R136). -/
theorem terminatorColumn_le (value : Nat → Word) : terminatorColumn value (List.range 12) 0 ≤ 71 := by
  rcases terminatorColumn_cases value (List.range 12) 0 with h | ⟨i, hi, -, h⟩
  · omega
  · rw [List.mem_range] at hi
    omega

/-- A state whose grid and line length DECRENDER has replaced. -/
theorem memoryWf_withGrid {s : State} {m : Memory} (l : BitVec 7) (hs : s.memoryWf = true)
    (hm : Memory.wf (Space.size .grid) m = true) : ({ s with grid := m, llen := l } : State).memoryWf = true := by
  rw [State.memoryWf_iff] at hs ⊢
  intro sp
  cases sp with
  | grid => exact hm
  | txt => exact hs .txt
  | lbl => exact hs .lbl
  | fsp => exact hs .fsp

end Sys2Proof.Machine
end

