-- ==== Sys2Proof/Laws/Exec.lean ====
section
/-! SUPPORT. One inversion lemma for each operation: everything it can answer, said once, so that a proof about all
operations cites these and unfolds none. -/

namespace Sys2Proof.Machine

/-- Everything CHARMASK can do (R100). -/
theorem execCharmask_cases (c : Byte) (s : State) :
    (∃ m, charToMask Config.glyph c = some m ∧
      execCharmask c s = .next (({ s with res := m.setWidth 16 } : State).finish .ok)) ∨
    (charToMask Config.glyph c = none ∧ execCharmask c s = .next (s.raise .unsupportedChar)) := by
  unfold execCharmask charmaskWith
  cases h : charToMask Config.glyph c with
  | none => exact Or.inr ⟨rfl, rfl⟩
  | some m => exact Or.inl ⟨m, rfl, rfl⟩

/-- Everything SEGGEOM can do (R103, R104). -/
theorem execSeggeom_cases (b : BitVec 4) (s : State) :
    (∃ h : b.toNat < 14,
      execSeggeom b s = .next (({ s with geo := packGeom (Config.geom ⟨b.toNat, h⟩) } : State).finish .ok)) ∨
    (14 ≤ b.toNat ∧ execSeggeom b s = .next (s.raise .badOperand)) := by
  unfold execSeggeom seggeomWith
  by_cases h : b.toNat < 14
  · exact Or.inl ⟨h, by rw [dif_pos h]⟩
  · exact Or.inr ⟨by omega, by rw [dif_neg h]⟩

/-- Everything ENCTEXT can do (R110, R111). -/
theorem execEnctext_cases (s : State) :
    (12 < s.tlen.toNat ∧ execEnctext s = .next (s.raise .tooLong)) ∨
    (s.tlen.toNat ≤ 12 ∧ encodeChars Config.glyph (s.inputChars s.tlen.toNat) = .error .unsupportedChar ∧
      execEnctext s = .next (s.raise .unsupportedChar)) ∨
    (∃ ms, s.tlen.toNat ≤ 12 ∧ encodeChars Config.glyph (s.inputChars s.tlen.toNat) = .ok ms ∧
      execEnctext s = .next ((s.writeLabel (slotValue ms)).finish .ok)) := by
  unfold execEnctext enctextWith
  by_cases h : s.tlen.toNat > 12
  · exact Or.inl ⟨h, by rw [if_pos h]⟩
  · rw [if_neg h]
    cases hr : encodeChars Config.glyph (s.inputChars s.tlen.toNat) with
    | error e =>
      obtain ⟨rfl, -⟩ := encodeChars_error _ _ _ hr
      exact Or.inr (Or.inl ⟨by omega, rfl, rfl⟩)
    | ok ms => exact Or.inr (Or.inr ⟨ms, by omega, rfl, rfl⟩)

/-- Everything ENCRAW can do (R116 to R122). -/
theorem execEncraw_cases (s : State) :
    (96 < s.tlen.toNat ∧ execEncraw s = .next (s.raise .tooLong)) ∨
    (s.tlen.toNat ≤ 96 ∧ s.tlen.toNat % 4 ≠ 0 ∧ execEncraw s = .next (s.raise .badLength)) ∨
    (s.tlen.toNat ≤ 96 ∧ s.tlen.toNat % 4 = 0 ∧ 12 < s.tlen.toNat / 4 ∧
      execEncraw s = .refused .rawGroupsBeyondLabel) ∨
    (∃ e, s.tlen.toNat ≤ 48 ∧ s.tlen.toNat % 4 = 0 ∧ (e = .notHex ∨ e = .outOfRange) ∧
      encodeGroups (s.rawGroups (s.tlen.toNat / 4)) = .error e ∧ execEncraw s = .next (s.raise e)) ∨
    (∃ ms, s.tlen.toNat ≤ 48 ∧ s.tlen.toNat % 4 = 0 ∧ encodeGroups (s.rawGroups (s.tlen.toNat / 4)) = .ok ms ∧
      execEncraw s = .next ((s.writeLabel (slotValue ms)).finish .ok)) := by
  unfold execEncraw
  by_cases h1 : s.tlen.toNat > 96
  · exact Or.inl ⟨h1, by rw [if_pos h1]⟩
  rw [if_neg h1]
  by_cases h2 : s.tlen.toNat % 4 ≠ 0
  · exact Or.inr (Or.inl ⟨by omega, h2, by rw [if_pos h2]⟩)
  rw [if_neg h2]
  by_cases h3 : s.tlen.toNat / 4 > 12
  · exact Or.inr (Or.inr (Or.inl ⟨by omega, by omega, h3, by rw [if_pos h3]⟩))
  rw [if_neg h3]
  cases hr : encodeGroups (s.rawGroups (s.tlen.toNat / 4)) with
  | error e =>
    have he : e = .notHex ∨ e = .outOfRange := by
      obtain ⟨_, g, _, _, hg, _⟩ := encodeGroups_error _ _ hr
      rcases encodeGroup_cases g with ⟨_, h⟩ | ⟨_, _, _, h⟩ | ⟨_, _, _, h⟩ <;> rw [h] at hg
      · exact Or.inl (Except.error.inj hg).symm
      · exact Or.inr (Except.error.inj hg).symm
      · exact absurd hg (by simp)
    exact Or.inr (Or.inr (Or.inr (Or.inl ⟨e, by omega, by omega, he, rfl, rfl⟩)))
  | ok ms => exact Or.inr (Or.inr (Or.inr (Or.inr ⟨ms, by omega, by omega, rfl, rfl⟩)))

/-- What DECRENDER does (R130). -/
theorem execDecrender_eq (s : State) :
    execDecrender s = .next (({ s with
      grid := stampSlots Config.geom s.slot (List.range 12) blankGrid
      llen := BitVec.ofNat 7 (terminatorColumn s.slot (List.range 12) 0) } : State).finish .ok) := rfl

/-- Everything FSRENDER can do (R140). -/
theorem execFsrender_cases (s : State) :
    (s.totalCount = 0 ∧ execFsrender s = .next (s.fspReset.finish .cleared)) ∨
    (s.totalCount ≠ 0 ∧ s.unitFactor = 0 ∧ execFsrender s = .refused .zeroUnitFactor) ∨
    (s.totalCount ≠ 0 ∧ s.unitFactor ≠ 0 ∧ s.totalCount < s.freeCount ∧ execFsrender s = .refused .freeAboveTotal) ∨
    (s.totalCount ≠ 0 ∧ s.unitFactor ≠ 0 ∧ s.freeCount ≤ s.totalCount ∧
      displayOverflows s.freeCount s.unitFactor = true ∧
      execFsrender s = .next ((s.fspReset.writeBar (barOf (segmentsUsed s.freeCount s.totalCount))).raise
        .displayOverflow)) ∨
    (s.totalCount ≠ 0 ∧ s.unitFactor ≠ 0 ∧ s.freeCount ≤ s.totalCount ∧
      displayOverflows s.freeCount s.unitFactor = false ∧
      execFsrender s = .next ((((s.fspReset.writeBar (barOf (segmentsUsed s.freeCount s.totalCount))).writeDigits
        (displayDigits s.freeCount (displayDivisor s.freeCount s.unitFactor))).writeUnit
        (tbMode s.freeCount s.unitFactor)).finish .ok)) := by
  unfold execFsrender
  by_cases h1 : s.totalCount = 0
  · exact Or.inl ⟨h1, by simp only [if_pos h1]⟩
  by_cases h2 : s.unitFactor = 0
  · exact Or.inr (Or.inl ⟨h1, h2, by simp only [if_neg h1, if_pos h2]⟩)
  by_cases h3 : s.freeCount > s.totalCount
  · exact Or.inr (Or.inr (Or.inl ⟨h1, h2, h3, by simp only [if_neg h1, if_neg h2, if_pos h3]⟩))
  cases h4 : displayOverflows s.freeCount s.unitFactor with
  | true =>
    exact Or.inr (Or.inr (Or.inr (Or.inl ⟨h1, h2, by omega, rfl, by
      simp only [if_neg h1, if_neg h2, if_neg h3, h4, if_true]⟩)))
  | false =>
    exact Or.inr (Or.inr (Or.inr (Or.inr ⟨h1, h2, by omega, rfl, by
      simp only [if_neg h1, if_neg h2, if_neg h3, h4, Bool.false_eq_true, if_false]⟩)))

end Sys2Proof.Machine
end

