-- ==== Sys2Proof/Laws/HostActs.lean ====
section
/-! SUPPORT. What the host's actions and a step can do, said once (20_memory.md R44, 30_encoding.md R82). -/

namespace Sys2Proof.Machine

/-! ### The bounds of the spaces (R40 to R43) -/

theorem address_txt (o : Nat) : Loc.address (.txt o) = if o < 96 then some (.txt, o) else none := rfl

theorem address_lbl (o : Nat) : Loc.address (.lbl o) = if o < 24 then some (.lbl, o) else none := rfl

theorem address_fsp (o : Nat) : Loc.address (.fsp o) = if o < 16 then some (.fsp, o) else none := rfl

theorem address_grid (r x : Nat) :
    Loc.address (.grid r x) = if r < 5 ∧ x < 73 then some (.grid, gridOffset r x) else none := rfl

/-- A location that has an address lies inside its space (R40 to R44). -/
theorem address_lt_size {l : Loc} {sp : Space} {o : Nat} (h : Loc.address l = some (sp, o)) : o < sp.size := by
  cases l with
  | txt a =>
    simp only [Loc.address] at h
    split_ifs at h with hc
    obtain ⟨rfl, rfl⟩ := Prod.mk.inj (Option.some.inj h)
    exact hc
  | lbl a =>
    simp only [Loc.address] at h
    split_ifs at h with hc
    obtain ⟨rfl, rfl⟩ := Prod.mk.inj (Option.some.inj h)
    exact hc
  | fsp a =>
    simp only [Loc.address] at h
    split_ifs at h with hc
    obtain ⟨rfl, rfl⟩ := Prod.mk.inj (Option.some.inj h)
    exact hc
  | grid r x =>
    simp only [Loc.address] at h
    split_ifs at h with hc
    obtain ⟨rfl, rfl⟩ := Prod.mk.inj (Option.some.inj h)
    show 73 * r + x < 365
    omega

/-- Everything a command word can do: run the operation it decodes to, or write STATUS (R82). -/
theorem issueCommand_cases (w : Word) (s : State) :
    (∃ i, decode w = .ok i ∧ issueCommand w s = exec i s) ∨
    (∃ e, decode w = .error e ∧ issueCommand w s = .next (s.raise .illegalCommand)) := by
  unfold issueCommand
  cases h : decode w with
  | ok i => exact Or.inl ⟨i, rfl, rfl⟩
  | error e => exact Or.inr ⟨e, rfl, rfl⟩

/-- Everything a host write can do (R44). -/
theorem hostPut_cases (l : Loc) (b : Byte) (s : State) :
    (Loc.address l = none ∧ hostPut l b s = .refused .accessOutsideSpace) ∨
    (∃ o, Loc.address l = some (.grid, o) ∧ hostPut l b s = .refused .hostWriteToGrid) ∨
    (∃ sp o, Loc.address l = some (sp, o) ∧ sp ≠ .grid ∧ hostPut l b s = .next (s.writeByte sp o b)) := by
  unfold hostPut
  cases h : Loc.address l with
  | none => exact Or.inl ⟨rfl, rfl⟩
  | some p =>
    obtain ⟨sp, o⟩ := p
    cases sp with
    | grid => exact Or.inr (Or.inl ⟨o, rfl, rfl⟩)
    | txt => exact Or.inr (Or.inr ⟨.txt, o, rfl, by decide, rfl⟩)
    | lbl => exact Or.inr (Or.inr ⟨.lbl, o, rfl, by decide, rfl⟩)
    | fsp => exact Or.inr (Or.inr ⟨.fsp, o, rfl, by decide, rfl⟩)

/-- Everything a host read can do (R44). -/
theorem hostGet_cases (l : Loc) (s : State) :
    (Loc.address l = none ∧ hostGet l s = .refused .accessOutsideSpace) ∨
    (∃ sp o, Loc.address l = some (sp, o) ∧ hostGet l s = .next (s.receive ((s.readByte sp o).setWidth 64))) := by
  unfold hostGet
  cases h : Loc.address l with
  | none => exact Or.inl ⟨rfl, rfl⟩
  | some p => exact Or.inr ⟨p.1, p.2, rfl, rfl⟩

/-- A step that has an action to perform performs it. -/
theorem step_of_pending {s : State} {a : HostAction} {rest : List HostAction} (h : s.pending = a :: rest) :
    step s = hostAct a { s with pending := rest } := by
  unfold step
  rw [h]

/-- The canonical form after a reset event: its contents are tabulated. -/
theorem memoryWf_resetEvent (s : State) : s.resetEvent.memoryWf = true := by
  rw [State.memoryWf_iff]
  intro sp
  cases sp <;> exact Memory.wf_tabulate _ _

end Sys2Proof.Machine
end

