-- ==== Sys2Proof/Laws/HostOps.lean ====
section
/-! SUPPORT. What the host's runs of actions do, said once: runs in sequence, the writes that bring a string or a payload into
the block, and the ends of a page operation (44_host_page_operations.md R180 to R182). -/

namespace Sys2Proof.Machine

/-! ### Runs of actions -/

@[simp] theorem runActions_nil (s : State) : runActions [] s = { state := s, refused := none } := rfl

/-- An action that has a next state is performed, and the run goes on from there. -/
theorem runActions_cons_next {a : HostAction} {as : List HostAction} {s t : State} (h : hostAct a s = .next t) :
    runActions (a :: as) s = runActions as t := by
  rw [runActions, h]

/-- A refused action ends the run in the state it was refused in (entry 27). -/
theorem runActions_cons_refused {a : HostAction} {as : List HostAction} {s : State} {e : Refusal}
    (h : hostAct a s = .refused e) : runActions (a :: as) s = { state := s, refused := some e } := by
  rw [runActions, h]

/-- Two runs in sequence, when the first is not refused. -/
theorem runActions_append {as bs : List HostAction} {s t : State}
    (h : runActions as s = { state := t, refused := none }) : runActions (as ++ bs) s = runActions bs t := by
  induction as generalizing s with
  | nil =>
    rw [runActions_nil, ActionsRun.mk.injEq] at h
    rw [List.nil_append, h.1]
  | cons a as ih =>
    rw [List.cons_append]
    cases ha : hostAct a s with
    | next u =>
      rw [runActions_cons_next ha] at h ⊢
      exact ih h
    | fault f => nomatch f
    | refused e =>
      rw [runActions_cons_refused ha] at h
      simp at h

/-- The command of an operation runs the operation. -/
theorem runActions_command {i : Instr} {s t : State} (hd : decode (encode i) = .ok i) (h : exec i s = .next t) :
    runActions [.command (encode i)] s = { state := t, refused := none } := by
  rw [runActions_cons_next (t := t), runActions_nil]
  rw [hostAct, issueCommand, hd]
  exact h

/-! ### Bytes written by the host -/

/-- Everything but the bytes of one space is unchanged. -/
structure BytesWritten (sp : Space) (s t : State) : Prop where
  operands : OperandRegsKept s t
  results  : ResultRegsKept s t
  host     : HostKept s t
  status   : t.status = s.status

/-- A run of writes at consecutive offsets of a space: no write is refused, the bytes read back, and nothing else changes
(R44, R85). -/
theorem runActions_puts {at' : Nat → Loc} {sp : Space} (hsp : sp ≠ .grid)
    (hat : ∀ o, o < sp.size → Loc.address (at' o) = some (sp, o)) (bytes : List Byte) (o n : Nat) (s : State)
    (hb : o + n + bytes.length ≤ sp.size) :
    ∃ t, runActions ((bytes.zipIdx n).map fun p => HostAction.put (at' (o + p.2)) p.1) s = { state := t, refused := none } ∧
      BytesWritten sp s t ∧
      ∀ sp' x, t.readByte sp' x =
        if sp' = sp ∧ o + n ≤ x ∧ x < o + n + bytes.length then bytes.getD (x - (o + n)) 0#8 else s.readByte sp' x := by
  induction bytes generalizing n s with
  | nil =>
    refine ⟨s, rfl, ⟨⟨rfl, rfl, rfl, rfl⟩, ⟨rfl, rfl, rfl⟩, ⟨rfl, rfl, rfl⟩, rfl⟩, fun sp' x => ?_⟩
    rw [if_neg]
    simp only [List.length_nil]
    omega
  | cons b bs ih =>
    simp only [List.length_cons] at hb
    have hput : hostAct (.put (at' (o + n)) b) s = .next (s.writeByte sp (o + n) b) := by
      rcases hostPut_cases (at' (o + n)) b s with ⟨h, -⟩ | ⟨o', h, -⟩ | ⟨sp', o', h, -, h'⟩
      · rw [hat _ (by omega)] at h; cases h
      · rw [hat _ (by omega)] at h; cases h; exact absurd rfl hsp
      · rw [hat _ (by omega)] at h; cases h; exact h'
    obtain ⟨t, ht, hk, hr⟩ := ih (n + 1) (s.writeByte sp (o + n) b) (by omega)
    refine ⟨t, ?_, ?_, fun sp' x => ?_⟩
    · rw [List.zipIdx_cons, List.map_cons, runActions_cons_next hput]
      exact ht
    · obtain ⟨⟨a1, a2, a3, a4⟩, ⟨b1, b2, b3⟩, ⟨c1, c2, c3⟩, d⟩ := hk
      simp only [State.writeByte_free, State.writeByte_total, State.writeByte_kbf, State.writeByte_tlen,
        State.writeByte_res, State.writeByte_geo, State.writeByte_llen, State.writeByte_status,
        State.writeByte_pending, State.writeByte_received, State.writeByte_resets] at a1 a2 a3 a4 b1 b2 b3 c1 c2 c3 d
      exact ⟨⟨a1, a2, a3, a4⟩, ⟨b1, b2, b3⟩, ⟨c1, c2, c3⟩, d⟩
    · rw [hr sp' x, State.readByte_writeByte, List.length_cons]
      by_cases h0 : sp' = sp ∧ x = o + n
      · rw [if_neg (by omega), if_pos h0, if_pos ⟨h0.1, by omega, by omega⟩]
        simp [h0.2]
      · rw [if_neg h0]
        by_cases h1 : sp' = sp ∧ o + (n + 1) ≤ x ∧ x < o + (n + 1) + bs.length
        · rw [if_pos h1, if_pos ⟨h1.1, by omega, by omega⟩,
            show x - (o + n) = (x - (o + (n + 1))) + 1 by omega, List.getD_cons_succ]
        · rw [if_neg h1, if_neg]
          rintro ⟨h2, h3, h4⟩
          exact h1 ⟨h2, by
            rcases Nat.eq_or_lt_of_le h3 with h | h
            · exact absurd ⟨h2, h.symm⟩ h0
            · omega, by omega⟩

/-- The host's copy of a page's label or payload into its space (R181 (3), R182 (2)). -/
theorem runActions_putBytes {at' : Nat → Loc} {sp : Space} (hsp : sp ≠ .grid)
    (hat : ∀ o, o < sp.size → Loc.address (at' o) = some (sp, o)) (bytes : List Byte) (s : State)
    (hb : bytes.length ≤ sp.size) :
    ∃ t, runActions (putBytes at' 0 bytes) s = { state := t, refused := none } ∧ BytesWritten sp s t ∧
      ∀ sp' x, t.readByte sp' x =
        if sp' = sp ∧ x < bytes.length then bytes.getD x 0#8 else s.readByte sp' x := by
  obtain ⟨t, ht, hk, hr⟩ := runActions_puts hsp hat bytes 0 0 s (by omega)
  exact ⟨t, ht, hk, fun sp' x => by simpa using hr sp' x⟩

/-- A string presented to the block: TLEN is its length, 255 for a longer one, TXT begins with what TXT can hold of it, and
nothing else changes (R40). -/
theorem runActions_presentText (chars : List Byte) (s : State) :
    ∃ t, runActions (presentText chars) s = { state := t, refused := none } ∧
      t.tlen.toNat = min chars.length 255 ∧ (∀ x, x < chars.length → x < 96 → t.readByte .txt x = chars.getD x 0#8) ∧
      (∀ sp x, sp ≠ .txt → t.readByte sp x = s.readByte sp x) ∧
      t.free = s.free ∧ t.total = s.total ∧ t.kbf = s.kbf ∧ ResultRegsKept s t ∧ HostKept s t ∧ t.status = s.status := by
  obtain ⟨t, ht, ⟨⟨a1, a2, a3, -⟩, hres, hhost, hst⟩, hr⟩ :=
    runActions_puts (at' := Loc.txt) (sp := .txt) (by decide)
      (fun o ho => by simp only [Loc.address, if_pos ho]) (chars.take 96) 0 0 s
      (by simp only [List.length_take, Space.size]; omega)
  refine ⟨{ t with tlen := BitVec.ofNat 8 (min chars.length 255) }, ?_, ?_, fun x h1 h2 => ?_, fun sp x hsp => ?_,
    a1, a2, a3, hres, hhost, hst⟩
  · have h0 : ((chars.take 96).zipIdx.map fun p => HostAction.put (.txt p.2) p.1) =
        ((chars.take 96).zipIdx.map fun p => HostAction.put (.txt (0 + p.2)) p.1) := by simp
    rw [presentText, h0, runActions_append ht]
    rfl
  · simp only [BitVec.toNat_ofNat]
    omega
  · have h := hr .txt x
    rw [if_pos ⟨rfl, by omega, by rw [List.length_take]; omega⟩] at h
    refine h.trans ?_
    simp [List.getD_eq_getElem?_getD, h2]
  · have h := hr sp x
    rw [if_neg (by simp [hsp])] at h
    cases sp <;> exact h

/-! ### Ends of a page operation -/

@[simp] theorem endAfterRead_sends (code : Nat) (r : PageResult) (s : State) : (endAfterRead code r s).sends = [] := rfl

@[simp] theorem endAfterRead_calls (code : Nat) (r : PageResult) (s : State) :
    (endAfterRead code r s).calls = [pageRead code] := rfl

@[simp] theorem endAfterRead_result (code : Nat) (r : PageResult) (s : State) : (endAfterRead code r s).result = r := rfl

/-- Everything the last part of a page operation can do (R180). -/
theorem sendIfChanged_cases (t : Transport) (code : Nat) (buf : Buffer) (o : Nat) (current new : List Byte)
    (shown : List (List Byte)) (s : State) :
    (new = current ∧ (sendIfChanged t code buf o current new shown s).result = .unchanged ∧
      (sendIfChanged t code buf o current new shown s).calls = [pageRead code]) ∨
    (new ≠ current ∧
      (sendIfChanged t code buf o current new shown s).result =
        (if t.sendDiagnostic (spliceBytes buf o new) then .written else .failed .transportError) ∧
      (sendIfChanged t code buf o current new shown s).calls =
        [pageRead code, .sendDiagnostic (spliceBytes buf o new)]) := by
  unfold sendIfChanged
  by_cases h : new = current
  · rw [if_pos h]; exact Or.inl ⟨h, rfl, rfl⟩
  · rw [if_neg h]; exact Or.inr ⟨h, rfl, rfl⟩

/-- The bytes of a page with a part replaced. -/
theorem spliceBytes_getElem? {buf : Buffer} {o : Nat} {bytes : List Byte} (h : o + bytes.length ≤ buf.length) (x : Nat) :
    (spliceBytes buf o bytes)[x]? = if o ≤ x ∧ x < o + bytes.length then bytes[x - o]? else buf[x]? := by
  unfold spliceBytes
  rw [List.append_assoc, List.getElem?_append, List.length_take, Nat.min_eq_left (by omega)]
  by_cases h1 : x < o
  · rw [if_pos h1, if_neg (by omega), List.getElem?_take, if_pos h1]
  · rw [if_neg h1, List.getElem?_append]
    by_cases h2 : x - o < bytes.length
    · rw [if_pos h2, if_pos (by omega)]
    · rw [if_neg h2, if_neg (by omega), List.getElem?_drop]
      congr 1
      omega

/-- A page with a part replaced keeps its length. -/
theorem spliceBytes_length {buf : Buffer} {o : Nat} {bytes : List Byte} (h : o + bytes.length ≤ buf.length) :
    (spliceBytes buf o bytes).length = buf.length := by
  simp only [spliceBytes, List.length_append, List.length_take, List.length_drop]
  omega

end Sys2Proof.Machine
end

