-- ==== Sys2Proof/Laws/PerInstr.lean ====
section
/-! SUPPORT. A fact about every operation as syntax, one lemma for each constructor: its command word matches its own row
of the opcode map (30_encoding.md R81). -/

namespace Sys2Proof.Laws

/-- The opcode map row of an operation (R81). -/
def rowOf : Instr → OpcodeRow
  | .charmask _ => rowCharmask
  | .seggeom _  => rowSeggeom
  | .enctext    => rowEnctext
  | .encraw     => rowEncraw
  | .decrender  => rowDecrender
  | .fsrender   => rowFsrender

def EncodingMatchesRow.Statement (i : Instr) : Prop :=
  (rowOf i).isMatch (encode i) = true

theorem EncodingMatchesRow.charmask (c : Byte) : EncodingMatchesRow.Statement (.charmask c) := by
  unfold EncodingMatchesRow.Statement
  revert c
  decide +kernel

theorem EncodingMatchesRow.seggeom (b : BitVec 4) : EncodingMatchesRow.Statement (.seggeom b) := by
  unfold EncodingMatchesRow.Statement
  revert b
  decide +kernel

theorem EncodingMatchesRow.enctext : EncodingMatchesRow.Statement .enctext := by
  unfold EncodingMatchesRow.Statement
  decide

theorem EncodingMatchesRow.encraw : EncodingMatchesRow.Statement .encraw := by
  unfold EncodingMatchesRow.Statement
  decide

theorem EncodingMatchesRow.decrender : EncodingMatchesRow.Statement .decrender := by
  unfold EncodingMatchesRow.Statement
  decide

theorem EncodingMatchesRow.fsrender : EncodingMatchesRow.Statement .fsrender := by
  unfold EncodingMatchesRow.Statement
  decide

end Sys2Proof.Laws
end

