-- ==== Sys2Proof/Tests/Slice0.lean ====
section
/-! SUPPORT. Tests of the model against 95_test_vectors.md, the smoke test of the legality checks, and for every statement
with hypotheses a concrete state and operands that meet them. -/

namespace Sys2Proof.Tests

open Sys2Proof.Machine

/-! ### Helpers -/

/-- The contents of a space from its first bytes. -/
def contents (bytes : List Byte) : Memory :=
  Memory.tabulate bytes.length fun o => bytes.getD o 0#8

/-- A state after reset whose input string is given. -/
def textState (chars : List Byte) : State :=
  { State.reset with txt := contents chars, tlen := BitVec.ofNat 8 chars.length }

/-- A state after reset with operands of FSRENDER and a payload. -/
def freeState (F T K : Nat) (payload : List Byte) : State :=
  { State.reset with
    free := BitVec.ofNat 64 F, total := BitVec.ofNat 64 T, kbf := BitVec.ofNat 16 K, fsp := contents payload }

/-- A state after reset with a label. -/
def labelState (bytes : List Byte) : State :=
  { State.reset with lbl := contents bytes }

/-- A property of the next state, false where there is none. -/
def nextSatisfies (o : Host.Outcome State Fault Refusal) (p : State → Bool) : Bool :=
  match o with
  | .next t    => p t
  | .fault _   => false
  | .refused _ => false

/-- A transport that answers every read with one page and every write with success. -/
def transportOf (page : Buffer) : Transport where
  modeSense         := fun _ => some page
  modeSelect        := fun _ => true
  receiveDiagnostic := fun _ _ => some page
  sendDiagnostic    := fun _ => true

/-- The fixture mask table of 95_test_vectors.md section 1 (not the device's). -/
def fixtureGlyph : GlyphTable := fun k =>
  let u := if 0x41 ≤ k.val ∧ k.val ≤ 0x5A then k.val - 0x20 else k.val
  let u := if u = 0x1C then 0x08 else u
  let u := if u = 0x33 then 0x15 else u
  BitVec.ofNat 14 (0x81 * u)

/-- The fixture geometry of 95_test_vectors.md section 1 (not the device's); characters by their distance from 0x20. -/
def fixtureGeom : GeomTable := fun b =>
  match b.val with
  | 0  => { row := 0, col := 1, frag := .three 0x3F 0x3F 0x3F }
  | 1  => { row := 1, col := 4, frag := .one 0x5C }
  | 2  => { row := 3, col := 4, frag := .one 0x5C }
  | 3  => { row := 4, col := 1, frag := .three 0x0D 0x0D 0x0D }
  | 4  => { row := 3, col := 0, frag := .one 0x5C }
  | 5  => { row := 1, col := 0, frag := .one 0x5C }
  | 6  => { row := 2, col := 1, frag := .one 0x0D }
  | 7  => { row := 2, col := 3, frag := .one 0x0D }
  | 8  => { row := 1, col := 1, frag := .one 0x3C }
  | 9  => { row := 1, col := 2, frag := .one 0x5C }
  | 10 => { row := 1, col := 3, frag := .one 0x0F }
  | 11 => { row := 3, col := 1, frag := .one 0x0F }
  | 12 => { row := 3, col := 2, frag := .one 0x5C }
  | _  => { row := 3, col := 3, frag := .one 0x3C }

/-! ### The legality checks refuse ill-formed commands (R80 to R82) -/

theorem test_unassigned_op_refused : ({ op := 7, z := 0, arg := 0 } : Cmd16).wellFormed = false := by decide

theorem test_zero_op_refused : ({ op := 0, z := 0, arg := 0 } : Cmd16).wellFormed = false := by decide

theorem test_z_not_zero_refused : ({ op := 1, z := 1, arg := 0x41 } : Cmd16).wellFormed = false := by decide

theorem test_arg_of_enctext_refused : ({ op := 3, z := 0, arg := 1 } : Cmd16).wellFormed = false := by decide

theorem test_arg_of_seggeom_refused : ({ op := 2, z := 0, arg := 0x10 } : Cmd16).wellFormed = false := by decide

theorem test_wellFormed_accepts : (Instr.charmask 0xFF).wellFormed = true ∧ (Instr.seggeom 15).wellFormed = true := by
  decide

/-! ### Decoding, each word written out from the pattern of R81 (95_test_vectors.md 3.1) -/

theorem test_decode_charmask : decode 0b0001000001000001 = .ok (.charmask 0x41) := by decide

theorem test_decode_seggeom : decode 0b0010000000001110 = .ok (.seggeom 14) := by decide

theorem test_decode_enctext : decode 0b0011000000000000 = .ok .enctext := by decide

theorem test_decode_encraw : decode 0b0100000000000000 = .ok .encraw := by decide

theorem test_decode_decrender : decode 0b0101000000000000 = .ok .decrender := by decide

theorem test_decode_fsrender : decode 0b0110000000000000 = .ok .fsrender := by decide

theorem test_decode_names_what_is_wrong :
    decode 0x0000 = .error (.unassignedOp 0) ∧ decode 0x1141 = .error (.zNotZero 1) ∧
    decode 0x2010 = .error (.argNotAllowed 0x10) ∧ decode 0xFFFF = .error (.unassignedOp 15) := by decide

theorem test_decodeTableWord : decodeTableWord 16 0x107E = some (.charmask 0x7E) ∧ decodeTableWord 16 0x6100 = none := by
  decide

/-! ### One step of each operation (95_test_vectors.md 3.2 to 3.6) -/

/-- CM7 with the fixture table: 's' gives the mask of '5'. -/
theorem test_charmask_fixture :
    nextSatisfies (charmaskWith fixtureGlyph 0x73 State.reset) (fun t => t.res == 0x0A95 && t.status == 0x00) = true := by
  decide +kernel

/-- CM4: DEL is no supported code and RES keeps its value. -/
theorem test_charmask_unsupported :
    nextSatisfies (exec (.charmask 0x7F) { State.reset with res := 0xBEEF })
      (fun t => t.res == 0xBEEF && t.status == 0x10) = true := by decide +kernel

/-- SG1 with the fixture geometry. -/
theorem test_seggeom_fixture :
    nextSatisfies (seggeomWith fixtureGeom 0 State.reset) (fun t => t.geo == 0x5F5F5FC8 && t.status == 0x00) = true := by
  decide +kernel

/-- SG3. -/
theorem test_seggeom_bad_operand :
    nextSatisfies (exec (.seggeom 15) { State.reset with geo := 0x12345678 })
      (fun t => t.geo == 0x12345678 && t.status == 0x31) = true := by decide +kernel

/-- ET13 with the fixture table: "(<5Ss". -/
theorem test_enctext_fixture :
    nextSatisfies (enctextWith fixtureGlyph (textState [0x28, 0x3C, 0x35, 0x53, 0x73]))
      (fun t => t.bytes .lbl 12 == [0x04, 0x08, 0x04, 0x08, 0x0A, 0x95, 0x0A, 0x95, 0x0A, 0x95, 0x00, 0x00]) = true := by
  decide +kernel

/-- ET11: TooLong wins over UnsupportedChar. -/
theorem test_enctext_too_long_first :
    nextSatisfies (exec .enctext (textState (List.replicate 12 0x41 ++ [0x7F]))) (fun t => t.status == 0x11) = true := by
  decide +kernel

/-- ER3: "3fff0001" over a label of 24 bytes AA. -/
theorem test_encraw_fills_slots :
    nextSatisfies (exec .encraw
        { textState [0x33, 0x66, 0x66, 0x66, 0x30, 0x30, 0x30, 0x31] with lbl := contents (List.replicate 24 0xAA) })
      (fun t => t.bytes .lbl 6 == [0x3F, 0xFF, 0x00, 0x01, 0x00, 0x00]) = true := by decide +kernel

/-- ER8: group 1 of "00014000zzzz" is out of range before group 2 is no number. -/
theorem test_encraw_priority :
    nextSatisfies (exec .encraw (textState [0x30, 0x30, 0x30, 0x31, 0x34, 0x30, 0x30, 0x30, 0x7A, 0x7A, 0x7A, 0x7A]))
      (fun t => t.status == 0x14) = true := by decide +kernel

/-- DR7 with the fixture geometry: slot 1 = 0xC009, row 0 is seven spaces, three underscores and a space. -/
theorem test_decrender_fixture :
    nextSatisfies (decrenderWith fixtureGeom (labelState [0x00, 0x00, 0xC0, 0x09]))
      (fun t => t.llen == 11 &&
        t.line 0 == [0x20, 0x20, 0x20, 0x20, 0x20, 0x20, 0x20, 0x5F, 0x5F, 0x5F, 0x20]) = true := by decide +kernel

/-- DR6: a slot of 0x4000 is not blank and stamps nothing. -/
theorem test_decrender_top_bits :
    nextSatisfies (exec .decrender (labelState [0x40, 0x00]))
      (fun t => t.llen == 5 && t.line 2 == [0x20, 0x20, 0x20, 0x20, 0x20]) = true := by decide +kernel

/-- E8 with every bit of FSP set before. -/
theorem test_fsrender_worked_example :
    nextSatisfies (exec .fsrender (freeState 322122547200 1073741824000 1024 (List.replicate 16 0xFF)))
      (fun t => t.bytes .fsp 16 ==
        [0xFF, 0xFF, 0xFF, 0xFF, 0xFF, 0xFF, 0xFE, 0x3F, 0xFF, 0xFF, 0xFB, 0xFD, 0xF3, 0xF0, 0xF0, 0xFF]) = true := by
  decide +kernel

/-- FS16: 1536 GB of 2048 GB are 1.50 TB. -/
theorem test_fsrender_terabytes :
    nextSatisfies (exec .fsrender (freeState 1649267441664 2199023255552 1024 []))
      (fun t => t.bytes .fsp 16 ==
        [0x00, 0x00, 0x00, 0x00, 0x80, 0x00, 0xC0, 0x00, 0x00, 0x00, 0x14, 0x02, 0x81, 0x85, 0x80, 0x00]) = true := by
  decide +kernel

/-- The command word 0x0000 is illegal (95_test_vectors.md P5, line 7). -/
theorem test_step_illegal_word :
    nextSatisfies (step (State.reset.withFetchWord 16 0x0000)) (fun t => t.status == 0x30 && t.pending == []) = true := by
  decide +kernel

/-! ### Pages (95_test_vectors.md E5 to E7) -/

/-- E5: page 0x20 with PS set passes, with SPF set it does not. -/
theorem test_modePageValid :
    modePageValid [0x0B, 0, 0, 0, 0xA0, 6, 0, 0, 0, 0, 0, 0] 0x20 6 = true ∧
    modePageValid [0x0B, 0, 0, 0, 0x60, 6, 0, 0, 0, 0, 0, 0] 0x20 6 = false := by decide

/-- E6: byte 1 is not examined, and the length is big-endian. -/
theorem test_diagnosticPageValid :
    diagnosticPageValid [0x86, 0xFF, 0x00, 0x10] 0x86 16 = true ∧
    diagnosticPageValid [0x86, 0x00, 0x10, 0x00] 0x86 16 = false := by decide

/-- E7: the one buffer written when the flag changes. -/
theorem test_flag_written :
    (modePageFlagOperation vcdDisablePage (some true)
      (transportOf [0x0B, 0, 0, 0, 0xA0, 6, 0, 0, 0, 0, 0, 0])).calls =
      [.modeSense 0x20, .modeSelect [0x0B, 0, 0, 0, 0x20, 6, 0, 0, 2, 0, 0, 0]] := by decide

/-! ### Witnesses: states and operands that meet the hypotheses of the statements -/

theorem witness_EncodeOfDecode : decode 0x10FF = .ok (.charmask 0xFF) := by decide

/-- One illegal word for each clause, the last legal neighbours, and both operands that raise BadOperand. -/
theorem witness_IllegalWordWritesStatusOnly :
    ((0x0FFF#16).extractLsb' 12 4).toNat = 0 ∧ 7 ≤ ((0x7000#16).extractLsb' 12 4).toNat ∧
    ((0x6100#16).extractLsb' 8 4).toNat ≠ 0 ∧
    (((0x3001#16).extractLsb' 12 4).toNat = 3 ∧ ((0x3001#16).extractLsb' 0 8).toNat ≠ 0) ∧
    (((0x6001#16).extractLsb' 12 4).toNat = 6 ∧ ((0x6001#16).extractLsb' 0 8).toNat ≠ 0) ∧
    (((0x2010#16).extractLsb' 12 4).toNat = 2 ∧ 16 ≤ ((0x2010#16).extractLsb' 0 8).toNat) ∧
    (((0x200F#16).extractLsb' 12 4).toNat = 2 ∧ ((0x200F#16).extractLsb' 8 4).toNat = 0 ∧
      ((0x200F#16).extractLsb' 0 8).toNat < 16) ∧
    14 ≤ (14#4).toNat ∧ 14 ≤ (15#4).toNat := by decide

theorem witness_StepRunsDecodedInstruction :
    ((State.reset.withFetchWord 16 0x3000).pending = .command 0x3000 :: [] ∧ decode 0x3000 = .ok .enctext) ∧
    ((State.reset.withFetchWord 16 0).pending = .command 0 :: [] ∧ decode 0 = .error (.unassignedOp 0)) := by decide

theorem witness_StepIdleHoldsState : State.reset.pending = [] := by decide

theorem witness_StepKeepsInvariant :
    (State.reset.withFetchWord 16 0x5000).inv = true ∧
    nextSatisfies (step (State.reset.withFetchWord 16 0x5000)) (fun _ => true) = true := by decide +kernel

theorem witness_CompletesExactlyOutsideBands :
    hasResult .encraw { State.reset with tlen := 48 } = true ∧ hasResult .encraw { State.reset with tlen := 52 } = false ∧
    hasResult .encraw { State.reset with tlen := 96 } = false ∧ hasResult .encraw { State.reset with tlen := 97 } = true ∧
    hasResult .fsrender (freeState 10 10 1 []) = true ∧ hasResult .fsrender (freeState 11 10 1 []) = false ∧
    hasResult .fsrender (freeState 5 10 0 []) = false ∧ hasResult .fsrender (freeState 5 0 0 []) = true := by
  decide +kernel

/-- Every operation has a next state right after reset. -/
theorem witness_ExecWritesOnlyItsResults :
    (∃ t, exec (.charmask 0x41) State.reset = .next t) ∧ (∃ t, exec (.seggeom 0) State.reset = .next t) ∧
    (∃ t, exec .enctext State.reset = .next t) ∧ (∃ t, exec .encraw State.reset = .next t) ∧
    (∃ t, exec .decrender State.reset = .next t) ∧ (∃ t, exec .fsrender State.reset = .next t) :=
  ⟨⟨_, rfl⟩, ⟨_, rfl⟩, ⟨_, rfl⟩, ⟨_, rfl⟩, ⟨_, rfl⟩, ⟨_, rfl⟩⟩

/-- States that agree on what ENCRAW reads and differ elsewhere, with a next state and with a refusal. -/
theorem witness_ExecReadsOnlyItsOperands :
    ReadsAgree .encraw State.reset { State.reset with res := 0xBEEF, txt := contents [0x41] } ∧
    (∃ t, exec .encraw State.reset = .next t) ∧
    ReadsAgree .encraw { State.reset with tlen := 52 } { State.reset with tlen := 52, res := 0xBEEF } ∧
    (∃ r, exec .encraw { State.reset with tlen := 52 } = .refused r) :=
  ⟨⟨rfl, fun o h => absurd h (Nat.not_lt_zero o)⟩, ⟨_, rfl⟩, ⟨rfl, fun _ _ => rfl⟩, ⟨_, rfl⟩⟩

theorem witness_ErrorsChangeStatusOnly :
    exec (.charmask 0x7F) State.reset = .next { State.reset with status := 0x10 } ∧
    (0x10#8) ∈ [0x10#8, 0x11#8, 0x12#8, 0x13#8, 0x14#8, 0x31#8] := ⟨rfl, by decide⟩

theorem witness_OutcomesByOperation : exec (.seggeom 15) State.reset = .next { State.reset with status := 0x31 } := rfl

theorem witness_SetBitChangesOneBit : (0 : Nat) < 8 ∧ (7 : Nat) < 8 := by decide

theorem witness_CharmaskLooksUpMask :
    (0x20 ≤ (0x20#8).toNat ∧ (0x20#8).toNat ≤ 0x7E) ∧ (0x20 ≤ (0x7E#8).toNat ∧ (0x7E#8).toNat ≤ 0x7E) ∧
    (0x1F#8).toNat < 0x20 ∧ 0x7E < (0x7F#8).toNat := by decide

theorem witness_CharmaskSharedMasks : (0 : Nat) < 26 ∧ (25 : Nat) < 26 := by decide

theorem witness_SeggeomReadsEntry :
    ((0#4).toNat < 14 ∧ (13#4).toNat < 14) ∧ 14 ≤ (14#4).toNat ∧ 14 ≤ (15#4).toNat := by decide

theorem witness_GeoFields : (0#4).toNat < 14 ∧ (13#4).toNat < 14 := by decide

/-- The empty text and a text of twelve characters from both ends of the range. -/
theorem witness_EnctextStoresMasks :
    ((textState []).tlen.toNat ≤ 12 ∧ ∀ i, i < (textState []).tlen.toNat → Supported ((textState []).charCode i)) ∧
    ((textState [0x20, 0x7E, 65, 66, 67, 68, 69, 70, 71, 72, 73, 74]).tlen.toNat = 12 ∧
      ∀ i, i < 12 → Supported ((textState [0x20, 0x7E, 65, 66, 67, 68, 69, 70, 71, 72, 73, 74]).charCode i)) := by
  unfold Supported
  decide +kernel

theorem witness_EnctextTooLong :
    12 < (textState (List.replicate 13 0x41)).tlen.toNat ∧ 12 < ({ State.reset with tlen := 255 } : State).tlen.toNat := by
  decide +kernel

/-- 'A' and then DEL; and one character 0x1F. -/
theorem witness_EnctextUnsupportedChar :
    ((textState [0x41, 0x7F]).tlen.toNat = 2 ∧ ¬ Supported ((textState [0x41, 0x7F]).charCode 1)) ∧
    ((textState [0x1F]).tlen.toNat = 1 ∧ ¬ Supported ((textState [0x1F]).charCode 0)) := by
  unfold Supported
  decide +kernel

theorem witness_HexGroupValue :
    hexDigit ((textState [0x30, 0x39, 0x46, 0x61]).readByte .txt (4 * 0)) = some 0 ∧
    hexDigit ((textState [0x30, 0x39, 0x46, 0x61]).readByte .txt (4 * 0 + 1)) = some 9 ∧
    hexDigit ((textState [0x30, 0x39, 0x46, 0x61]).readByte .txt (4 * 0 + 2)) = some 15 ∧
    hexDigit ((textState [0x30, 0x39, 0x46, 0x61]).readByte .txt (4 * 0 + 3)) = some 10 := by decide +kernel

/-- Twelve groups "3FFF", the largest value, and no group at all. -/
theorem witness_EncrawStoresGroups :
    ((textState (List.replicate 12 [0x33, 0x46, 0x46, 0x46]).flatten).tlen.toNat = 48 ∧
      ∀ k, k < 48 / 4 → GroupFits (textState (List.replicate 12 [0x33, 0x46, 0x46, 0x46]).flatten) k 0x3FFF) ∧
    (State.reset.tlen.toNat ≤ 48 ∧ State.reset.tlen.toNat % 4 = 0 ∧
      ∀ k, k < State.reset.tlen.toNat / 4 → GroupFits State.reset k 0) := by
  unfold GroupFits
  decide +kernel

/-- 97 characters are too long; 95 are not, and have a next state. -/
theorem witness_EncrawTooLong :
    96 < ({ State.reset with tlen := 97 } : State).tlen.toNat ∧
    ({ State.reset with tlen := 95 } : State).tlen.toNat ≤ 96 ∧
    (∃ t, exec .encraw { State.reset with tlen := 95 } = .next t) := ⟨by decide, by decide, ⟨_, rfl⟩⟩

/-- 95 and 1 characters are a bad length; 97 and 0 are not, and have next states. -/
theorem witness_EncrawBadLength :
    (({ State.reset with tlen := 95 } : State).tlen.toNat ≤ 96 ∧ ({ State.reset with tlen := 95 } : State).tlen.toNat % 4 ≠ 0) ∧
    96 < ({ State.reset with tlen := 97 } : State).tlen.toNat ∧
    (∃ t, exec .encraw { State.reset with tlen := 97 } = .next t) ∧ State.reset.tlen.toNat % 4 = 0 ∧
    (∃ t, exec .encraw State.reset = .next t) := ⟨by decide, by decide, ⟨_, rfl⟩, by decide, ⟨_, rfl⟩⟩

/-- "0001GGGG": group 1 is no number after a group that fits; "4000": group 0 is the smallest value out of range. -/
theorem witness_EncrawFirstBadGroupDecides :
    ((textState [0x30, 0x30, 0x30, 0x31, 0x47, 0x47, 0x47, 0x47]).tlen.toNat = 8 ∧
      GroupFits (textState [0x30, 0x30, 0x30, 0x31, 0x47, 0x47, 0x47, 0x47]) 0 1 ∧
      ¬ HexCharacter ((textState [0x30, 0x30, 0x30, 0x31, 0x47, 0x47, 0x47, 0x47]).readByte .txt (4 * 1 + 3))) ∧
    ((textState [0x34, 0x30, 0x30, 0x30]).tlen.toNat = 4 ∧
      RawGroup.value ((textState [0x34, 0x30, 0x30, 0x30]).rawGroup 0) = some 0x4000) := by
  unfold GroupFits HexCharacter
  decide +kernel

theorem witness_EncrawBandRefused :
    (∃ r, exec .encraw { State.reset with tlen := 52 } = .refused r) ∧
    (∃ r, exec .encraw { State.reset with tlen := 96 } = .refused r) := ⟨⟨_, rfl⟩, ⟨_, rfl⟩⟩

/-- The contents of TXT that spell v. -/
def spelling (v : Nat) : Memory :=
  Memory.write (Memory.write (Memory.write (Memory.write [] 0 (upperHexDigit (v / 4096 % 16))) 1
    (upperHexDigit (v / 256 % 16))) 2 (upperHexDigit (v / 16 % 16))) 3 (upperHexDigit (v % 16))

/-- The text "A" and the spelling of its mask, whatever that is. -/
theorem witness_EncodersAgree :
    (textState [0x41]).tlen.toNat = 1 ∧ Supported ((textState [0x41]).charCode 0) ∧
    ({ State.reset with tlen := 4, txt := spelling (maskOf 0x41).toNat } : State).tlen.toNat = 4 * 1 ∧
    (textState [0x41]).charCode 0 = 0x41 ∧
    GroupSpells { State.reset with tlen := 4, txt := spelling (maskOf 0x41).toNat } 0 (maskOf 0x41).toNat := by
  refine ⟨by decide +kernel, by unfold Supported; decide +kernel, by decide, by decide +kernel, ?_⟩
  unfold GroupSpells State.readByte State.space spelling
  simp [Memory.read_write]

/-- The all-blank label, and slot 11 as the last slot that is not blank. -/
theorem witness_DecrenderTerminator :
    (∀ i, i < 12 → (labelState []).slot i = 0#16) ∧ (labelState (List.replicate 23 0 ++ [1])).slot 11 ≠ 0#16 ∧
    (labelState (List.replicate 23 0 ++ [1])).memoryWf = true := by
  decide +kernel

/-- A state with one stamped segment, whatever the geometry is, and a state with a place nothing is stamped at. -/
theorem witness_DecrenderShowsLastStamp :
    (∃ c, Stamps Config.geom (labelState [0x00, 0x01]).slot 0 0 (Config.geom 0).row.val (Config.geom 0).col.val c) ∧
    nextSatisfies (exec .decrender (labelState [0x00, 0x01])) (fun t => t.llen == 5) = true ∧
    (∀ i b c, ¬ Stamps Config.geom (labelState [0x40, 0x00]).slot i b 0 0 c) ∧
    nextSatisfies (exec .decrender (labelState [0x40, 0x00])) (fun t => t.llen == 5) = true := by
  refine ⟨?_, by decide +kernel, ?_, by decide +kernel⟩
  · have hb : ((labelState [0x00, 0x01]).slot 0).getLsbD (0 : Fin 14).val = true := by decide +kernel
    have hc : ∀ f : Fragment, ∃ c, (Fragment.chars f)[0]? = some c := fun f => by
      cases f <;> exact ⟨_, rfl⟩
    obtain ⟨c, hc⟩ := hc (Config.geom 0).frag
    exact ⟨c, by decide, hb, rfl, 0, by omega, hc⟩
  · have hz : ∀ i, i < 12 → ∀ b : Fin 14, ((labelState [0x40, 0x00]).slot i).getLsbD b.val = false := by decide +kernel
    rintro i b c ⟨hi, hb, -⟩
    rw [hz i hi b] at hb
    exact absurd hb (by decide)

theorem witness_DecrenderIdempotent : ∃ t, exec .decrender (labelState [0x00, 0x01]) = .next t := ⟨_, rfl⟩

/-- A text of two characters. -/
theorem witness_TextRoundTripRenders :
    (textState [0x48, 0x69]).tlen.toNat = 2 ∧ ∀ i, i < 2 → Supported ((textState [0x48, 0x69]).charCode i) := by
  unfold Supported
  decide +kernel

theorem witness_FsrenderCleared : (freeState 5 0 0 (List.replicate 16 0xFF)).total = 0#64 := by decide +kernel

/-- No free space, a tie, and an empty volume. -/
theorem witness_RoundingOfBar : (0 < 20 ∧ 0 ≤ 20) ∧ (0 < 20 ∧ 1 ≤ 20) ∧ (0 < 20 ∧ 20 ≤ 20) := by decide

theorem witness_FsrenderShowsBar :
    Populated (freeState 0 1 1 []) ∧ Populated (freeState 1 1 65535 []) ∧ Populated (freeState 1000 1000 1 []) := by
  unfold Populated
  decide +kernel

/-- The smallest integer, 10, and the largest, 999. -/
theorem witness_FsrenderIntegerFormat :
    (Populated (freeState 10 1000 1 []) ∧ 10 < 1000 * 1 ^ 4 ∧ 10 * divisorOf 10 1 ≤ 10) ∧
    (Populated (freeState 999 1000 1 []) ∧ 999 < 1000 * 1 ^ 4 ∧ 10 * divisorOf 999 1 ≤ 999) := by
  unfold Populated
  decide +kernel

/-- Nothing free, 9 units, and 1000 GB, which is 0.97 TB. -/
theorem witness_FsrenderDecimalFormat :
    (Populated (freeState 0 1000 1 []) ∧ 0 < 1000 * 1 ^ 4 ∧ 0 < 10 * divisorOf 0 1) ∧
    (Populated (freeState 9 1000 1 []) ∧ 9 < 1000 * 1 ^ 4 ∧ 9 < 10 * divisorOf 9 1) ∧
    (Populated (freeState 1073741824000 1073741824000 1024 []) ∧ 1073741824000 < 1000 * 1024 ^ 4 ∧
      1073741824000 < 10 * divisorOf 1073741824000 1024) := by
  unfold Populated
  decide +kernel

/-- Both units: the last GB value and the first TB value. -/
theorem witness_FsrenderUnitFlags :
    (Populated (freeState 1073741823999 1073741824000 1024 []) ∧ 1073741823999 < 1000 * 1024 ^ 3) ∧
    (Populated (freeState 1073741824000 1073741824000 1024 []) ∧ 1000 * 1024 ^ 3 ≤ 1073741824000 ∧
      1073741824000 < 1000 * 1024 ^ 4) := by
  unfold Populated
  decide +kernel

/-- The first value that overflows, and the largest FREE. -/
theorem witness_FsrenderOverflow :
    (Populated (freeState 1000 1000 1 []) ∧ 1000 * 1 ^ 4 ≤ 1000) ∧
    (Populated (freeState (2 ^ 64 - 1) (2 ^ 64 - 1) 1024 []) ∧ 1000 * 1024 ^ 4 ≤ 2 ^ 64 - 1) := by
  unfold Populated
  decide +kernel

theorem witness_FsrenderUntouchedBits : ∃ t, exec .fsrender (freeState 5 0 0 [0xFF]) = .next t := ⟨_, rfl⟩

theorem witness_FsrenderIdempotent : ∃ t, exec .fsrender (freeState 5 0 0 [0xFF]) = .next t := ⟨_, rfl⟩

/-- Two payloads that differ in an owned bit alone. -/
theorem witness_FsrenderForgetsOwnedBits :
    (∀ o b, fspOwned o b = false →
      ({ State.reset with fsp := [(6, 0xFF)] } : State).getBit .fsp o b = State.reset.getBit .fsp o b) ∧
    (∃ t, exec .fsrender { State.reset with fsp := [(6, 0xFF)] } = .next t) := by
  refine ⟨fun o b h => ?_, ⟨_, rfl⟩⟩
  unfold State.getBit State.readByte State.space
  by_cases ho : o = 6
  · subst ho
    by_cases hb : b < 8
    · exact absurd h (by simp [fspOwned, hb])
    · rw [BitVec.getLsbD_of_ge _ _ (by omega), BitVec.getLsbD_of_ge _ _ (by omega)]
  · simp [Memory.read, State.reset, Ne.symm ho]

/-- The last places of every space, and the first ones outside it, answer as the statements say. -/
theorem witness_HostWriteStoresOneByte :
    nextSatisfies (hostAct (.put (.txt 95) 7) State.reset) (fun t => t.readByte .txt 95 == 7) = true ∧
    nextSatisfies (hostAct (.put (.lbl 23) 7) State.reset) (fun t => t.readByte .lbl 23 == 7) = true ∧
    nextSatisfies (hostAct (.put (.fsp 15) 7) State.reset) (fun t => t.readByte .fsp 15 == 7) = true ∧
    hostAct (.put (.grid 4 72) 7) State.reset = .refused .hostWriteToGrid ∧
    hostAct (.put (.txt 96) 7) State.reset = .refused .accessOutsideSpace ∧
    hostAct (.put (.lbl 24) 7) State.reset = .refused .accessOutsideSpace ∧
    hostAct (.put (.fsp 16) 7) State.reset = .refused .accessOutsideSpace ∧
    hostAct (.put (.grid 5 0) 7) State.reset = .refused .accessOutsideSpace :=
  ⟨by decide +kernel, by decide +kernel, by decide +kernel, rfl, rfl, rfl, rfl, rfl⟩

theorem witness_HostReadChangesNothing :
    nextSatisfies (hostAct (.get (.lbl 23)) (labelState (List.replicate 23 0 ++ [9]))) (fun t => t.received == [9]) = true ∧
    nextSatisfies (hostAct (.get (.grid 4 72)) State.reset) (fun t => t.received == [0]) = true ∧
    hostAct (.get (.txt 96)) State.reset = .refused .accessOutsideSpace ∧
    hostAct (.get (.grid 0 73)) State.reset = .refused .accessOutsideSpace :=
  ⟨by decide +kernel, by decide +kernel, rfl, rfl⟩

/-- IF STATUS = 0x00 and IF STATUS ≠ 0x00 right after reset. -/
theorem witness_HostBranchesOnStatus :
    (({ State.reset with pending := [.skipIf true 0 1, .reset] } : State).pending = .skipIf true 0 1 :: [.reset] ∧
      (State.reset.status = 0 ↔ true = true)) ∧
    (({ State.reset with pending := [.skipIf false 0 1, .reset] } : State).pending = .skipIf false 0 1 :: [.reset] ∧
      (State.reset.status = 0 ↔ false = false)) ∧
    (State.reset.status = 1 ↔ true = false) := by decide

/-- Page 0x20 with its flag clear: the same target and the other one. -/
theorem witness_FlagWrittenOnlyWhenDifferent :
    (transportOf (modePage 0x20 [0, 0, 0, 0, 0, 0])).modeSense vcdDisablePage.code =
      some (modePage 0x20 [0, 0, 0, 0, 0, 0]) ∧
    modePageValid (modePage 0x20 [0, 0, 0, 0, 0, 0]) vcdDisablePage.code vcdDisablePage.payloadLen = true ∧
    bufferGetBit (modePage 0x20 [0, 0, 0, 0, 0, 0]) (flagPosition vcdDisablePage) vcdDisablePage.flagBit = some false := by
  decide

/-- A text too long and one with DEL; raw strings too long, of a bad length, with a bad character, out of range, and in the
refused band. -/
theorem witness_RejectedTextMakesNoExchange :
    12 < (List.replicate 13 (0x41#8)).length ∧
    (([0x7F#8] : List Byte).length ≤ 12 ∧ ∃ c ∈ ([0x7F#8] : List Byte), ¬ Supported c.toNat) ∧
    96 < (List.replicate 97 (0x30#8)).length ∧
    ((List.replicate 95 (0x30#8)).length ≤ 96 ∧ (List.replicate 95 (0x30#8)).length % 4 ≠ 0) ∧
    (([0x30#8, 0x30#8, 0x30#8, 0x47#8] : List Byte).length = 4 ∧
      ¬ HexCharacter (([0x30#8, 0x30#8, 0x30#8, 0x47#8] : List Byte).getD (4 * 0 + 3) 0#8)) ∧
    RawGroup.value (charGroup [0x34#8, 0x30#8, 0x30#8, 0x30#8] 0) = some 0x4000 ∧
    ((List.replicate 52 (0x30#8)).length = 52 ∧ (List.replicate 96 (0x30#8)).length = 96) := by
  unfold Supported HexCharacter
  decide +kernel

/-- The page of a blank label, and the raw label "3FFF" for it. -/
theorem witness_LabelPageSentOnlyWhenChanged :
    receivePage (transportOf (diagnosticPage 0x87 (List.replicate 32 0))) 0x87 =
      some (diagnosticPage 0x87 (List.replicate 32 0)) ∧
    Encodes (.raw [0x33, 0x46, 0x46, 0x46]) (fun k => if k = 0 then 0x3FFF else 0) ∧
    Encodes (.raw []) (fun _ => 0) ∧
    diagnosticPageValid (diagnosticPage 0x87 (List.replicate 32 0)) 0x87 32 = true ∧
    (labelPageOperation (some (.raw [0x33, 0x46, 0x46, 0x46]))
      (transportOf (diagnosticPage 0x87 (List.replicate 32 0))) State.reset).sends =
      [diagnosticPage 0x87 (List.replicate 8 0 ++ [0x3F, 0xFF] ++ List.replicate 22 0)] := by
  refine ⟨rfl, ⟨by decide, by decide, fun k hk => ?_, fun k hk => ?_⟩, ⟨by decide, by decide, ?_, fun _ _ => rfl⟩,
    by decide +kernel, by decide +kernel⟩
  · have hk : k < 1 := hk
    obtain rfl : k = 0 := by omega
    exact ⟨by decide +kernel, by decide⟩
  · have hk : 1 ≤ k := hk
    exact if_neg (by omega)
  · intro k hk
    exact absurd hk (Nat.not_lt_zero k)

/-- No measurement for a page whose bar is enabled, and for one that is clear already. -/
theorem witness_FreeSpacePageSentOnlyWhenChanged :
    MeasurementPresented 1024 State.reset .noMeasurement ∧
    PagePayloadHolds (diagnosticPage 0x86 (List.replicate 16 0)) State.reset ∧
    (∃ w, exec .fsrender State.reset = .next w ∧ w.status ≠ 0x20#8) ∧
    (freeSpacePageOperation (some .noMeasurement) 1024
      (transportOf (diagnosticPage 0x86 ([0, 0, 0, 0, 0x80] ++ List.replicate 11 0))) State.reset).sends =
      [diagnosticPage 0x86 (List.replicate 16 0)] := by
  unfold PagePayloadHolds
  exact ⟨rfl, by decide +kernel, ⟨_, rfl, by decide +kernel⟩, by decide +kernel⟩

theorem witness_OverflowSendsNothing :
    receivePage (transportOf (diagnosticPage 0x86 (List.replicate 16 0))) 0x86 =
      some (diagnosticPage 0x86 (List.replicate 16 0)) ∧
    diagnosticPageValid (diagnosticPage 0x86 (List.replicate 16 0)) 0x86 16 = true ∧
    20 ≤ (diagnosticPage 0x86 (List.replicate 16 0)).length ∧ 0 < (1#16).toNat ∧
    (1000#64).toNat ≤ (1000#64).toNat ∧ 1000 * (1#16).toNat ^ 4 ≤ (1000#64).toNat :=
  ⟨rfl, by decide +kernel, by decide +kernel, by decide, by decide, by decide⟩

/-- A transport whose reads fail, and a page with a wrong code for each operation. -/
theorem witness_FailedReadSendsNothing :
    receivePage { transportOf [] with receiveDiagnostic := fun _ _ => none } 0x87 = none ∧
    receivePage (transportOf (diagnosticPage 0x86 (List.replicate 32 0))) 0x87 =
      some (diagnosticPage 0x86 (List.replicate 32 0)) ∧
    diagnosticPageValid (diagnosticPage 0x86 (List.replicate 32 0)) 0x87 32 = false ∧
    diagnosticPageValid (diagnosticPage 0x87 (List.replicate 16 0)) 0x86 16 = false ∧
    modePageValid (modePage 0x21 [0, 0, 0, 0, 0, 0]) vcdDisablePage.code vcdDisablePage.payloadLen = false :=
  ⟨rfl, rfl, by decide +kernel, by decide +kernel, by decide +kernel⟩

end Sys2Proof.Tests
end

section
/-! The layer the state statements share (10_state.md): the arms of exec, everything an operation can answer with a next
state, and what each of these ends leaves unchanged. -/

namespace Sys2Proof.Machine

/-! ### The arms of exec (R3) -/

theorem exec_charmask (c : Byte) (s : State) : exec (.charmask c) s = execCharmask c s := rfl
theorem exec_seggeom (b : BitVec 4) (s : State) : exec (.seggeom b) s = execSeggeom b s := rfl
theorem exec_enctext (s : State) : exec .enctext s = execEnctext s := rfl
theorem exec_encraw (s : State) : exec .encraw s = execEncraw s := rfl
theorem exec_decrender (s : State) : exec .decrender s = execDecrender s := rfl
theorem exec_fsrender (s : State) : exec .fsrender s = execFsrender s := rfl

/-! ### DECRENDER's next state -/

/-- s with the grid and the line length DECRENDER writes (R130, R136). -/
def State.rendered (s : State) : State :=
  { s with
    grid := stampSlots Config.geom s.slot (List.range 12) blankGrid
    llen := BitVec.ofNat 7 (terminatorColumn s.slot (List.range 12) 0) }

theorem exec_decrender_eq (s : State) : exec .decrender s = .next (s.rendered.finish .ok) :=
  (exec_decrender s).trans (execDecrender_eq s)

/-- LLEN after DECRENDER, as a number: seven bits hold the terminator column whole. -/
theorem rendered_llen_toNat (s : State) : s.rendered.llen.toNat = terminatorColumn s.slot (List.range 12) 0 := by
  have h := terminatorColumn_le s.slot
  show (BitVec.ofNat 7 _).toNat = _
  rw [BitVec.toNat_ofNat]
  exact Nat.mod_eq_of_lt (by omega)

/-- The grid DECRENDER writes is in canonical form, whatever the slots hold. -/
theorem wf_rendered_grid (s : State) : Memory.wf (Space.size .grid) s.rendered.grid = true :=
  wf_stampSlots _ _ (fun _ => List.mem_range.mp) wf_blankGrid

theorem memoryWf_rendered {s : State} (hs : s.memoryWf = true) : s.rendered.memoryWf = true :=
  memoryWf_withGrid _ hs (wf_rendered_grid s)

/-! ### Everything an operation can answer with a next state -/

/-- The ways an operation ends in a next state (the write columns of R16): an error writes STATUS alone (R115, R206), and
otherwise each operation replaces its own results and then writes STATUS. Replaced contents of a space are in canonical
form if the spaces were. -/
inductive ExecEnds (s : State) : Instr → State → Prop
  | raised (i : Instr) (e : OutcomeKind) : ExecEnds s i (s.raise e)
  | mask (c : Byte) (v : BitVec 16) : ExecEnds s (.charmask c) (({ s with res := v } : State).finish .ok)
  | entry (b : BitVec 4) (v : BitVec 32) : ExecEnds s (.seggeom b) (({ s with geo := v } : State).finish .ok)
  | label (i : Instr) (m : Memory) (encoder : i = .enctext ∨ i = .encraw)
      (wf : s.memoryWf = true → Memory.wf (Space.size .lbl) m = true) :
      ExecEnds s i (({ s with lbl := m } : State).finish .ok)
  | lines : ExecEnds s .decrender (s.rendered.finish .ok)
  | payload (m : Memory) (o : OutcomeKind) (wf : s.memoryWf = true → Memory.wf (Space.size .fsp) m = true) :
      ExecEnds s .fsrender (({ s with fsp := m } : State).finish o)

/-- A label written by an encoder is one of the ends. -/
theorem execEnds_writeLabel (s : State) {i : Instr} (value : Nat → Word) (encoder : i = .enctext ∨ i = .encraw) :
    ExecEnds s i ((s.writeLabel value).finish .ok) := by
  have wf (hs : s.memoryWf = true) : Memory.wf (Space.size .lbl) (s.writeLabel value).lbl = true :=
    (State.memoryWf_iff _).mp (State.memoryWf_writeLabel value hs) .lbl
  rw [State.writeLabel_eq]
  exact .label i _ encoder wf

/-- A state whose payload alone was rewritten is one of FSRENDER's ends. -/
theorem execEnds_onlyFsp {s u : State} (o : OutcomeKind) (only : OnlyFsp s u)
    (wf : s.memoryWf = true → u.memoryWf = true) : ExecEnds s .fsrender (u.finish o) := by
  have hm (hs : s.memoryWf = true) : Memory.wf (Space.size .fsp) u.fsp = true := (State.memoryWf_iff u).mp (wf hs) .fsp
  rw [only]
  exact .payload _ o hm

/-- Everything FSRENDER can answer with a next state. -/
theorem execEnds_fsrender {s t : State} (h : execFsrender s = .next t) : ExecEnds s .fsrender t := by
  have bar (b : Bar) : OnlyFsp s (s.fspReset.writeBar b) := (onlyFsp_fspReset s).trans (onlyFsp_writeBar _ _)
  have barWf (b : Bar) (hs : s.memoryWf = true) : (s.fspReset.writeBar b).memoryWf = true :=
    memoryWf_writeBar b (memoryWf_fspReset hs)
  rcases execFsrender_cases s with ⟨_, e⟩ | ⟨_, _, e⟩ | ⟨_, _, _, e⟩ | ⟨_, _, _, _, e⟩ | ⟨_, _, _, _, e⟩ <;>
    rw [e] at h
  · obtain rfl := next_inj h
    exact execEnds_onlyFsp _ (onlyFsp_fspReset s) memoryWf_fspReset
  · cases h
  · cases h
  · obtain rfl := next_inj h
    exact execEnds_onlyFsp .displayOverflow (bar _) (barWf _)
  · obtain rfl := next_inj h
    exact execEnds_onlyFsp _ (((bar _).trans (onlyFsp_writeDigits _ _)).trans (onlyFsp_writeUnit _ _))
      fun hs => memoryWf_writeUnit _ (memoryWf_writeDigits _ (barWf _ hs))

/-- Everything an operation can answer with a next state. -/
theorem execEnds_of_next {i : Instr} {s t : State} (h : exec i s = .next t) : ExecEnds s i t := by
  cases i with
  | charmask c =>
    rw [exec_charmask] at h
    rcases execCharmask_cases c s with ⟨m, _, e⟩ | ⟨_, e⟩ <;> obtain rfl := next_inj (e.symm.trans h)
    · exact .mask c _
    · exact .raised _ _
  | seggeom b =>
    rw [exec_seggeom] at h
    rcases execSeggeom_cases b s with ⟨_, e⟩ | ⟨_, e⟩ <;> obtain rfl := next_inj (e.symm.trans h)
    · exact .entry b _
    · exact .raised _ _
  | enctext =>
    rw [exec_enctext] at h
    rcases execEnctext_cases s with ⟨_, e⟩ | ⟨_, _, e⟩ | ⟨ms, _, _, e⟩ <;> obtain rfl := next_inj (e.symm.trans h)
    · exact .raised _ _
    · exact .raised _ _
    · exact execEnds_writeLabel s _ (.inl rfl)
  | encraw =>
    rw [exec_encraw] at h
    rcases execEncraw_cases s with
      ⟨_, e⟩ | ⟨_, _, e⟩ | ⟨_, _, _, e⟩ | ⟨_, _, _, _, _, e⟩ | ⟨ms, _, _, _, e⟩ <;> rw [e] at h
    · obtain rfl := next_inj h
      exact .raised _ _
    · obtain rfl := next_inj h
      exact .raised _ _
    · cases h
    · obtain rfl := next_inj h
      exact .raised _ _
    · obtain rfl := next_inj h
      exact execEnds_writeLabel s _ (.inr rfl)
  | decrender =>
    obtain rfl := next_inj ((exec_decrender_eq s).symm.trans h)
    exact .lines
  | fsrender =>
    rw [exec_fsrender] at h
    exact execEnds_fsrender h

/-! ### What every end leaves unchanged (R13, R16) -/

section
variable {s t : State} {i : Instr}

theorem ExecEnds.operandRegsKept (h : ExecEnds s i t) : OperandRegsKept s t := by
  cases h <;> exact ⟨rfl, rfl, rfl, rfl⟩

theorem ExecEnds.hostKept (h : ExecEnds s i t) : HostKept s t := by
  cases h <;> exact ⟨rfl, rfl, rfl⟩

theorem ExecEnds.txt_kept (h : ExecEnds s i t) : t.txt = s.txt := by
  cases h <;> rfl

theorem ExecEnds.res_kept (h : ExecEnds s i t) (hi : ∀ c, i ≠ .charmask c) : t.res = s.res := by
  cases h with
  | mask c => exact absurd rfl (hi c)
  | _ => rfl

theorem ExecEnds.geo_kept (h : ExecEnds s i t) (hi : ∀ b, i ≠ .seggeom b) : t.geo = s.geo := by
  cases h with
  | entry b => exact absurd rfl (hi b)
  | _ => rfl

theorem ExecEnds.lbl_kept (h : ExecEnds s i t) (ht : i ≠ .enctext) (hr : i ≠ .encraw) : t.lbl = s.lbl := by
  cases h with
  | label _ _ encoder => exact (encoder.elim ht hr).elim
  | _ => rfl

theorem ExecEnds.llen_grid_kept (h : ExecEnds s i t) (hi : i ≠ .decrender) : t.llen = s.llen ∧ t.grid = s.grid := by
  cases h with
  | lines => exact absurd rfl hi
  | _ => exact ⟨rfl, rfl⟩

theorem ExecEnds.fsp_kept (h : ExecEnds s i t) (hi : i ≠ .fsrender) : t.fsp = s.fsp := by
  cases h with
  | payload => exact absurd rfl hi
  | _ => rfl

end

/-- Equal contents of a space read alike at every offset. -/
theorem spaceKept_of_space_eq {sp : Space} {s t : State} (h : t.space sp = s.space sp) : SpaceKept sp s t :=
  fun o => congrArg (Memory.read · o) h

/-- Settles O13, clause by clause from the ends an operation has. -/
theorem execWritesOnlyItsResults : Obligations.ExecWritesOnlyItsResults := by
  intro i s t h
  have ends := execEnds_of_next h
  refine ⟨ends.operandRegsKept, ends.hostKept, spaceKept_of_space_eq ends.txt_kept, ends.res_kept, ends.geo_kept,
    fun ht hr => spaceKept_of_space_eq (ends.lbl_kept ht hr), fun hi => ?_,
    fun hi => spaceKept_of_space_eq (ends.fsp_kept hi)⟩
  obtain ⟨hllen, hgrid⟩ := ends.llen_grid_kept hi
  exact ⟨hllen, spaceKept_of_space_eq hgrid⟩

end Sys2Proof.Machine
end

section
/-! The invariant, held by every end of an operation and by every action of the host (R28, R200). -/

namespace Sys2Proof.Machine

theorem State.inv_iff (s : State) : s.inv = true ↔ s.memoryWf = true ∧ s.statusLegal = true := by
  unfold State.inv
  rw [Bool.and_eq_true]

/-- Every outcome leaves a code of R200 in STATUS. -/
theorem statusLegal_finish (s : State) (o : OutcomeKind) : (s.finish o).statusLegal = true := by
  unfold State.statusLegal
  rw [List.any_eq_true]
  exact ⟨o, by cases o <;> decide, by rw [State.finish_status, beq_self_eq_true]⟩

/-- A state in canonical form satisfies the invariant once an operation has ended in it. -/
theorem inv_finish {s : State} (o : OutcomeKind) (hs : s.memoryWf = true) : (s.finish o).inv = true :=
  (State.inv_iff _).mpr ⟨hs, statusLegal_finish s o⟩

/-- STATUS is not touched by a byte write, so only the canonical form is at stake. -/
theorem inv_writeByte {s : State} {sp : Space} {o : Nat} (b : Byte) (hs : s.inv = true) (ho : o < sp.size) :
    (s.writeByte sp o b).inv = true := by
  obtain ⟨hwf, hst⟩ := (State.inv_iff s).mp hs
  refine (State.inv_iff _).mpr ⟨State.memoryWf_writeByte b hwf ho, ?_⟩
  unfold State.statusLegal at hst ⊢
  rw [State.writeByte_status]
  exact hst

/-- After any operation STATUS is legal; the spaces stay in canonical form. -/
theorem inv_exec {i : Instr} {s t : State} (hs : s.memoryWf = true) (h : exec i s = .next t) : t.inv = true := by
  cases execEnds_of_next h with
  | raised _ e => exact inv_finish e hs
  | mask c v => exact inv_finish .ok hs
  | entry b v => exact inv_finish .ok hs
  | label _ m _ wf => exact inv_finish .ok (State.memoryWf_setSpace (sp := .lbl) hs (wf hs))
  | lines => exact inv_finish .ok (memoryWf_rendered hs)
  | payload m o wf => exact inv_finish o (State.memoryWf_setSpace (sp := .fsp) hs (wf hs))

theorem inv_issueCommand {w : Word} {s t : State} (hs : s.memoryWf = true) (h : issueCommand w s = .next t) :
    t.inv = true := by
  rcases issueCommand_cases w s with ⟨i, _, e⟩ | ⟨_, _, e⟩ <;> rw [e] at h
  · exact inv_exec hs h
  · obtain rfl := next_inj h
    exact inv_finish .illegalCommand hs

theorem inv_hostPut {l : Loc} {b : Byte} {s t : State} (hs : s.inv = true) (h : hostPut l b s = .next t) :
    t.inv = true := by
  rcases hostPut_cases l b s with ⟨_, e⟩ | ⟨_, _, e⟩ | ⟨sp, o, ha, _, e⟩ <;> rw [e] at h
  · cases h
  · cases h
  · obtain rfl := next_inj h
    exact inv_writeByte b hs (address_lt_size ha)

theorem inv_hostGet {l : Loc} {s t : State} (hs : s.inv = true) (h : hostGet l s = .next t) : t.inv = true := by
  rcases hostGet_cases l s with ⟨_, e⟩ | ⟨sp, o, _, e⟩ <;> rw [e] at h
  · cases h
  · obtain rfl := next_inj h
    exact hs

theorem inv_resetEvent (s : State) : s.resetEvent.inv = true :=
  (State.inv_iff _).mpr ⟨memoryWf_resetEvent s, rfl⟩

/-- Every action of the host keeps the invariant; a register write, a read and a branch do not touch what it
speaks of. -/
theorem inv_hostAct {a : HostAction} {s t : State} (hs : s.inv = true) (h : hostAct a s = .next t) : t.inv = true := by
  cases a with
  | command w => exact inv_issueCommand ((State.inv_iff s).mp hs).1 h
  | setFree v => obtain rfl := next_inj h; exact hs
  | setTotal v => obtain rfl := next_inj h; exact hs
  | setKbf v => obtain rfl := next_inj h; exact hs
  | setTlen v => obtain rfl := next_inj h; exact hs
  | put l b => exact inv_hostPut hs h
  | get l => exact inv_hostGet hs h
  | getReg r => obtain rfl := next_inj h; exact hs
  | skipIf equal code n =>
    obtain rfl := next_inj h
    split_ifs
    · exact hs
    · exact hs
  | reset => obtain rfl := next_inj h; exact inv_resetEvent s

/-- With no action pending the step answers the state itself (R212). -/
theorem step_of_idle {s : State} (h : s.pending = []) : step s = .next s := by
  unfold step
  rw [h]

/-- Settles O9: a step is idle or performs one action, and taking the action off the list touches neither a space nor
STATUS. -/
theorem stepKeepsInvariant : Obligations.StepKeepsInvariant := by
  intro s t hs h
  cases hp : s.pending with
  | nil =>
    obtain rfl := next_inj ((step_of_idle hp).symm.trans h)
    exact hs
  | cons a rest =>
    rw [step_of_pending hp] at h
    exact inv_hostAct (s := { s with pending := rest }) hs h

end Sys2Proof.Machine
end

section
/-! What an operation reads (R11, R16): two states that agree on an operation's operands get the same outcome. -/

namespace Sys2Proof.Machine

/-- Two answers of an operation agree: next states with the same results, or the same refusal. -/
def OutcomesAgree (i : Instr) (o1 o2 : Host.Outcome State Fault Refusal) : Prop :=
  (∀ t1, o1 = .next t1 → ∃ t2, o2 = .next t2 ∧ ResultsAgree i t1 t2) ∧ (∀ r, o1 = .refused r → o2 = .refused r)

section
variable {i : Instr} {s1 s2 t1 t2 : State}

theorem outcomesAgree_next (h : ResultsAgree i t1 t2) : OutcomesAgree i (.next t1) (.next t2) :=
  ⟨fun _ e => ⟨t2, rfl, next_inj e ▸ h⟩, nofun⟩

theorem outcomesAgree_refused (i : Instr) (r : Refusal) : OutcomesAgree i (.refused r) (.refused r) :=
  ⟨nofun, fun _ e => e⟩

/-- The outcomes of CHARMASK, SEGGEOM and the encoders that are errors give no result but STATUS. -/
theorem resultsAgree_raise {e : OutcomeKind} (he : e.code ≠ 0x00#8) (hd : i ≠ .decrender) (hf : i ≠ .fsrender) :
    ResultsAgree i (s1.raise e) (s2.raise e) := by
  cases i with
  | decrender => exact absurd rfl hd
  | fsrender => exact absurd rfl hf
  | _ => exact ⟨rfl, fun ok => absurd ok he⟩

/-! ### CHARMASK and SEGGEOM read nothing -/

theorem charmask_agrees (c : Byte) (s1 s2 : State) :
    OutcomesAgree (.charmask c) (execCharmask c s1) (execCharmask c s2) := by
  unfold execCharmask charmaskWith
  cases charToMask Config.glyph c with
  | none => exact outcomesAgree_next (resultsAgree_raise (by decide) nofun nofun)
  | some m => exact outcomesAgree_next ⟨rfl, fun _ => rfl⟩

theorem seggeom_agrees (b : BitVec 4) (s1 s2 : State) :
    OutcomesAgree (.seggeom b) (execSeggeom b s1) (execSeggeom b s2) := by
  unfold execSeggeom seggeomWith
  split_ifs with hb
  · exact outcomesAgree_next ⟨rfl, fun _ => rfl⟩
  · exact outcomesAgree_next (resultsAgree_raise (by decide) nofun nofun)

/-! ### The encoders read TLEN and the characters below it -/

theorem inputChars_congr {n : Nat} (h : ∀ o, o < n → s1.readByte .txt o = s2.readByte .txt o) :
    s1.inputChars n = s2.inputChars n :=
  List.map_congr_left fun o ho => h o (List.mem_range.mp ho)

theorem rawGroups_congr {n : Nat} (h : ∀ o, o < n → s1.readByte .txt o = s2.readByte .txt o) :
    s1.rawGroups (n / 4) = s2.rawGroups (n / 4) := by
  refine List.map_congr_left fun k hk => ?_
  have hk : k < n / 4 := List.mem_range.mp hk
  unfold State.rawGroup
  rw [h (4 * k) (by omega), h (4 * k + 1) (by omega), h (4 * k + 2) (by omega), h (4 * k + 3) (by omega)]

/-- The end of an encoder agrees in any two states: every byte of the label comes from the masks. -/
theorem storeLabel_agrees {r : Except OutcomeKind (List Mask)} (hr : ∀ e, r = .error e → e.code ≠ 0x00#8)
    (encoder : i = .enctext ∨ i = .encraw) (s1 s2 : State) : OutcomesAgree i (storeLabel r s1) (storeLabel r s2) := by
  cases r with
  | error e =>
    refine outcomesAgree_next (resultsAgree_raise (hr e rfl) ?_ ?_)
    · rintro rfl; exact encoder.elim nofun nofun
    · rintro rfl; exact encoder.elim nofun nofun
  | ok ms =>
    have bytes : ∀ o, o < 24 → ((s1.writeLabel (slotValue ms)).finish .ok).readByte .lbl o =
        ((s2.writeLabel (slotValue ms)).finish .ok).readByte .lbl o := by
      intro o ho
      simp only [State.readByte_finish, State.readByte_writeLabel, ho, and_self, if_true]
    rcases encoder with rfl | rfl
    · exact outcomesAgree_next ⟨rfl, fun _ => bytes⟩
    · exact outcomesAgree_next ⟨rfl, fun _ => bytes⟩

theorem encodeChars_error_code {glyph : GlyphTable} {cs : List Byte} {e : OutcomeKind}
    (h : encodeChars glyph cs = .error e) : e.code ≠ 0x00#8 := by
  obtain ⟨rfl, _⟩ := encodeChars_error glyph cs e h
  decide

theorem encodeGroups_error_code {gs : List RawGroup} {e : OutcomeKind} (h : encodeGroups gs = .error e) :
    e.code ≠ 0x00#8 := by
  obtain ⟨_, g, _, _, hg, _⟩ := encodeGroups_error gs e h
  rcases encodeGroup_cases g with ⟨_, e'⟩ | ⟨_, _, _, e'⟩ | ⟨_, _, _, e'⟩ <;> rw [e'] at hg
  · cases hg; decide
  · cases hg; decide
  · cases hg

theorem enctext_agrees (h : ReadsAgree .enctext s1 s2) : OutcomesAgree .enctext (execEnctext s1) (execEnctext s2) := by
  obtain ⟨htlen, htxt⟩ := h
  unfold execEnctext enctextWith
  rw [← htlen, inputChars_congr htxt]
  split_ifs with h12
  · exact outcomesAgree_next (resultsAgree_raise (by decide) nofun nofun)
  · exact storeLabel_agrees (fun _ => encodeChars_error_code) (.inl rfl) s1 s2

theorem encraw_agrees (h : ReadsAgree .encraw s1 s2) : OutcomesAgree .encraw (execEncraw s1) (execEncraw s2) := by
  obtain ⟨htlen, htxt⟩ := h
  unfold execEncraw
  rw [← htlen, rawGroups_congr htxt]
  split_ifs with h96 h4 h12
  · exact outcomesAgree_next (resultsAgree_raise (by decide) nofun nofun)
  · exact outcomesAgree_next (resultsAgree_raise (by decide) nofun nofun)
  · exact outcomesAgree_refused _ _
  · exact storeLabel_agrees (fun _ => encodeGroups_error_code) (.inr rfl) s1 s2

/-! ### DECRENDER reads the twelve slots -/

theorem slot_congr (h : ∀ o, o < 24 → s1.readByte .lbl o = s2.readByte .lbl o) {k : Nat} (hk : k < 12) :
    s1.slot k = s2.slot k := by
  unfold State.slot State.readWord
  rw [h (2 * k) (by omega), h (2 * k + 1) (by omega)]

theorem stampSlots_congr (geom : GeomTable) {v w : Nat → Word} {is : List Nat} (h : ∀ k ∈ is, v k = w k) (m : Memory) :
    stampSlots geom v is m = stampSlots geom w is m := by
  induction is generalizing m with
  | nil => rfl
  | cons k is ih =>
    rw [stampSlots, stampSlots, h k List.mem_cons_self]
    exact ih (fun j hj => h j (List.mem_cons_of_mem _ hj)) _

theorem terminatorColumn_congr {v w : Nat → Word} {is : List Nat} (h : ∀ k ∈ is, v k = w k) (l : Nat) :
    terminatorColumn v is l = terminatorColumn w is l := by
  induction is generalizing l with
  | nil => rfl
  | cons k is ih =>
    rw [terminatorColumn, terminatorColumn, h k List.mem_cons_self]
    exact ih (fun j hj => h j (List.mem_cons_of_mem _ hj)) _

/-- A line is determined by the grid and the line length. -/
theorem line_congr (hg : t1.grid = t2.grid) (hl : t1.llen = t2.llen) (r : Nat) : t1.line r = t2.line r := by
  unfold State.line
  rw [hl]
  exact List.map_congr_left fun x _ => congrArg (Memory.read · _) hg

theorem decrender_agrees (h : ReadsAgree .decrender s1 s2) :
    OutcomesAgree .decrender (execDecrender s1) (execDecrender s2) := by
  have slots : ∀ k ∈ List.range 12, s1.slot k = s2.slot k := fun _ hk => slot_congr h (List.mem_range.mp hk)
  have grid : s1.rendered.grid = s2.rendered.grid := stampSlots_congr _ slots _
  have llen : s1.rendered.llen = s2.rendered.llen := congrArg (BitVec.ofNat 7) (terminatorColumn_congr slots 0)
  exact outcomesAgree_next ⟨rfl, llen, fun r _ => line_congr grid llen r⟩

/-! ### FSRENDER reads its operand registers and the payload -/

/-- The sixteen bytes of the payload are equal. -/
def FspAgree (s t : State) : Prop :=
  ∀ o, o < 16 → s.readByte .fsp o = t.readByte .fsp o

theorem FspAgree.fspReset (h : FspAgree s1 s2) : FspAgree s1.fspReset s2.fspReset := by
  intro o ho
  rw [readFsp_fspReset, readFsp_fspReset, h o ho, h 4 (by decide), h 7 (by decide), h 10 (by decide), h 11 (by decide)]

theorem FspAgree.writeBar (h : FspAgree s1 s2) (bar : Bar) : FspAgree (s1.writeBar bar) (s2.writeBar bar) := by
  intro o ho
  rw [readFsp_writeBar, readFsp_writeBar, h o ho, h 4 (by decide), h 7 (by decide)]

theorem FspAgree.writeDigits (h : FspAgree s1 s2) (d : Digits) : FspAgree (s1.writeDigits d) (s2.writeDigits d) := by
  intro o ho
  rw [readFsp_writeDigits, readFsp_writeDigits, h o ho, h 11 (by decide), h 12 (by decide), h 13 (by decide),
    h 14 (by decide)]

theorem FspAgree.writeUnit (h : FspAgree s1 s2) (tb : Bool) : FspAgree (s1.writeUnit tb) (s2.writeUnit tb) := by
  intro o ho
  rw [readFsp_writeUnit, readFsp_writeUnit, h o ho, h 10 (by decide)]

theorem FspAgree.resultsAgree (h : FspAgree s1 s2) (o : OutcomeKind) :
    ResultsAgree .fsrender (s1.finish o) (s2.finish o) :=
  ⟨rfl, h⟩

theorem fsrender_agrees (h : ReadsAgree .fsrender s1 s2) :
    OutcomesAgree .fsrender (execFsrender s1) (execFsrender s2) := by
  obtain ⟨hfree, htotal, hkbf, hfsp⟩ := h
  have F : s1.freeCount = s2.freeCount := congrArg BitVec.toNat hfree
  have T : s1.totalCount = s2.totalCount := congrArg BitVec.toNat htotal
  have K : s1.unitFactor = s2.unitFactor := congrArg BitVec.toNat hkbf
  have reset : FspAgree s1.fspReset s2.fspReset := FspAgree.fspReset hfsp
  unfold execFsrender
  simp only [F, T, K]
  split_ifs
  · exact outcomesAgree_next (reset.resultsAgree _)
  · exact outcomesAgree_refused _ _
  · exact outcomesAgree_refused _ _
  · exact outcomesAgree_next ((reset.writeBar _).resultsAgree _)
  · exact outcomesAgree_next ((((reset.writeBar _).writeDigits _).writeUnit _).resultsAgree _)

end

/-- Settles O14, one operation after the other. -/
theorem execReadsOnlyItsOperands : Obligations.ExecReadsOnlyItsOperands := by
  intro i s1 s2 h
  show OutcomesAgree i (exec i s1) (exec i s2)
  cases i with
  | charmask c => exact charmask_agrees c s1 s2
  | seggeom b => exact seggeom_agrees b s1 s2
  | enctext => exact enctext_agrees h
  | encraw => exact encraw_agrees h
  | decrender => exact decrender_agrees h
  | fsrender => exact fsrender_agrees h

end Sys2Proof.Machine
end

section
/-! What the constant tables make of CHARMASK and SEGGEOM (R20 to R27, R70). -/

namespace Sys2Proof.Machine

/-! ### CHARMASK of characters with one mask (R23 to R25) -/

/-- The entry of the character k places above 0x20 (R100). -/
theorem charToMask_ofNat (glyph : GlyphTable) {k : Nat} (hk : k < 95) :
    charToMask glyph (BitVec.ofNat 8 (0x20 + k)) = some (glyph ⟨k, hk⟩) := by
  have code : (BitVec.ofNat 8 (0x20 + k)).toNat = 0x20 + k := by
    rw [BitVec.toNat_ofNat]
    exact Nat.mod_eq_of_lt (by omega)
  rw [charToMask, glyphIndex_eq_some (by omega), Option.map_some]
  exact congrArg (fun j => some (glyph j)) (Fin.ext (by simp only [code]; omega))

/-- CHARMASK sees a character only through its mask (R100, R101). -/
theorem exec_charmask_congr {c d : Byte} (h : charToMask Config.glyph c = charToMask Config.glyph d) (s : State) :
    exec (.charmask c) s = exec (.charmask d) s := by
  rw [exec_charmask, exec_charmask, execCharmask, execCharmask, charmaskWith, charmaskWith, h]

/-- Two places of the table with equal masks are two characters with equal CHARMASK. -/
theorem exec_charmask_of_glyph_eq {j k : Nat} (hj : j < 95) (hk : k < 95)
    (h : Config.glyph ⟨j, hj⟩ = Config.glyph ⟨k, hk⟩) (s : State) :
    exec (.charmask (BitVec.ofNat 8 (0x20 + j))) s = exec (.charmask (BitVec.ofNat 8 (0x20 + k))) s :=
  exec_charmask_congr (by rw [charToMask_ofNat _ hj, charToMask_ofNat _ hk, h]) s

/-- Settles O19 from R23, R24 and R25, which the block's table satisfies; s takes R23 to S and R25 to 5. -/
theorem charmaskSharedMasks : Obligations.CharmaskSharedMasks := by
  obtain ⟨letters, paren, five⟩ := admissible_glyph
  have lower (j : Nat) (s : State) (hj : j < 26) :
      exec (.charmask (BitVec.ofNat 8 (0x61 + j))) s = exec (.charmask (BitVec.ofNat 8 (0x41 + j))) s := by
    have h := exec_charmask_of_glyph_eq _ _ (letters j hj) s
    rwa [← Nat.add_assoc, ← Nat.add_assoc] at h
  exact ⟨lower, exec_charmask_of_glyph_eq (by decide) (by decide) paren,
    fun s => ⟨exec_charmask_of_glyph_eq (by decide) (by decide) five s, lower 0x12 s (by decide)⟩⟩

/-! ### The fields of GEO (R70) -/

/-- Each field of a word put together from six, at its bit place. -/
theorem extractLsb'_packed (c2 c1 c0 : Byte) (flen : BitVec 2) (col row : BitVec 3) :
    (c2 ++ (c1 ++ (c0 ++ (flen ++ (col ++ row))))).extractLsb' 0 3 = row ∧
    (c2 ++ (c1 ++ (c0 ++ (flen ++ (col ++ row))))).extractLsb' 3 3 = col ∧
    (c2 ++ (c1 ++ (c0 ++ (flen ++ (col ++ row))))).extractLsb' 6 2 = flen ∧
    (c2 ++ (c1 ++ (c0 ++ (flen ++ (col ++ row))))).extractLsb' 8 8 = c0 ∧
    (c2 ++ (c1 ++ (c0 ++ (flen ++ (col ++ row))))).extractLsb' 16 8 = c1 ∧
    (c2 ++ (c1 ++ (c0 ++ (flen ++ (col ++ row))))).extractLsb' 24 8 = c2 := by
  refine ⟨?_, ?_, ?_, ?_, ?_, ?_⟩
  · iterate 4 rw [BitVec.extractLsb'_append_eq_of_add_le (by decide)]
    exact BitVec.extractLsb'_append_eq_right
  · iterate 4 rw [BitVec.extractLsb'_append_eq_of_add_le (by decide)]
    exact BitVec.extractLsb'_append_eq_left
  · iterate 3 rw [BitVec.extractLsb'_append_eq_of_add_le (by decide)]
    exact BitVec.extractLsb'_append_eq_left
  · iterate 2 rw [BitVec.extractLsb'_append_eq_of_add_le (by decide)]
    exact BitVec.extractLsb'_append_eq_left
  · rw [BitVec.extractLsb'_append_eq_of_add_le (by decide)]
    exact BitVec.extractLsb'_append_eq_left
  · exact BitVec.extractLsb'_append_eq_left

theorem packGeom_fields (g : GeomEntry) :
    (packGeom g).extractLsb' 0 3 = BitVec.ofNat 3 g.row.val ∧
    (packGeom g).extractLsb' 3 3 = BitVec.ofNat 3 g.col.val ∧
    (packGeom g).extractLsb' 6 2 = BitVec.ofNat 2 (Fragment.flen g.frag) ∧
    (packGeom g).extractLsb' 8 8 = (Fragment.chars g.frag).getD 0 0#8 ∧
    (packGeom g).extractLsb' 16 8 = (Fragment.chars g.frag).getD 1 0#8 ∧
    (packGeom g).extractLsb' 24 8 = (Fragment.chars g.frag).getD 2 0#8 :=
  extractLsb'_packed ..

/-- Every character of a fragment is printable (R27, D35). -/
theorem fragment_chars_range {f : Fragment} {c : Byte} (hc : c ∈ Fragment.chars f) :
    0x20 ≤ c.toNat ∧ c.toNat ≤ 0x7E := by
  obtain ⟨p, rfl⟩ : ∃ p, c = printableCode p := by
    cases f <;> simp only [Fragment.chars, List.mem_cons, List.not_mem_nil, or_false] at hc
    · exact ⟨_, hc⟩
    · exact hc.elim (⟨_, ·⟩) (⟨_, ·⟩)
    · exact hc.elim (⟨_, ·⟩) (·.elim (⟨_, ·⟩) (⟨_, ·⟩))
  exact printableCode_range p

/-- SEGGEOM of a segment bit (R103). -/
theorem exec_seggeom_of_lt {b : BitVec 4} (h : b.toNat < 14) (s : State) :
    exec (.seggeom b) s = .next (({ s with geo := packGeom (Config.geom ⟨b.toNat, h⟩) } : State).finish .ok) := by
  rw [exec_seggeom, execSeggeom, seggeomWith, dif_pos h]

/-- Settles O21: the packed entry's fields, and the ranges its type carries. -/
theorem geoFields : Obligations.GeoFields := by
  intro b s h
  refine ⟨_, exec_seggeom_of_lt h s, ?_⟩
  generalize Config.geom ⟨b.toNat, h⟩ = g
  obtain ⟨row, col, flen, c0, c1, c2⟩ := packGeom_fields g
  have pos : 1 ≤ (Fragment.chars g.frag).length := fragment_flen_pos g.frag
  have le3 : (Fragment.chars g.frag).length ≤ 3 := fragment_flen_le g.frag
  have first : (Fragment.chars g.frag)[0]? = some ((packGeom g).extractLsb' 8 8) := by
    rw [c0, List.getD_eq_getElem _ _ pos, List.getElem?_eq_getElem pos]
  have length : ((packGeom g).extractLsb' 6 2).toNat = (Fragment.chars g.frag).length := by
    rw [flen, BitVec.toNat_ofNat]
    exact Nat.mod_eq_of_lt (by unfold Fragment.flen; omega)
  exact ⟨row, col, length, first, c1.trans List.getD_eq_getElem?_getD, c2.trans List.getD_eq_getElem?_getD, pos, le3,
    Nat.le_of_lt_succ g.row.isLt, Nat.le_of_lt_succ g.col.isLt, fun _ => fragment_chars_range⟩

end Sys2Proof.Machine
end

section
/-! Where DECRENDER cuts the five lines, and what it writes (R130, R136). -/

namespace Sys2Proof.Machine

theorem terminatorColumn_append (value : Nat → Word) (is js : List Nat) (l : Nat) :
    terminatorColumn value (is ++ js) l = terminatorColumn value js (terminatorColumn value is l) := by
  induction is generalizing l with
  | nil => rfl
  | cons i is ih => exact ih _

/-- One slot more moves the column if it is not blank. -/
theorem terminatorColumn_range_succ (value : Nat → Word) (n : Nat) :
    terminatorColumn value (List.range (n + 1)) 0 =
      if value n = 0#16 then terminatorColumn value (List.range n) 0 else 6 * n + 5 := by
  rw [List.range_succ, terminatorColumn_append]
  rfl

theorem terminatorColumn_of_blank {value : Nat → Word} {n : Nat} (h : ∀ i, i < n → value i = 0#16) :
    terminatorColumn value (List.range n) 0 = 0 := by
  induction n with
  | zero => rfl
  | succ n ih =>
    rw [terminatorColumn_range_succ, if_pos (h n (Nat.lt_succ_self n))]
    exact ih fun i hi => h i (Nat.lt_succ_of_lt hi)

theorem terminatorColumn_of_last {value : Nat → Word} {n last : Nat} (hlast : last < n) (hne : value last ≠ 0#16)
    (h : ∀ i, last < i → i < n → value i = 0#16) : terminatorColumn value (List.range n) 0 = 6 * last + 5 := by
  induction n with
  | zero => exact absurd hlast (Nat.not_lt_zero last)
  | succ n ih =>
    rw [terminatorColumn_range_succ]
    rcases Nat.lt_succ_iff_lt_or_eq.mp hlast with lt | rfl
    · rw [if_pos (h n lt (Nat.lt_succ_self n))]
      exact ih lt fun i hi hin => h i hi (Nat.lt_succ_of_lt hin)
    · rw [if_neg hne]

/-- The column after all twelve slots is the one R136 describes. -/
theorem terminatesAt_terminatorColumn (value : Nat → Word) :
    TerminatesAt value (terminatorColumn value (List.range 12) 0) :=
  ⟨terminatorColumn_of_blank, fun _ => terminatorColumn_of_last⟩

theorem length_line (s : State) (r : Nat) : (s.line r).length = s.llen.toNat := by
  rw [State.line, List.length_map, List.length_range]

/-- DECRENDER replaces no space but GRID. -/
theorem onlySpaceWritten_rendered (s : State) : OnlySpaceWritten .grid s (s.rendered.finish .ok) := by
  refine ⟨⟨rfl, rfl, rfl, rfl⟩, ⟨rfl, rfl, rfl⟩, fun sp hsp => spaceKept_of_space_eq ?_⟩
  cases sp with
  | grid => exact absurd rfl hsp
  | _ => rfl

/-- Past its 365 bytes GRID lists nothing before and after DECRENDER. -/
theorem readByte_rendered_past {s : State} (hs : s.memoryWf = true) {o : Nat} (ho : 365 ≤ o) :
    s.rendered.readByte .grid o = s.readByte .grid o :=
  (Memory.read_of_size_le (wf_rendered_grid s) ho).trans
    (Memory.read_of_size_le ((State.memoryWf_iff s).mp hs .grid) ho).symm

/-- Settles O32 from the terminator column, the frame of DECRENDER and the canonical form. -/
theorem decrenderTerminator : Obligations.DecrenderTerminator := by
  intro s
  refine ⟨_, exec_decrender_eq s, rfl, ?_, fun r _ => length_line _ r, onlySpaceWritten_rendered s,
    fun hs _ => readByte_rendered_past hs, rfl, rfl⟩
  rw [State.finish_llen, rendered_llen_toNat]
  exact terminatesAt_terminatorColumn s.slot

/-- Settles O34: DECRENDER keeps the label, so on its own result it answers that very state. -/
theorem decrenderIdempotent : Obligations.DecrenderIdempotent := by
  intro s t h
  obtain rfl := next_inj ((exec_decrender_eq s).symm.trans h)
  have fixed : exec .decrender (s.rendered.finish .ok) = .next (s.rendered.finish .ok) := exec_decrender_eq _
  exact ⟨_, fixed, rfl, rfl, fun _ _ => rfl⟩

end Sys2Proof.Machine
end

section
/-! The step, reset and the host's registers (R10 to R15, R30, R82, R85, R212). -/

namespace Sys2Proof.Machine

/-! ### The step -/

theorem issueCommand_of_decode_ok {w : Word} {i : Instr} (h : decode w = .ok i) (s : State) :
    issueCommand w s = exec i s := by
  unfold issueCommand
  rw [h]

theorem issueCommand_of_decode_error {w : Word} {e : IllegalWord} (h : decode w = .error e) (s : State) :
    issueCommand w s = .next (s.raise .illegalCommand) := by
  unfold issueCommand
  rw [h]

/-- Settles O7: the step performs the command, and the command is what the word decodes to. -/
theorem stepRunsDecodedInstruction : Obligations.StepRunsDecodedInstruction := by
  intro s w rest hp
  have performs : step s = issueCommand w { s with pending := rest } := step_of_pending hp
  exact ⟨fun i h => performs.trans (issueCommand_of_decode_ok h _),
    fun e h => performs.trans (issueCommand_of_decode_error h _)⟩

/-- Settles O8 by the idle step. -/
theorem stepIdleHoldsState : Obligations.StepIdleHoldsState :=
  fun _ => step_of_idle

/-! ### Reset -/

theorem memoryWf_reset : State.reset.memoryWf = true :=
  (State.memoryWf_iff _).mpr fun sp => by cases sp <;> exact Memory.wf_nil _

/-- Settles O10: no space lists a byte, and STATUS is as an operation that ends in OK leaves it. -/
theorem resetHasInvariant : Obligations.ResetHasInvariant :=
  inv_finish (s := State.reset) .ok memoryWf_reset

theorem hostAct_reset (s : State) : hostAct .reset s = .next s.resetEvent := rfl

/-- Settles O11: a reset event has one answer, which names STATUS and keeps the host's lists. -/
theorem resetStatusIsZero : Obligations.ResetStatusIsZero :=
  ⟨rfl, fun s => ⟨_, hostAct_reset s, rfl, rfl, rfl⟩⟩

/-! ### Registers -/

/-- Settles O47: each SET is one update of its register. -/
theorem hostSetsOperandRegister : Obligations.HostSetsOperandRegister :=
  fun _ => ⟨fun _ => rfl, fun _ => rfl, fun _ => rfl, fun _ => rfl⟩

/-- A GET appends the register's value, and nothing else happens (R44; entry 17). -/
theorem hostAct_getReg (r : Reg) (s : State) :
    hostAct (.getReg r) s = .next { s with received := s.received ++ [s.reg r] } := rfl

/-- Settles O57, register by register. -/
theorem hostReadsRegister : Obligations.HostReadsRegister :=
  fun s => ⟨hostAct_getReg .res s, hostAct_getReg .geo s, hostAct_getReg .llen s, hostAct_getReg .status s,
    hostAct_getReg .free s, hostAct_getReg .total s, hostAct_getReg .kbf s, hostAct_getReg .tlen s⟩

end Sys2Proof.Machine
end

section
/-! The bit primitive and the host's accesses to the four spaces (20_memory.md R40 to R47). -/

namespace Sys2Proof.Machine

/-! ### The bit primitive (R46, R47) -/

/-- GetBit after SetBit: the two meet only at the same bit of the same byte of the same space. -/
theorem State.getBit_setBit (s : State) (sp sp' : Space) (o o' k : Nat) (v : Bool) {b : Nat} (hb : b < 8) :
    (s.setBit sp o b v).getBit sp' o' k = if sp' = sp ∧ o' = o ∧ k = b then v else s.getBit sp' o' k := by
  unfold State.getBit
  rw [State.readByte_setBit]
  by_cases place : sp' = sp ∧ o' = o
  · obtain ⟨rfl, rfl⟩ := place
    rw [if_pos ⟨rfl, rfl⟩, getLsbD_setBitOf _ _ _ _ hb]
    simp only [true_and]
  · rw [if_neg place, if_neg fun ⟨hsp, ho, _⟩ => place ⟨hsp, ho⟩]

/-- Settles O17 by GetBit after SetBit. -/
theorem setBitChangesOneBit : Obligations.SetBitChangesOneBit :=
  fun s sp o _ v hb sp' o' k => s.getBit_setBit sp sp' o o' k v hb

/-! ### Locations inside and outside a space (R40 to R44) -/

theorem address_txt_of_lt {o : Nat} (h : o < 96) : Loc.address (.txt o) = some (.txt, o) :=
  (address_txt o).trans (if_pos h)

theorem address_txt_of_le {o : Nat} (h : 96 ≤ o) : Loc.address (.txt o) = none :=
  (address_txt o).trans (if_neg (Nat.not_lt.mpr h))

theorem address_lbl_of_lt {o : Nat} (h : o < 24) : Loc.address (.lbl o) = some (.lbl, o) :=
  (address_lbl o).trans (if_pos h)

theorem address_lbl_of_le {o : Nat} (h : 24 ≤ o) : Loc.address (.lbl o) = none :=
  (address_lbl o).trans (if_neg (Nat.not_lt.mpr h))

theorem address_fsp_of_lt {o : Nat} (h : o < 16) : Loc.address (.fsp o) = some (.fsp, o) :=
  (address_fsp o).trans (if_pos h)

theorem address_fsp_of_le {o : Nat} (h : 16 ≤ o) : Loc.address (.fsp o) = none :=
  (address_fsp o).trans (if_neg (Nat.not_lt.mpr h))

theorem address_grid_of_lt {r x : Nat} (hr : r < 5) (hx : x < 73) :
    Loc.address (.grid r x) = some (.grid, gridOffset r x) :=
  (address_grid r x).trans (if_pos ⟨hr, hx⟩)

theorem address_grid_of_le {r x : Nat} (h : 5 ≤ r ∨ 73 ≤ x) : Loc.address (.grid r x) = none :=
  (address_grid r x).trans (if_neg (by omega))

/-! ### Host writes (R44) -/

theorem hostAct_put_outside {l : Loc} (h : Loc.address l = none) (b : Byte) (s : State) :
    hostAct (.put l b) s = .refused .accessOutsideSpace := by
  rw [hostAct, hostPut, h]

theorem hostAct_put_grid {l : Loc} {o : Nat} (h : Loc.address l = some (.grid, o)) (b : Byte) (s : State) :
    hostAct (.put l b) s = .refused .hostWriteToGrid := by
  rw [hostAct, hostPut, h]

theorem hostAct_put_inside {l : Loc} {sp : Space} {o : Nat} (h : Loc.address l = some (sp, o)) (hsp : sp ≠ .grid)
    (b : Byte) (s : State) : hostAct (.put l b) s = .next (s.writeByte sp o b) := by
  rw [hostAct, hostPut, h]
  cases sp with
  | grid => exact absurd rfl hsp
  | txt => rfl
  | lbl => rfl
  | fsp => rfl

/-- A byte write changes its byte and nothing else (R51). -/
theorem byteStored_writeByte (sp : Space) (o : Nat) (b : Byte) (s : State) : ByteStored sp o b s (s.writeByte sp o b) := by
  refine ⟨fun sp' o' => s.readByte_writeByte sp sp' o o' b, ?_⟩
  cases sp <;> exact ⟨⟨rfl, rfl, rfl, rfl⟩, ⟨rfl, rfl, rfl⟩, ⟨rfl, rfl, rfl⟩, rfl⟩

/-- A host write to a location of TXT, LBL or FSP stores its byte. -/
theorem hostAct_put_byteStored {l : Loc} {sp : Space} {o : Nat} (h : Loc.address l = some (sp, o)) (hsp : sp ≠ .grid)
    (b : Byte) (s : State) : ∃ t, hostAct (.put l b) s = .next t ∧ ByteStored sp o b s t :=
  ⟨_, hostAct_put_inside h hsp b s, byteStored_writeByte sp o b s⟩

/-- Settles O48: what a host write does depends on the location's address alone. -/
theorem hostWriteStoresOneByte : Obligations.HostWriteStoresOneByte := fun b s =>
  ⟨fun _ => ⟨fun h => hostAct_put_byteStored (address_txt_of_lt h) (by decide) b s,
      fun h => hostAct_put_outside (address_txt_of_le h) b s⟩,
    fun _ => ⟨fun h => hostAct_put_byteStored (address_lbl_of_lt h) (by decide) b s,
      fun h => hostAct_put_outside (address_lbl_of_le h) b s⟩,
    fun _ => ⟨fun h => hostAct_put_byteStored (address_fsp_of_lt h) (by decide) b s,
      fun h => hostAct_put_outside (address_fsp_of_le h) b s⟩,
    fun _ _ => ⟨fun hr hx => hostAct_put_grid (address_grid_of_lt hr hx) b s,
      fun h => hostAct_put_outside (address_grid_of_le h) b s⟩⟩

/-! ### Host reads (R44) -/

theorem hostAct_get_outside {l : Loc} (h : Loc.address l = none) (s : State) :
    hostAct (.get l) s = .refused .accessOutsideSpace := by
  rw [hostAct, hostGet, h]

theorem hostAct_get_inside {l : Loc} {sp : Space} {o : Nat} (h : Loc.address l = some (sp, o)) (s : State) :
    hostAct (.get l) s = .next { s with received := s.received ++ [(s.readByte sp o).setWidth 64] } := by
  rw [hostAct, hostGet, h]
  rfl

/-- Settles O49: what a host read answers depends on the location's address alone. -/
theorem hostReadChangesNothing : Obligations.HostReadChangesNothing := fun s =>
  ⟨fun _ => ⟨fun h => hostAct_get_inside (address_txt_of_lt h) s, fun h => hostAct_get_outside (address_txt_of_le h) s⟩,
    fun _ => ⟨fun h => hostAct_get_inside (address_lbl_of_lt h) s, fun h => hostAct_get_outside (address_lbl_of_le h) s⟩,
    fun _ => ⟨fun h => hostAct_get_inside (address_fsp_of_lt h) s, fun h => hostAct_get_outside (address_fsp_of_le h) s⟩,
    fun _ _ => ⟨fun hr hx => hostAct_get_inside (address_grid_of_lt hr hx) s,
      fun h => hostAct_get_outside (address_grid_of_le h) s⟩⟩

end Sys2Proof.Machine
end

section
/-! The transport calls of the page operations (R53, R176 to R182). -/

namespace Sys2Proof.Machine

/-- The calls of an operation on a diagnostic page from its read on: that read, and at most one write (R180). -/
def ReadThenAtMostOneSend (code : Nat) (r : PageRun) : Prop :=
  r.calls = [pageRead code] ∨ ∃ b, r.calls = [pageRead code, .sendDiagnostic b]

theorem readThenAtMostOneSend_endAfterRead (code : Nat) (result : PageResult) (s : State) :
    ReadThenAtMostOneSend code (endAfterRead code result s) :=
  Or.inl (endAfterRead_calls code result s)

theorem readThenAtMostOneSend_sendIfChanged (t : Transport) (code : Nat) (buf : Buffer) (o : Nat)
    (current new : List Byte) (shown : List (List Byte)) (s : State) :
    ReadThenAtMostOneSend code (sendIfChanged t code buf o current new shown s) := by
  rcases sendIfChanged_cases t code buf o current new shown s with ⟨_, _, calls⟩ | ⟨_, _, calls⟩
  · exact Or.inl calls
  · exact Or.inr ⟨_, calls⟩

/-- The label instance from its read on: the page is refused, the copied label is refused, or the label is shown or sent. -/
theorem readThenAtMostOneSend_labelExchange (new : Option (List Byte)) (t : Transport) (s : State) :
    ReadThenAtMostOneSend 0x87 (labelExchange new t s) := by
  unfold labelExchange
  cases receivePage t 0x87 with
  | none => exact readThenAtMostOneSend_endAfterRead ..
  | some buf =>
    dsimp only
    split_ifs
    · exact readThenAtMostOneSend_endAfterRead ..
    · exact readThenAtMostOneSend_endAfterRead ..
    · split
      · exact readThenAtMostOneSend_endAfterRead ..
      · exact Or.inl rfl
      · exact readThenAtMostOneSend_sendIfChanged ..

/-- The label instance: an encoding that fails or is refused makes no call (R185); otherwise the exchange begins. -/
theorem calls_labelPageOperation (new : Option LabelInput) (t : Transport) (s : State) :
    (labelPageOperation new t s).calls = [] ∨ ReadThenAtMostOneSend 0x87 (labelPageOperation new t s) := by
  unfold labelPageOperation
  cases new with
  | none => exact Or.inr (readThenAtMostOneSend_labelExchange ..)
  | some l =>
    dsimp only
    split
    · exact Or.inl rfl
    · split_ifs
      · exact Or.inr (readThenAtMostOneSend_labelExchange ..)
      · exact Or.inl rfl

/-- FSRENDER refused, FSRENDER overflowing (R186), or its payload sent if it differs (R180). -/
theorem readThenAtMostOneSend_freeSpaceRender (operands : List HostAction) (t : Transport) (buf : Buffer)
    (current : List Byte) (s : State) :
    ReadThenAtMostOneSend 0x86 (freeSpaceRender operands t buf current s) := by
  unfold freeSpaceRender
  dsimp only
  split
  · exact readThenAtMostOneSend_endAfterRead ..
  · split
    · exact readThenAtMostOneSend_endAfterRead ..
    · exact readThenAtMostOneSend_sendIfChanged ..

/-- The free-space instance: every end before FSRENDER is one after the read. -/
theorem readThenAtMostOneSend_freeSpacePageOperation (new : Option StatReply) (kbf : BitVec 16) (t : Transport)
    (s : State) : ReadThenAtMostOneSend 0x86 (freeSpacePageOperation new kbf t s) := by
  unfold freeSpacePageOperation
  cases receivePage t 0x86 with
  | none => exact readThenAtMostOneSend_endAfterRead ..
  | some buf =>
    dsimp only
    split_ifs
    · exact readThenAtMostOneSend_endAfterRead ..
    · exact readThenAtMostOneSend_endAfterRead ..
    · cases new with
      | none => exact readThenAtMostOneSend_endAfterRead ..
      | some reply =>
        dsimp only
        cases statActions kbf reply with
        | none => exact readThenAtMostOneSend_endAfterRead ..
        | some operands => exact readThenAtMostOneSend_freeSpaceRender ..

/-- ModePageFlagOperation: only a flag that differs from its target is written back (R178). -/
theorem calls_modePageFlagOperation (p : FlagPage) (target : Option Bool) (t : Transport) :
    (modePageFlagOperation p target t).calls = [.modeSense p.code] ∨
      ∃ b, (modePageFlagOperation p target t).calls = [.modeSense p.code, .modeSelect b] := by
  unfold modePageFlagOperation
  cases t.modeSense p.code with
  | none => exact Or.inl rfl
  | some buf =>
    dsimp only
    split_ifs
    · exact Or.inl rfl
    · split
      · exact Or.inl rfl
      · exact Or.inl rfl
      · split_ifs
        · exact Or.inl rfl
        · cases flagWriteBack p buf _ with
          | none => exact Or.inl rfl
          | some b => exact Or.inr ⟨b, rfl⟩

/-- Settles O60, one operation after the other. -/
theorem oneReadThenAtMostOneWrite : Obligations.OneReadThenAtMostOneWrite :=
  fun t s => ⟨fun new => calls_labelPageOperation new t s,
    fun new kbf => readThenAtMostOneSend_freeSpacePageOperation new kbf t s,
    fun p target => calls_modePageFlagOperation p target t⟩

end Sys2Proof.Machine
end

section
/-! The decoder and the encoder are inverse to each other (30_encoding.md R80 to R84): every row of the opcode map
determines its words, no two rows share a word, and the field checks accept the words the rows do. Then what the host
does with them: issue a word, and branch on the outcome (R82, R85). -/

namespace Sys2Proof

/-! ### The rows of the opcode map (R81) -/

theorem OpcodeRow.isMatch_iff (r : OpcodeRow) (w : Word) : r.isMatch w = true ↔ w &&& r.mask = r.value :=
  beq_iff_eq

/-- Two rows that ask different things of a bit both look at have no word in common. -/
theorem not_isMatch_of_isMatch {r q : OpcodeRow} (clash : r.value &&& q.mask ≠ q.value &&& r.mask) {w : Word}
    (hr : r.isMatch w = true) : ¬ q.isMatch w = true := by
  intro hq
  rw [OpcodeRow.isMatch_iff] at hr hq
  apply clash
  calc r.value &&& q.mask = w &&& r.mask &&& q.mask := by rw [hr]
    _ = w &&& q.mask &&& r.mask := by rw [BitVec.and_assoc, BitVec.and_comm r.mask, BitVec.and_assoc]
    _ = q.value &&& r.mask := by rw [hq]

/-- Any two rows of the opcode map clash in this way. -/
theorem opcodeRows_clash : opcodeRows.Pairwise fun r q => r.value &&& q.mask ≠ q.value &&& r.mask := by
  decide

/-- Settles O4: the rows clash pairwise. -/
theorem opcodeRowsDisjoint : Obligations.OpcodeRowsDisjoint :=
  fun _ => opcodeRows_clash.imp fun clash ⟨hr, hq⟩ => not_isMatch_of_isMatch clash hr hq

/-- A word whose upper bits are v is v and its own lower bits. -/
theorem append_extractLsb'_of_masked {n m : Nat} {w : BitVec (n + m)} {v : BitVec n}
    (h : w &&& (BitVec.allOnes n ++ 0#m) = v ++ 0#m) : v ++ w.extractLsb' 0 m = w := by
  have upper : w.extractLsb' m n = v := by
    rw [← BitVec.extractLsb'_append_extractLsb' (x := w), BitVec.and_append, BitVec.and_allOnes, BitVec.and_zero,
      BitVec.append_left_inj] at h
    exact h
  rw [← upper, BitVec.extractLsb'_append_extractLsb']

theorem encode_charmask_of_isMatch {w : Word} (h : rowCharmask.isMatch w = true) :
    encode (.charmask (w.extractLsb' 0 8)) = w :=
  append_extractLsb'_of_masked (n := 8) (m := 8) ((OpcodeRow.isMatch_iff _ w).mp h)

theorem encode_seggeom_of_isMatch {w : Word} (h : rowSeggeom.isMatch w = true) :
    encode (.seggeom (w.extractLsb' 0 4)) = w :=
  append_extractLsb'_of_masked (n := 12) (m := 4) ((OpcodeRow.isMatch_iff _ w).mp h)

/-- A row that fixes every bit has one word. -/
theorem value_eq_of_isMatch {r : OpcodeRow} (full : r.mask = BitVec.allOnes 16) {w : Word} (h : r.isMatch w = true) :
    r.value = w := by
  rw [OpcodeRow.isMatch_iff, full, BitVec.and_allOnes] at h
  exact h.symm

/-! ### Decoder and encoder -/

/-- Settles O2, branch by branch of the decoder: the row that matched gives the word back. -/
theorem encodeOfDecode : Obligations.EncodeOfDecode := by
  intro w i h
  unfold decode at h
  split_ifs at h with charmask seggeom enctext encraw decrender fsrender
  all_goals obtain rfl := Except.ok.inj h
  · exact encode_charmask_of_isMatch charmask
  · exact encode_seggeom_of_isMatch seggeom
  · exact value_eq_of_isMatch rfl enctext
  · exact value_eq_of_isMatch rfl encraw
  · exact value_eq_of_isMatch rfl decrender
  · exact value_eq_of_isMatch rfl fsrender

theorem decode_charmask (c : Byte) : decode (encode (.charmask c)) = .ok (.charmask c) := by
  have row : rowCharmask.isMatch (encode (.charmask c)) = true := Laws.EncodingMatchesRow.charmask c
  have operand : (encode (.charmask c)).extractLsb' 0 8 = c := BitVec.extractLsb'_append_eq_right
  rw [decode, if_pos row, operand]

/-- The word of SEGGEOM is none of CHARMASK's, whose row is asked first. -/
theorem decode_seggeom (b : BitVec 4) : decode (encode (.seggeom b)) = .ok (.seggeom b) := by
  have row : rowSeggeom.isMatch (encode (.seggeom b)) = true := Laws.EncodingMatchesRow.seggeom b
  have operand : (encode (.seggeom b)).extractLsb' 0 4 = b := BitVec.extractLsb'_append_eq_right
  rw [decode, if_neg (not_isMatch_of_isMatch (by decide) row), if_pos row, operand]

theorem decode_encode (i : Instr) : decode (encode i) = .ok i := by
  cases i with
  | charmask c => exact decode_charmask c
  | seggeom b => exact decode_seggeom b
  | enctext => rfl
  | encraw => rfl
  | decrender => rfl
  | fsrender => rfl

/-- The words that decode to an operation: its encoding and no other. -/
theorem decode_eq_ok_iff {w : Word} {i : Instr} : decode w = .ok i ↔ encode i = w :=
  ⟨encodeOfDecode w i, fun h => h ▸ decode_encode i⟩

/-- Settles O5: each word is an operation's encoding. -/
theorem writtenWordsDecode : Obligations.WrittenWordsDecode :=
  ⟨decode_encode (.charmask 0x41#8), decode_encode (.seggeom 13#4), decode_encode .enctext, decode_encode .encraw,
    decode_encode .decrender, decode_encode .fsrender⟩

/-! ### Commands as fields (R80, R82) -/

/-- The legal commands, field by field in numbers. -/
theorem Cmd16.wellFormed_iff (c : Cmd16) : c.wellFormed = true ↔
    c.z.toNat = 0 ∧ (c.op.toNat = 1 ∨ (c.op.toNat = 2 ∧ c.arg.toNat < 16) ∨
      (3 ≤ c.op.toNat ∧ c.op.toNat ≤ 6 ∧ c.arg.toNat = 0)) := by
  have op1 : c.op = 1#4 ↔ c.op.toNat = 1 := BitVec.toNat_inj.symm
  have op2 : c.op = 2#4 ↔ c.op.toNat = 2 := BitVec.toNat_inj.symm
  have z0 : c.z = 0#4 ↔ c.z.toNat = 0 := BitVec.toNat_inj.symm
  have arg0 : c.arg = 0#8 ↔ c.arg.toNat = 0 := BitVec.toNat_inj.symm
  unfold Cmd16.wellFormed Cmd16.opAssigned Cmd16.zClear Cmd16.argAllowed
  simp only [Bool.and_eq_true, decide_eq_true_eq, beq_iff_eq, z0, op1, op2]
  split_ifs with h1 h2
  · simp only [and_true]
    omega
  · simp only [decide_eq_true_eq]
    omega
  · simp only [beq_iff_eq, arg0]
    omega

theorem Instr.wellFormed_eq_true (i : Instr) : i.wellFormed = true := by
  refine (Cmd16.wellFormed_iff i.form).mpr ?_
  cases i with
  | seggeom b =>
    have arg : (b.setWidth 8).toNat < 16 := by
      rw [BitVec.toNat_setWidth_of_le (by decide)]
      exact b.isLt
    exact ⟨rfl, .inr (.inl ⟨rfl, arg⟩)⟩
  | charmask c => exact ⟨rfl, .inl rfl⟩
  | _ => exact ⟨rfl, .inr (.inr (by decide))⟩

/-- A legal command is an operation's. -/
theorem Cmd16.exists_form_of_wellFormed {c : Cmd16} (h : c.wellFormed = true) : ∃ i : Instr, i.form = c := by
  obtain ⟨op, z, arg⟩ := c
  obtain ⟨hz, hop⟩ := (Cmd16.wellFormed_iff _).mp h
  obtain rfl : z = 0#4 := BitVec.eq_of_toNat_eq hz
  rcases hop with h1 | ⟨h2, harg⟩ | ⟨h3, h6, harg⟩
  · obtain rfl : op = 1#4 := BitVec.eq_of_toNat_eq h1
    exact ⟨.charmask arg, rfl⟩
  · obtain rfl : op = 2#4 := BitVec.eq_of_toNat_eq h2
    have widened : (arg.setWidth 4).setWidth 8 = arg := by
      apply BitVec.eq_of_toNat_eq
      rw [BitVec.toNat_setWidth_of_le (by decide), BitVec.toNat_setWidth]
      exact Nat.mod_eq_of_lt harg
    exact ⟨.seggeom (arg.setWidth 4), by rw [Instr.form, widened]⟩
  · obtain rfl : arg = 0#8 := BitVec.eq_of_toNat_eq harg
    have codes : op = 3#4 ∨ op = 4#4 ∨ op = 5#4 ∨ op = 6#4 := by
      dsimp only at h3 h6
      simp only [← BitVec.toNat_inj, BitVec.toNat_ofNat, Nat.reducePow, Nat.reduceMod]
      omega
    rcases codes with rfl | rfl | rfl | rfl
    · exact ⟨.enctext, rfl⟩
    · exact ⟨.encraw, rfl⟩
    · exact ⟨.decrender, rfl⟩
    · exact ⟨.fsrender, rfl⟩

theorem Cmd16.ofWord_toWord (c : Cmd16) : Cmd16.ofWord c.toWord = c := by
  obtain ⟨op, z, arg⟩ := c
  have hop : ((op ++ z) ++ arg).extractLsb' 12 4 = op := by
    rw [BitVec.extractLsb'_append_eq_of_le (by decide)]
    exact BitVec.extractLsb'_append_eq_left
  have hz : ((op ++ z) ++ arg).extractLsb' 8 4 = z := by
    rw [BitVec.extractLsb'_append_eq_of_le (by decide)]
    exact BitVec.extractLsb'_append_eq_right
  have harg : ((op ++ z) ++ arg).extractLsb' 0 8 = arg := BitVec.extractLsb'_append_eq_right
  rw [Cmd16.ofWord, Cmd16.toWord, hop, hz, harg]

theorem Cmd16.toWord_ofWord (w : Word) : (Cmd16.ofWord w).toWord = w := by
  unfold Cmd16.ofWord Cmd16.toWord
  rw [BitVec.extractLsb'_append_extractLsb'_eq_extractLsb' (by decide)]
  exact BitVec.extractLsb'_append_extractLsb' (w := 8) (len := 8)

/-- The encoder's patterns are the operation's fields in a row (R80, R81). -/
theorem Instr.toWord_form (i : Instr) : i.form.toWord = encode i := by
  cases i with
  | charmask c => exact congrArg (· ++ c) (show 1#4 ++ 0#4 = 0b00010000#8 by decide)
  | seggeom b =>
    have operand : b.setWidth 8 = 0#4 ++ b := BitVec.setWidth_eq_append (by decide)
    calc (2#4 ++ 0#4) ++ b.setWidth 8
      _ = (2#4 ++ 0#4) ++ (0#4 ++ b) := by rw [operand]
      _ = ((2#4 ++ 0#4) ++ 0#4) ++ b := BitVec.append_assoc'
      _ = 0b001000000000#12 ++ b := congrArg (· ++ b) (by decide)
  | _ => rfl

theorem encode_eq_iff_form {i : Instr} {w : Word} : encode i = w ↔ i.form = Cmd16.ofWord w := by
  rw [← Instr.toWord_form]
  constructor
  · rintro rfl
    exact (Cmd16.ofWord_toWord _).symm
  · intro h
    rw [h, Cmd16.toWord_ofWord]

/-- Settles O1 from the legality of every operation and the decoder's rows. -/
theorem decodeOfEncode : Obligations.DecodeOfEncode :=
  fun i => ⟨i.wellFormed_eq_true, decode_encode i⟩

/-- Settles O3: both say that the word's fields are those of an operation. -/
theorem decodeAcceptsWellFormedWords : Obligations.DecodeAcceptsWellFormedWords := by
  intro w
  simp only [decode_eq_ok_iff, encode_eq_iff_form]
  constructor
  · rintro ⟨i, form⟩
    rw [← form]
    exact i.wellFormed_eq_true
  · exact Cmd16.exists_form_of_wellFormed

end Sys2Proof

namespace Sys2Proof.Machine

/-- Settles O6: the illegal words are those whose fields fail the checks, which decode to nothing; SEGGEOM 14 and 15 are
encodings, whose operand has no entry. -/
theorem illegalWordWritesStatusOnly : Obligations.IllegalWordWritesStatusOnly := by
  intro w s op z arg illegal
  have fields : (Cmd16.ofWord w).wellFormed = true ↔
      z = 0 ∧ (op = 1 ∨ (op = 2 ∧ arg < 16) ∨ (3 ≤ op ∧ op ≤ 6 ∧ arg = 0)) := Cmd16.wellFormed_iff _
  have legal : (∃ i, decode w = .ok i) ↔ ¬ illegal := by
    rw [decodeAcceptsWellFormedWords w, fields]
    omega
  refine ⟨fun bad => ?_, legal.mpr, fun b hb => ?_⟩
  · rcases issueCommand_cases w s with ⟨i, decoded, _⟩ | ⟨_, _, answer⟩
    · exact absurd bad (legal.mp ⟨i, decoded⟩)
    · exact answer
  · rcases execSeggeom_cases b s with ⟨lt, _⟩ | ⟨_, answer⟩
    · exact absurd hb (Nat.not_le.mpr lt)
    · exact (issueCommand_of_decode_ok (decode_encode (.seggeom b)) s).trans answer

/-! ### The host's branch (R85) -/

/-- A branch drops actions from the list, or does nothing. -/
theorem hostAct_skipIf (equal : Bool) (code : Byte) (n : Nat) (s : State) :
    hostAct (.skipIf equal code n) s =
      .next (if (s.status = code ↔ equal = true) then { s with pending := s.pending.drop n } else s) := by
  have test : decide (s.status = code) = equal ↔ (s.status = code ↔ equal = true) := by
    rw [Bool.eq_iff_iff, decide_eq_true_eq]
  simp only [hostAct, test]

/-- Settles O58 by the branch on the state that is left when it is taken off the list. -/
theorem hostBranchesOnStatus : Obligations.HostBranchesOnStatus := by
  intro s equal code n rest hp
  rw [step_of_pending hp, hostAct_skipIf]
  refine ⟨fun skips => congrArg _ (if_pos skips), fun stays => congrArg _ (if_neg fun skips => ?_)⟩
  exact absurd (stays.symm.trans skips) (by cases equal <;> decide)

end Sys2Proof.Machine
end

section
/-! Raw hexadecimal groups (30_encoding.md R63) and the first group that ENCRAW refuses (41_label_encode.md R120,
R122). -/

namespace Sys2Proof.Machine

/-! ### Digits and groups (R63) -/

/-- The digits and their characters, range by range. -/
theorem hexDigit_eq_some_iff (c : Byte) (d : Nat) : hexDigit c = some d ↔
    (d ≤ 9 ∧ c.toNat = 0x30 + d) ∨
    (10 ≤ d ∧ d ≤ 15 ∧ (c.toNat = 0x41 + (d - 10) ∨ c.toNat = 0x61 + (d - 10))) := by
  unfold hexDigit
  dsimp only
  split_ifs with decimal upper lower
  · rw [Option.some.injEq]
    omega
  · rw [Option.some.injEq]
    omega
  · rw [Option.some.injEq]
    omega
  · simp only [false_iff]
    omega

theorem hexDigit_eq_none_iff (c : Byte) : hexDigit c = none ↔ ¬ HexCharacter c := by
  unfold hexDigit HexCharacter
  dsimp only
  split_ifs with decimal upper lower
  · simp [decimal]
  · simp [upper]
  · simp [lower]
  · simp only [true_iff]
    omega

theorem RawGroup.value_of_digits {g : RawGroup} {d0 d1 d2 d3 : Nat} (h0 : hexDigit g.c0 = some d0)
    (h1 : hexDigit g.c1 = some d1) (h2 : hexDigit g.c2 = some d2) (h3 : hexDigit g.c3 = some d3) :
    g.value = some (d0 * 4096 + d1 * 256 + d2 * 16 + d3) := by
  rw [RawGroup.value, h0, h1, h2, h3]

theorem RawGroup.value_eq_none_iff (g : RawGroup) : g.value = none ↔
    hexDigit g.c0 = none ∨ hexDigit g.c1 = none ∨ hexDigit g.c2 = none ∨ hexDigit g.c3 = none := by
  unfold RawGroup.value
  cases hexDigit g.c0 with
  | none => simp
  | some d0 =>
    cases hexDigit g.c1 with
    | none => simp
    | some d1 =>
      cases hexDigit g.c2 with
      | none => simp
      | some d2 => cases hexDigit g.c3 <;> simp

/-- A group of TXT has no value exactly when one of its four characters is no digit. -/
theorem value_rawGroup_eq_none_iff (s : State) (k : Nat) : RawGroup.value (s.rawGroup k) = none ↔
    ∃ j, j < 4 ∧ ¬ HexCharacter (s.readByte .txt (4 * k + j)) := by
  simp only [RawGroup.value_eq_none_iff, hexDigit_eq_none_iff]
  constructor
  · rintro (bad | bad | bad | bad)
    · exact ⟨0, by decide, bad⟩
    · exact ⟨1, by decide, bad⟩
    · exact ⟨2, by decide, bad⟩
    · exact ⟨3, by decide, bad⟩
  · rintro ⟨j, hj, bad⟩
    match j, hj with
    | 0, _ => exact .inl bad
    | 1, _ => exact .inr (.inl bad)
    | 2, _ => exact .inr (.inr (.inl bad))
    | 3, _ => exact .inr (.inr (.inr bad))

/-- Settles O25 from the digits and the two answers of a group. -/
theorem hexGroupValue : Obligations.HexGroupValue :=
  ⟨hexDigit_eq_some_iff, fun s k _ _ _ _ => RawGroup.value_of_digits (g := s.rawGroup k), value_rawGroup_eq_none_iff⟩

/-! ### The first group that does not fit (R120, R122) -/

theorem encodeGroup_of_none {g : RawGroup} (h : g.value = none) : encodeGroup g = .error .notHex := by
  rw [encodeGroup, h]

theorem encodeGroup_of_gt {g : RawGroup} {v : Nat} (h : g.value = some v) (hv : 0x3FFF < v) :
    encodeGroup g = .error .outOfRange := by
  rw [encodeGroup, h]
  exact if_pos hv

theorem encodeGroup_of_le {g : RawGroup} {v : Nat} (h : g.value = some v) (hv : v ≤ 0x3FFF) :
    encodeGroup g = .ok (BitVec.ofNat 14 v) := by
  rw [encodeGroup, h]
  exact if_neg (Nat.not_lt.mpr hv)

/-- Groups that are encoded do not end the encoding; the next error does. -/
theorem encodeGroups_append_error {pre post : List RawGroup} {g : RawGroup} {e : OutcomeKind}
    (encoded : ∀ p ∈ pre, ∃ m, encodeGroup p = .ok m) (bad : encodeGroup g = .error e) :
    encodeGroups (pre ++ g :: post) = .error e := by
  induction pre with
  | nil => rw [List.nil_append, encodeGroups, bad]
  | cons p pre ih =>
    obtain ⟨m, hm⟩ := encoded p List.mem_cons_self
    rw [List.cons_append, encodeGroups, hm, ih fun q hq => encoded q (List.mem_cons_of_mem _ hq)]

/-- The groups of TXT around group k. -/
theorem rawGroups_split (s : State) {k n : Nat} (hk : k < n) :
    ∃ post, s.rawGroups n = s.rawGroups k ++ s.rawGroup k :: post := by
  obtain ⟨m, rfl⟩ := Nat.exists_eq_add_of_le (Nat.succ_le_of_lt hk)
  unfold State.rawGroups
  rw [List.range_add, List.range_succ, List.map_append, List.map_append, List.append_assoc]
  exact ⟨_, rfl⟩

/-- With at most twelve whole groups ENCRAW is their encoding (R116). -/
theorem exec_encraw_of_groups {s : State} (h48 : s.tlen.toNat ≤ 48) (h4 : s.tlen.toNat % 4 = 0) :
    exec .encraw s = storeLabel (encodeGroups (s.rawGroups (s.tlen.toNat / 4))) s := by
  rw [exec_encraw, execEncraw, if_neg (by omega), if_neg (by omega), if_neg (by omega)]

/-- ENCRAW ends in the error of the first group that has one (R115, R122). -/
theorem exec_encraw_of_first_error {s : State} {k : Nat} {e : OutcomeKind} (h48 : s.tlen.toNat ≤ 48)
    (h4 : s.tlen.toNat % 4 = 0) (hk : k < s.tlen.toNat / 4) (fit : ∀ j, j < k → ∃ v, GroupFits s j v)
    (bad : encodeGroup (s.rawGroup k) = .error e) : exec .encraw s = .next (s.raise e) := by
  have encoded : ∀ g ∈ s.rawGroups k, ∃ m, encodeGroup g = .ok m := by
    intro g hg
    obtain ⟨j, hj, rfl⟩ := List.mem_map.mp hg
    obtain ⟨v, hv, hle⟩ := fit j (List.mem_range.mp hj)
    exact ⟨_, encodeGroup_of_le hv hle⟩
  obtain ⟨post, split⟩ := rawGroups_split s hk
  rw [exec_encraw_of_groups h48 h4, split, encodeGroups_append_error encoded bad]
  rfl

/-- Settles O29: no value is NotHex, a value too large is OutOfRange. -/
theorem encrawFirstBadGroupDecides : Obligations.EncrawFirstBadGroupDecides := by
  intro s k h48 h4 hk fit
  have ends {e : OutcomeKind} := exec_encraw_of_first_error (e := e) h48 h4 hk fit
  exact ⟨fun bad => ends (encodeGroup_of_none ((value_rawGroup_eq_none_iff s k).mpr bad)),
    fun _ hv gt => ends (encodeGroup_of_gt hv gt)⟩

end Sys2Proof.Machine
end

section
/-! What FSRENDER shows and what it leaves (30_encoding.md R64 to R67, 43_freespace_render.md R142 to R160): the bits of
the payload it does not own, the bar, and the display without digits that an overflow leaves. -/

namespace Sys2Proof.Machine

/-! ### The bits FSRENDER does not own (R64) -/

/-- The bits of payload byte o that FSRENDER does not own, as a mask. -/
def fspKeep (o : Nat) : Byte :=
  if o = 4 then 0x7F#8
  else if o = 6 then 0x00#8
  else if o = 7 then 0x3F#8
  else if o = 10 then 0xE9#8
  else if o = 11 then 0xFD#8
  else if o = 12 ∨ o = 13 ∨ o = 14 then 0x70#8
  else 0xFF#8

/-- The mask and the table of R64 say the same. -/
theorem getLsbD_fspKeep (o : Nat) {b : Nat} (hb : b < 8) : (fspKeep o).getLsbD b = !fspOwned o b := by
  unfold fspKeep
  split_ifs with h4 h6 h7 h10 h11 digit
  · subst h4; revert b; decide
  · subst h6; revert b; decide
  · subst h7; revert b; decide
  · subst h10; revert b; decide
  · subst h11; revert b; decide
  · rcases digit with rfl | rfl | rfl <;> (revert b; decide)
  · have unowned (b : Nat) : fspOwned o b = false := by
      rw [not_or, not_or] at digit
      simp [fspOwned, h4, h6, h7, h10, h11, digit]
    rw [unowned b]
    revert b
    decide

/-- An owned bit is clear once the byte is masked. -/
theorem getLsbD_and_fspKeep {o b : Nat} (x : Byte) (hb : b < 8) (owned : fspOwned o b = true) :
    (x &&& fspKeep o).getLsbD b = false := by
  rw [BitVec.getLsbD_and, getLsbD_fspKeep o hb, owned, Bool.not_true, Bool.and_false]

/-- The reset step clears the owned bits and keeps the others (R142). -/
theorem readFsp_fspReset_eq_and (s : State) (o : Nat) :
    s.fspReset.readByte .fsp o = s.readByte .fsp o &&& fspKeep o := by
  rw [readFsp_fspReset]
  unfold fspKeep
  split_ifs with h4 h6 h7 h10 h11
  · rw [h4]
  · exact BitVec.and_zero.symm
  · rw [h7]
  · rw [h10]
  · rw [h11]
  · rfl
  · exact (BitVec.and_allOnes (w := 8)).symm

/-- The bits of the payload that FSRENDER does not own are the same in both states. -/
def UnownedKept (s t : State) : Prop :=
  ∀ o, t.readByte .fsp o &&& fspKeep o = s.readByte .fsp o &&& fspKeep o

theorem UnownedKept.trans {s t u : State} (h1 : UnownedKept s t) (h2 : UnownedKept t u) : UnownedKept s u :=
  fun o => (h2 o).trans (h1 o)

theorem UnownedKept.finish {s t : State} (h : UnownedKept s t) (o : OutcomeKind) : UnownedKept s (t.finish o) := h

/-- Bit by bit, in the terms of R64; a byte has no bits from 8 on. -/
theorem UnownedKept.getBit_eq {s t : State} (h : UnownedKept s t) {o b : Nat} (unowned : fspOwned o b = false) :
    t.getBit .fsp o b = s.getBit .fsp o b := by
  unfold State.getBit
  by_cases hb : b < 8
  · have bit := congrArg (·.getLsbD b) (h o)
    simpa only [BitVec.getLsbD_and, getLsbD_fspKeep o hb, unowned, Bool.not_false, Bool.and_true] using bit
  · rw [BitVec.getLsbD_of_ge _ _ (Nat.not_lt.mp hb), BitVec.getLsbD_of_ge _ _ (Nat.not_lt.mp hb)]

/-- Bits set outside a mask are not seen through it. -/
theorem or_and_of_and_eq_zero {x y m : Byte} (h : y &&& m = 0#8) : (x ||| y) &&& m = x &&& m := by
  rw [BitVec.and_or_distrib_right, h, BitVec.or_zero]

theorem unownedKept_fspReset (s : State) : UnownedKept s s.fspReset := by
  intro o
  rw [readFsp_fspReset_eq_and, BitVec.and_assoc, BitVec.and_self]

theorem unownedKept_writeBar (s : State) (bar : Bar) : UnownedKept s (s.writeBar bar) := by
  intro o
  rw [readFsp_writeBar]
  split_ifs with h4 h6 h7
  · subst h4
    exact or_and_of_and_eq_zero (by decide)
  · subst h6
    exact BitVec.and_zero.trans BitVec.and_zero.symm
  · subst h7
    have high : ∀ e : BitVec 2, (e.setWidth 8 <<< 6) &&& fspKeep 7 = 0#8 := by decide
    rw [or_and_of_and_eq_zero (high _)]
    exact (BitVec.and_assoc ..).trans (congrArg _ (by decide))
  · rfl

/-- SetBit on a flag of R64 writes an owned bit. -/
theorem unownedKept_setFlag (s : State) (f : FspFlag) (v : Bool) : UnownedKept s (s.setFlag f v) := by
  have set : (1#8 <<< f.bit) &&& fspKeep f.offset = 0#8 := by cases f <;> decide
  have clear : ~~~(1#8 <<< f.bit) &&& fspKeep f.offset = fspKeep f.offset := by cases f <;> decide
  intro o
  rw [State.setFlag, readFsp_setBit]
  split_ifs with ho
  · subst ho
    cases v with
    | true => exact or_and_of_and_eq_zero set
    | false => exact (BitVec.and_assoc ..).trans (congrArg _ clear)
  · rfl

/-- A digit is written to bits 7 and 3:0 of its byte (R66, R152). -/
theorem unownedKept_writeDigit (s : State) {p d : Nat} (position : fspKeep p = 0x70#8) (hd : d < 10) :
    UnownedKept s (s.writeDigit p d) := by
  have digit : ∀ d < 10, BitVec.ofNat 8 d &&& 0x70#8 = 0#8 := by decide
  intro o
  rw [readFsp_writeDigit]
  split_ifs with ho
  · subst ho
    rw [position, or_and_of_and_eq_zero (digit d hd), or_and_of_and_eq_zero (by decide)]
  · rfl

/-- Every digit shown is a decimal digit. -/
structure Digits.Decimal (d : Digits) : Prop where
  hundreds : ∀ h, d.hundreds = some h → h < 10
  tens     : d.tens < 10
  ones     : d.ones < 10

theorem unownedKept_writeDigits (s : State) {d : Digits} (decimal : d.Decimal) : UnownedKept s (s.writeDigits d) := by
  obtain ⟨hundreds, tens, ones, point⟩ := d
  have twoDigits (u : State) : UnownedKept u ((u.writeDigit 13 tens).writeDigit 14 ones) :=
    (unownedKept_writeDigit u rfl decimal.tens).trans (unownedKept_writeDigit _ rfl decimal.ones)
  have digits : UnownedKept s (s.writeDigits ⟨hundreds, tens, ones, false⟩) := by
    cases hundreds with
    | none => exact twoDigits s
    | some h => exact (unownedKept_writeDigit s rfl (decimal.hundreds h rfl)).trans (twoDigits _)
  cases point with
  | false => exact digits
  | true => exact digits.trans (unownedKept_setFlag _ .dp true)

theorem unownedKept_writeUnit (s : State) (tb : Bool) : UnownedKept s (s.writeUnit tb) := by
  cases tb with
  | false => exact (unownedKept_setFlag s .ugb true).trans (unownedKept_setFlag _ .freeind true)
  | true => exact (unownedKept_setFlag s .utb true).trans (unownedKept_setFlag _ .freeind true)

/-! ### The displayed value (R148 to R151) -/

theorem tbMode_eq_false_iff (F K : Nat) : tbMode F K = false ↔ F < 1000 * K ^ 3 := by
  rw [tbMode, Bool.not_eq_false', decide_eq_true_eq]

/-- R149: the display overflows exactly from 1000 * K^4 up. -/
theorem displayOverflows_iff (F : Nat) {K : Nat} (hK : 0 < K) : displayOverflows F K = true ↔ 1000 * K ^ 4 ≤ F := by
  have grows : K ^ 3 ≤ K ^ 4 := Nat.pow_le_pow_right hK (by decide)
  rw [displayOverflows, Bool.and_eq_true, decide_eq_true_eq, ← Bool.not_eq_false, tbMode_eq_false_iff]
  omega

theorem displayDivisor_pos (F : Nat) {K : Nat} (hK : 0 < K) : 0 < displayDivisor F K := by
  unfold displayDivisor
  split_ifs
  · exact Nat.pow_pos hK
  · exact Nat.pow_pos hK

/-- Without an overflow the displayed value is below 1000. -/
theorem lt_displayDivisor {F K : Nat} (hK : 0 < K) (fits : displayOverflows F K = false) :
    F < 1000 * displayDivisor F K := by
  rw [← Bool.not_eq_true, displayOverflows_iff F hK, Nat.not_le] at fits
  unfold displayDivisor
  split_ifs with tb
  · exact fits
  · rwa [Bool.not_eq_true, tbMode_eq_false_iff] at tb

/-- A displayed value below 1000 takes three decimal digits (R150, R151). -/
theorem decimal_displayDigits {F D : Nat} (hD : 0 < D) (hF : F < 1000 * D) : (displayDigits F D).Decimal := by
  unfold displayDigits
  split_ifs with integer
  · have value : F / D < 1000 := (Nat.div_lt_iff_lt_mul hD).mpr hF
    refine ⟨fun h hh => ?_, Nat.mod_lt _ (by decide), Nat.mod_lt _ (by decide)⟩
    dsimp only at hh
    split_ifs at hh
    obtain rfl := Option.some.inj hh
    omega
  · have value : 100 * F / D < 1000 := (Nat.div_lt_iff_lt_mul hD).mpr (by omega)
    refine ⟨fun h hh => ?_, Nat.mod_lt _ (by decide), Nat.mod_lt _ (by decide)⟩
    obtain rfl := Option.some.inj hh
    omega

/-! ### What FSRENDER leaves (R160) -/

/-- No end of FSRENDER touches a bit it does not own. -/
theorem unownedKept_fsrender {s t : State} (h : exec .fsrender s = .next t) : UnownedKept s t := by
  have bar (b : Bar) : UnownedKept s (s.fspReset.writeBar b) :=
    (unownedKept_fspReset s).trans (unownedKept_writeBar _ b)
  rw [exec_fsrender] at h
  rcases execFsrender_cases s with
    ⟨_, e⟩ | ⟨_, _, e⟩ | ⟨_, _, _, e⟩ | ⟨_, _, _, _, e⟩ | ⟨_, hK, _, fits, e⟩ <;> rw [e] at h
  · obtain rfl := next_inj h
    exact (unownedKept_fspReset s).finish _
  · cases h
  · cases h
  · obtain rfl := next_inj h
    exact (bar _).finish _
  · have hK := Nat.pos_of_ne_zero hK
    have digits := decimal_displayDigits (displayDivisor_pos _ hK) (lt_displayDivisor hK fits)
    obtain rfl := next_inj h
    exact (((bar _).trans (unownedKept_writeDigits _ digits)).trans (unownedKept_writeUnit _ _)).finish _

theorem onlySpaceWritten_fsrender {s t : State} (h : exec .fsrender s = .next t) : OnlySpaceWritten .fsp s t := by
  have ends := execEnds_of_next h
  refine ⟨ends.operandRegsKept, ends.hostKept, fun sp hsp => spaceKept_of_space_eq ?_⟩
  cases sp with
  | txt => exact ends.txt_kept
  | lbl => exact ends.lbl_kept nofun nofun
  | fsp => exact absurd rfl hsp
  | grid => exact (ends.llen_grid_kept nofun).2

theorem resultRegsKept_fsrender {s t : State} (h : exec .fsrender s = .next t) : ResultRegsKept s t := by
  have ends := execEnds_of_next h
  exact ⟨ends.res_kept nofun, ends.geo_kept nofun, (ends.llen_grid_kept nofun).1⟩

/-- Settles O44: the owned bits of FSP, and the frame every end of FSRENDER keeps. -/
theorem fsrenderUntouchedBits : Obligations.FsrenderUntouchedBits :=
  fun _ _ h => ⟨fun _ _ => (unownedKept_fsrender h).getBit_eq, onlySpaceWritten_fsrender h, resultRegsKept_fsrender h⟩

/-! ### The bar (R65, R146) -/

theorem barNumber_lt {n : Nat} (hn : n ≤ 10) : barNumber n < 2 ^ 10 :=
  calc (2 ^ n - 1) * 2 ^ (10 - n)
    _ < 2 ^ n * 2 ^ (10 - n) :=
      Nat.mul_lt_mul_of_pos_right (Nat.sub_lt (Nat.two_pow_pos n) Nat.one_pos) (Nat.two_pow_pos _)
    _ = 2 ^ 10 := pow_mul_pow_sub 2 hn

/-- Ten bits hold the bar of up to ten segments. -/
theorem toNat_barOf {n : Nat} (hn : n ≤ 10) : (barOf n).toNat = barNumber n := by
  rw [barOf, Nat.shiftLeft_eq, Nat.shiftLeft_eq, Nat.one_mul, BitVec.toNat_ofNat]
  exact Nat.mod_eq_of_lt (barNumber_lt hn)

/-- Two bits over the six low bits of a byte. -/
theorem toNat_low_or_high (x : Byte) (e : BitVec 2) :
    ((x &&& 0x3F#8) ||| (e.setWidth 8 <<< 6)).toNat = e.toNat * 64 + x.toNat % 64 := by
  have low : (x &&& 0x3F#8).toNat = x.toNat % 2 ^ 6 := Nat.and_two_pow_sub_one_eq_mod _ 6
  have high : (e.setWidth 8 <<< 6).toNat = 2 ^ 6 * e.toNat := by revert e; decide
  rw [BitVec.toNat_or, low, high, Nat.or_comm, ← Nat.two_pow_add_eq_or_of_lt (Nat.mod_lt _ (by decide)),
    Nat.mul_comm]

/-- The reset step and the bar step show the bar (R142, R146). -/
theorem barShown_writeBar (s : State) {n : Nat} (hn : n ≤ 10) : BarShown s (s.fspReset.writeBar (barOf n)) n := by
  have lt := barNumber_lt hn
  have high : ((barOf n).extractLsb' 2 8).toNat = barNumber n / 4 := by
    rw [BitVec.extractLsb'_toNat, toNat_barOf hn, Nat.shiftRight_eq_div_pow]
    omega
  have low : ((barOf n).extractLsb' 0 2).toNat = barNumber n % 4 := by
    rw [BitVec.extractLsb'_toNat, toNat_barOf hn, Nat.shiftRight_zero]
  have kept : s.fspReset.readByte .fsp 7 &&& 0x3F#8 = s.readByte .fsp 7 &&& 0x3F#8 := unownedKept_fspReset s 7
  refine ⟨?_, ?_, ?_⟩
  · rw [readFsp_writeBar, if_neg (by decide), if_pos rfl, high]
  · rw [readFsp_writeBar, if_neg (by decide), if_neg (by decide), if_pos rfl, kept, toNat_low_or_high, low]
  · rw [State.getBit, readFsp_writeBar, if_pos rfl, BitVec.getLsbD_or]
    exact Bool.or_true _

/-- The bar lies in three bytes of FSP. -/
theorem BarShown.of_readByte_eq {s t u : State} {n : Nat} (h : BarShown s t n)
    (kept : ∀ o, o = 4 ∨ o = 6 ∨ o = 7 → u.readByte .fsp o = t.readByte .fsp o) : BarShown s u n := by
  unfold BarShown State.getBit at h ⊢
  rwa [kept 4 (by decide), kept 6 (by decide), kept 7 (by decide)]

theorem BarShown.writeDigits {s t : State} {n : Nat} (h : BarShown s t n) (d : Digits) :
    BarShown s (t.writeDigits d) n := by
  refine h.of_readByte_eq fun o ho => ?_
  rw [readFsp_writeDigits, if_neg (by omega), if_neg (by omega), if_neg (by omega), if_neg (by omega)]

theorem BarShown.writeUnit {s t : State} {n : Nat} (h : BarShown s t n) (tb : Bool) : BarShown s (t.writeUnit tb) n := by
  refine h.of_readByte_eq fun o ho => ?_
  rw [readFsp_writeUnit, if_neg (by omega)]

theorem BarShown.finish {s t : State} {n : Nat} (h : BarShown s t n) (o : OutcomeKind) : BarShown s (t.finish o) n := h

theorem segmentsUsed_le (F T : Nat) : segmentsUsed F T ≤ 10 :=
  Nat.sub_le _ _

/-! ### The populated state (R141, R156) -/

/-- FSRENDER's next state when it ends after the bar (R156). -/
def State.overflowed (s : State) (bar : Bar) : State :=
  (s.fspReset.writeBar bar).raise .displayOverflow

/-- Everything FSRENDER can do with operands that choose the populated state and meet its preconditions: the bar alone, or
the bar with digits and unit. -/
theorem exec_fsrender_cases_of_populated {s : State} (populated : Populated s) :
    (displayOverflows s.freeCount s.unitFactor = true ∧
      exec .fsrender s = .next (s.overflowed (barOf (segmentsUsed s.freeCount s.totalCount)))) ∨
    (displayOverflows s.freeCount s.unitFactor = false ∧
      exec .fsrender s = .next ((((s.fspReset.writeBar (barOf (segmentsUsed s.freeCount s.totalCount))).writeDigits
        (displayDigits s.freeCount (displayDivisor s.freeCount s.unitFactor))).writeUnit
        (tbMode s.freeCount s.unitFactor)).finish .ok)) := by
  obtain ⟨total, kbf, free⟩ := populated
  rw [exec_fsrender]
  rcases execFsrender_cases s with ⟨hT, _⟩ | ⟨_, hK, _⟩ | ⟨_, _, hF, _⟩ | ⟨_, _, _, overflows, e⟩ | ⟨_, _, _, fits, e⟩
  · exact absurd hT total.ne'
  · exact absurd hK kbf.ne'
  · exact absurd free (Nat.not_le.mpr hF)
  · exact .inl ⟨overflows, e⟩
  · exact .inr ⟨fits, e⟩

/-- Settles O39: the bar is written before the display can overflow, and no later step touches it. -/
theorem fsrenderShowsBar : Obligations.FsrenderShowsBar := by
  intro s populated
  have bar := barShown_writeBar s (segmentsUsed_le s.freeCount s.totalCount)
  rcases exec_fsrender_cases_of_populated populated with ⟨_, e⟩ | ⟨_, e⟩
  · exact ⟨_, e, bar.finish .displayOverflow⟩
  · exact ⟨_, e, ((bar.writeDigits _).writeUnit _).finish .ok⟩

/-! ### The display after an overflow (R149, R156) -/

section
variable (s : State) (bar : Bar)

/-- Outside the bar's three bytes the reset step's clear bits stay. -/
theorem readFsp_overflowed {o : Nat} (ho : 10 ≤ o) :
    (s.overflowed bar).readByte .fsp o = s.readByte .fsp o &&& fspKeep o := by
  rw [State.overflowed, State.readByte_raise, readFsp_writeBar, if_neg (by omega), if_neg (by omega),
    if_neg (by omega), readFsp_fspReset_eq_and]

theorem digitBlank_overflowed {o : Nat} (ho : 10 ≤ o) (position : fspKeep o = 0x70#8) :
    DigitBlank (s.overflowed bar) o := by
  rw [DigitBlank, readFsp_overflowed s bar ho, position, BitVec.and_assoc]
  exact BitVec.and_zero

theorem getBit_overflowed {o b : Nat} (ho : 10 ≤ o) (hb : b < 8) (owned : fspOwned o b = true) :
    (s.overflowed bar).getBit .fsp o b = false := by
  rw [State.getBit, readFsp_overflowed s bar ho, getLsbD_and_fspKeep _ hb owned]

end

/-- Settles O43: the overflow stops after the bar, so the digits, the point and the flags are as the reset step left
them. -/
theorem fsrenderOverflow : Obligations.FsrenderOverflow := by
  intro s populated large
  have ⟨_, kbf, _⟩ := populated
  have overflows : displayOverflows s.freeCount s.unitFactor = true := (displayOverflows_iff _ kbf).mpr large
  rcases exec_fsrender_cases_of_populated populated with ⟨_, e⟩ | ⟨fits, _⟩
  · have bar := (barShown_writeBar s (segmentsUsed_le s.freeCount s.totalCount)).finish .displayOverflow
    refine ⟨_, e, rfl, bar, ?_, ?_, ?_, ?_, ?_, ?_, ?_⟩
    · exact digitBlank_overflowed s _ (by decide) rfl
    · exact digitBlank_overflowed s _ (by decide) rfl
    · exact digitBlank_overflowed s _ (by decide) rfl
    · exact getBit_overflowed s _ (by decide) (by decide) rfl
    · exact getBit_overflowed s _ (by decide) (by decide) rfl
    · exact getBit_overflowed s _ (by decide) (by decide) rfl
    · exact getBit_overflowed s _ (by decide) (by decide) rfl
  · exact absurd (overflows.symm.trans fits) (by decide)

end Sys2Proof.Machine
end

section
/-! The two lookups on every operand (40_glyph_lookup.md R100 to R104). -/

namespace Sys2Proof.Machine

/-! ### CHARMASK of a supported code and of any other (R100) -/

/-- A supported code has the mask at its place in the table. -/
theorem charToMask_of_supported (glyph : GlyphTable) {c : Byte} (h : 0x20 ≤ c.toNat ∧ c.toNat ≤ 0x7E) :
    charToMask glyph c = some (glyph (Fin.ofNat 95 (c.toNat - 0x20))) := by
  have place : Fin.ofNat 95 (c.toNat - 0x20) = ⟨c.toNat - 0x20, by omega⟩ :=
    Fin.ext (Nat.mod_eq_of_lt (by omega))
  rw [charToMask, glyphIndex_eq_some h, Option.map_some, place]

theorem charToMask_of_not_supported (glyph : GlyphTable) {c : Byte} (h : ¬ (0x20 ≤ c.toNat ∧ c.toNat ≤ 0x7E)) :
    charToMask glyph c = none := by
  rw [charToMask, glyphIndex_eq_none h, Option.map_none]

theorem exec_charmask_of_mask {c : Byte} {m : Mask} (h : charToMask Config.glyph c = some m) (s : State) :
    exec (.charmask c) s = .next (({ s with res := m.setWidth 16 } : State).finish .ok) := by
  rw [exec_charmask, execCharmask, charmaskWith, h]

theorem exec_charmask_of_no_mask {c : Byte} (h : charToMask Config.glyph c = none) (s : State) :
    exec (.charmask c) s = .next (s.raise .unsupportedChar) := by
  rw [exec_charmask, execCharmask, charmaskWith, h]

/-- A mask has 14 bits (R22), and RES has zeros above them. -/
theorem mask_setWidth_le (m : Mask) : (m.setWidth 16).toNat ≤ 0x3FFF := by
  rw [BitVec.toNat_setWidth_of_le (by decide)]
  exact Nat.le_of_lt_succ m.isLt

/-- Settles O18: the code's place in the table decides the outcome, and the table's entries are masks. -/
theorem charmaskLooksUpMask : Obligations.CharmaskLooksUpMask := by
  intro c s
  refine ⟨decode_charmask c, fun low high => ?_, fun outside => ?_⟩
  · exact ⟨exec_charmask_of_mask (charToMask_of_supported _ ⟨low, high⟩) s, mask_setWidth_le _⟩
  · exact exec_charmask_of_no_mask (charToMask_of_not_supported _ (by omega)) s

/-! ### SEGGEOM of a segment bit, of 14 and of 15 (R103, R104) -/

theorem exec_seggeom_of_ge {b : BitVec 4} (h : 14 ≤ b.toNat) (s : State) :
    exec (.seggeom b) s = .next (s.raise .badOperand) := by
  rw [exec_seggeom, execSeggeom, seggeomWith, dif_neg (Nat.not_lt.mpr h)]

/-- Settles O20: the operand is a segment bit, or it has no entry. -/
theorem seggeomReadsEntry : Obligations.SeggeomReadsEntry :=
  fun b s => ⟨decode_seggeom b, fun segment => exec_seggeom_of_lt segment s, fun beyond => exec_seggeom_of_ge beyond s⟩

end Sys2Proof.Machine
end

section
/-! What the encoders store (41_label_encode.md R110 to R123): the masks of a text or of raw groups, from the left. -/

namespace Sys2Proof.Machine

/-! ### A label written by an encoder (R113, R114, R121) -/

/-- s with a label of some masks and blank slots after them, the way both encoders end when nothing fails (R114). -/
def State.labelled (s : State) (ms : List Mask) : State :=
  (s.writeLabel (slotValue ms)).finish .ok

theorem storeLabel_ok (ms : List Mask) (s : State) : storeLabel (.ok ms) s = .next (s.labelled ms) := rfl

theorem slotValue_map_range (f : Nat → Mask) (n i : Nat) :
    slotValue ((List.range n).map f) i = if i < n then (f i).setWidth 16 else 0#16 := by
  split_ifs with h
  · rw [slotValue, List.getD_eq_getElem _ _ (by simpa using h), List.getElem_map, List.getElem_range]
  · exact slotValue_of_length_le (by simpa using h)

@[simp] theorem State.slot_finish (s : State) (o : OutcomeKind) (i : Nat) : (s.finish o).slot i = s.slot i := by
  simp only [State.slot, State.readWord, State.readByte_finish]

theorem slot_labelled (s : State) (ms : List Mask) {i : Nat} (hi : i < 12) :
    (s.labelled ms).slot i = slotValue ms i := by
  rw [State.labelled, State.slot_finish, State.slot_writeLabel s _ i hi]

/-- The two bytes of a slot are its value's high and low byte (R49). -/
theorem slotHolds_slot (t : State) (i : Nat) : SlotHolds t i (t.slot i).toNat := by
  have low := (t.readByte .lbl (2 * i + 1)).isLt
  have value : (t.slot i).toNat = (t.readByte .lbl (2 * i)).toNat * 256 + (t.readByte .lbl (2 * i + 1)).toNat := by
    rw [State.slot, State.readWord, BitVec.toNat_append, ← Nat.shiftLeft_add_eq_or_of_lt low, Nat.shiftLeft_eq]
  rw [SlotHolds, value]
  omega

theorem slotHolds_labelled (s : State) (f : Nat → Mask) (n : Nat) {i : Nat} (hi : i < 12) :
    SlotHolds (s.labelled ((List.range n).map f)) i (if i < n then (f i).toNat else 0) := by
  have value : ((s.labelled ((List.range n).map f)).slot i).toNat = if i < n then (f i).toNat else 0 := by
    rw [slot_labelled s _ hi, slotValue_map_range]
    split_ifs
    · exact BitVec.toNat_setWidth_of_le (by decide)
    · rfl
  exact value ▸ slotHolds_slot _ i

theorem readByte_labelled_past (s : State) (ms : List Mask) {o : Nat} (ho : 24 ≤ o) :
    (s.labelled ms).readByte .lbl o = s.readByte .lbl o := by
  rw [State.labelled, State.readByte_finish, State.readByte_writeLabel, if_neg (by omega)]

/-- The 24 bytes of a label come from its masks alone. -/
theorem readByte_labelled_congr (s1 s2 : State) (ms : List Mask) {o : Nat} (ho : o < 24) :
    (s1.labelled ms).readByte .lbl o = (s2.labelled ms).readByte .lbl o := by
  simp only [State.labelled, State.readByte_finish, State.readByte_writeLabel, ho, and_self, if_true]

theorem onlySpaceWritten_labelled (s : State) (ms : List Mask) : OnlySpaceWritten .lbl s (s.labelled ms) := by
  have ends : ExecEnds s .enctext (s.labelled ms) := execEnds_writeLabel s _ (.inl rfl)
  refine ⟨ends.operandRegsKept, ends.hostKept, fun sp other o => ?_⟩
  rw [State.labelled, State.readByte_finish, State.readByte_writeLabel, if_neg (fun h => other h.1)]

theorem resultRegsKept_labelled (s : State) (ms : List Mask) : ResultRegsKept s (s.labelled ms) := by
  have ends : ExecEnds s .enctext (s.labelled ms) := execEnds_writeLabel s _ (.inl rfl)
  exact ⟨ends.res_kept nofun, ends.geo_kept nofun, (ends.llen_grid_kept nofun).1⟩

/-! ### ENCTEXT (R110 to R114) -/

/-- The length decides first (R111). -/
theorem exec_enctext_of_long {s : State} (h : 12 < s.tlen.toNat) : exec .enctext s = .next (s.raise .tooLong) := by
  rw [exec_enctext, execEnctext, enctextWith, if_pos h]

/-- Settles O23: ENCTEXT does not look at TXT before the length is checked. -/
theorem enctextTooLong : Obligations.EnctextTooLong :=
  fun _ => exec_enctext_of_long

/-- Up to twelve characters ENCTEXT is their encoding (R110). -/
theorem exec_enctext_of_short {s : State} (h : s.tlen.toNat ≤ 12) :
    exec .enctext s = storeLabel (encodeChars Config.glyph (s.inputChars s.tlen.toNat)) s := by
  rw [exec_enctext, execEnctext, enctextWith, if_neg (Nat.not_lt.mpr h)]

theorem charToMask_of_supported_code {c : Byte} (h : Supported c.toNat) :
    charToMask Config.glyph c = some (maskOf c.toNat) :=
  charToMask_of_supported Config.glyph h

/-- The masks of the n first characters of TXT, when they are supported. -/
theorem encodeChars_inputChars {s : State} {n : Nat} (supported : ∀ i, i < n → Supported (s.charCode i)) :
    encodeChars Config.glyph (s.inputChars n) = .ok ((List.range n).map fun i => maskOf (s.charCode i)) := by
  rw [encodeChars_ok_iff, State.inputChars, List.map_map, List.map_map]
  exact List.map_congr_left fun i hi => charToMask_of_supported_code (supported i (List.mem_range.mp hi))

theorem exec_enctext_of_supported {s : State} (h12 : s.tlen.toNat ≤ 12)
    (supported : ∀ i, i < s.tlen.toNat → Supported (s.charCode i)) :
    exec .enctext s = .next (s.labelled ((List.range s.tlen.toNat).map fun i => maskOf (s.charCode i))) := by
  rw [exec_enctext_of_short h12, encodeChars_inputChars supported, storeLabel_ok]

/-- Settles O22: the label of the characters' masks, and what every label leaves. -/
theorem enctextStoresMasks : Obligations.EnctextStoresMasks := by
  intro s h12 supported
  exact ⟨_, exec_enctext_of_supported h12 supported, rfl, fun _ => slotHolds_labelled s _ _,
    fun _ => readByte_labelled_past s _, onlySpaceWritten_labelled s _, resultRegsKept_labelled s _⟩

/-- A character without a mask ends the encoding, wherever it stands (R112). -/
theorem encodeChars_of_mem_unsupported {glyph : GlyphTable} {cs : List Byte} {c : Byte} (hc : c ∈ cs)
    (unsupported : charToMask glyph c = none) : encodeChars glyph cs = .error .unsupportedChar := by
  cases answer : encodeChars glyph cs with
  | error e =>
    obtain ⟨rfl, _⟩ := encodeChars_error glyph cs e answer
    rfl
  | ok ms =>
    have mask : charToMask glyph c ∈ ms.map some :=
      (encodeChars_ok_iff glyph cs ms).mp answer ▸ List.mem_map_of_mem hc
    simp [unsupported] at mask

/-- Settles O24: the character stands in the input and has no mask. -/
theorem enctextUnsupportedChar : Obligations.EnctextUnsupportedChar := by
  intro s i h12 hi unsupported
  have stands : s.readByte .txt i ∈ s.inputChars s.tlen.toNat := List.mem_map_of_mem (List.mem_range.mpr hi)
  rw [exec_enctext_of_short h12,
    encodeChars_of_mem_unsupported stands (charToMask_of_not_supported _ unsupported)]
  rfl

/-! ### ENCRAW (R116 to R121) -/

theorem exec_encraw_of_long {s : State} (h : 96 < s.tlen.toNat) : exec .encraw s = .next (s.raise .tooLong) := by
  rw [exec_encraw, execEncraw, if_pos h]

theorem exec_encraw_of_ragged {s : State} (h96 : s.tlen.toNat ≤ 96) (h4 : s.tlen.toNat % 4 ≠ 0) :
    exec .encraw s = .next (s.raise .badLength) := by
  rw [exec_encraw, execEncraw, if_neg (Nat.not_lt.mpr h96), if_pos h4]

/-- Which lengths each outcome of ENCRAW belongs to (R117, R118). -/
theorem encraw_status_of_next {s t : State} (h : exec .encraw s = .next t) :
    (96 < s.tlen.toNat ∧ t.status = 0x11#8) ∨
    (s.tlen.toNat ≤ 96 ∧ s.tlen.toNat % 4 ≠ 0 ∧ t.status = 0x12#8) ∨
    (s.tlen.toNat ≤ 48 ∧ s.tlen.toNat % 4 = 0 ∧ t.status ∈ [0x00#8, 0x13#8, 0x14#8]) := by
  rw [exec_encraw] at h
  rcases execEncraw_cases s with
    ⟨h96, e⟩ | ⟨h96, h4, e⟩ | ⟨_, _, _, e⟩ | ⟨_, h48, h4, kind, _, e⟩ | ⟨_, h48, h4, _, e⟩ <;> rw [e] at h
  · obtain rfl := next_inj h
    exact .inl ⟨h96, rfl⟩
  · obtain rfl := next_inj h
    exact .inr (.inl ⟨h96, h4, rfl⟩)
  · cases h
  · obtain rfl := next_inj h
    refine .inr (.inr ⟨h48, h4, ?_⟩)
    rcases kind with rfl | rfl
    · exact .tail _ (.head _)
    · exact .tail _ (.tail _ (.head _))
  · obtain rfl := next_inj h
    exact .inr (.inr ⟨h48, h4, .head _⟩)

/-- Settles O27 from the lengths of the outcomes. -/
theorem encrawTooLong : Obligations.EncrawTooLong := by
  intro s
  refine ⟨exec_encraw_of_long, fun h96 t h tooLong => ?_⟩
  rcases encraw_status_of_next h with ⟨long, _⟩ | ⟨_, _, status⟩ | ⟨_, _, status⟩
  · omega
  · exact absurd (status.symm.trans tooLong) (by decide)
  · exact absurd (tooLong ▸ status) (by decide)

/-- Settles O28 from the lengths of the outcomes. -/
theorem encrawBadLength : Obligations.EncrawBadLength := by
  intro s
  refine ⟨exec_encraw_of_ragged, fun shape t h badLength => ?_⟩
  rcases encraw_status_of_next h with ⟨_, status⟩ | ⟨h96, h4, _⟩ | ⟨_, _, status⟩
  · exact absurd (status.symm.trans badLength) (by decide)
  · omega
  · exact absurd (badLength ▸ status) (by decide)

/-- Settles O30: of the five ways ENCRAW ends, one is a refusal. -/
theorem encrawBandRefused : Obligations.EncrawBandRefused := by
  intro s r
  rw [exec_encraw]
  rcases execEncraw_cases s with
    ⟨_, e⟩ | ⟨_, _, e⟩ | ⟨h96, h4, h12, e⟩ | ⟨_, h48, _, _, _, e⟩ | ⟨_, h48, _, _, e⟩ <;> rw [e]
  · exact ⟨nofun, fun ⟨_, _⟩ => by omega⟩
  · exact ⟨nofun, fun ⟨_, _⟩ => by omega⟩
  · exact ⟨fun h => ⟨by omega, (Host.Outcome.refused.inj h).symm⟩, fun ⟨_, named⟩ => named ▸ rfl⟩
  · exact ⟨nofun, fun ⟨_, _⟩ => by omega⟩
  · exact ⟨nofun, fun ⟨_, _⟩ => by omega⟩

/-- The masks of the n first groups of TXT, when they fit. -/
theorem encodeGroups_rawGroups {s : State} {v : Nat → Nat} {n : Nat} (fit : ∀ k, k < n → GroupFits s k (v k)) :
    encodeGroups (s.rawGroups n) = .ok ((List.range n).map fun k => BitVec.ofNat 14 (v k)) := by
  rw [encodeGroups_ok_iff, State.rawGroups, List.map_map, List.map_map]
  refine List.map_congr_left fun k hk => ?_
  obtain ⟨value, le⟩ := fit k (List.mem_range.mp hk)
  exact encodeGroup_of_le value le

theorem exec_encraw_of_fit {s : State} {v : Nat → Nat} (h48 : s.tlen.toNat ≤ 48) (h4 : s.tlen.toNat % 4 = 0)
    (fit : ∀ k, k < s.tlen.toNat / 4 → GroupFits s k (v k)) :
    exec .encraw s = .next (s.labelled ((List.range (s.tlen.toNat / 4)).map fun k => BitVec.ofNat 14 (v k))) := by
  rw [exec_encraw_of_groups h48 h4, encodeGroups_rawGroups fit, storeLabel_ok]

/-- Settles O26: the label of the groups' values, which fit a mask, and what every label leaves. -/
theorem encrawStoresGroups : Obligations.EncrawStoresGroups := by
  intro s v h48 h4 fit
  refine ⟨_, exec_encraw_of_fit h48 h4 fit, rfl, fun k hk => ?_, fun _ => readByte_labelled_past s _,
    onlySpaceWritten_labelled s _, resultRegsKept_labelled s _⟩
  have holds := slotHolds_labelled s (fun k => BitVec.ofNat 14 (v k)) (s.tlen.toNat / 4) hk
  split_ifs at holds ⊢ with present
  · obtain ⟨_, le⟩ := fit k present
    rwa [BitVec.toNat_ofNat, Nat.mod_eq_of_lt (Nat.lt_succ_of_le le)] at holds
  · exact holds

/-! ### Both encoders (R123) -/

theorem hexDigit_upperHexDigit {d : Nat} (hd : d < 16) : hexDigit (upperHexDigit d) = some d := by
  rw [hexDigit_eq_some_iff, upperHexDigit, BitVec.toNat_ofNat]
  split_ifs
  · omega
  · omega

/-- A mask in four uppercase hexadecimal digits is a group that fits. -/
theorem groupFits_of_spells {s : State} {k : Nat} {m : Mask} (spelled : GroupSpells s k m.toNat) :
    GroupFits s k m.toNat := by
  obtain ⟨c0, c1, c2, c3⟩ := spelled
  have lt := m.isLt
  have value := RawGroup.value_of_digits (g := s.rawGroup k)
    ((congrArg hexDigit c0).trans (hexDigit_upperHexDigit (Nat.mod_lt _ (by decide))))
    ((congrArg hexDigit c1).trans (hexDigit_upperHexDigit (Nat.mod_lt _ (by decide))))
    ((congrArg hexDigit c2).trans (hexDigit_upperHexDigit (Nat.mod_lt _ (by decide))))
    ((congrArg hexDigit c3).trans (hexDigit_upperHexDigit (Nat.mod_lt _ (by decide))))
  refine ⟨value.trans (congrArg some ?_), ?_⟩ <;> omega

/-- Settles O31: both labels are of the same masks. -/
theorem encodersAgree : Obligations.EncodersAgree := by
  intro s1 s2 h12 supported length spelled
  have groups : s2.tlen.toNat / 4 = s1.tlen.toNat := by omega
  have raw := exec_encraw_of_fit (s := s2) (by omega) (by omega)
    fun k hk => groupFits_of_spells (spelled k (groups ▸ hk))
  simp only [groups, BitVec.ofNat_toNat, BitVec.setWidth_eq] at raw
  exact ⟨_, _, exec_enctext_of_supported h12 supported, raw, rfl, rfl, fun _ => readByte_labelled_congr s1 s2 _⟩

end Sys2Proof.Machine
end

section
/-! Which operations complete, and what their errors leave (R115, R119, R144, R206, R234). -/

namespace Sys2Proof.Machine

/-! ### The refused bands (R234) -/

theorem hasResult_encraw_iff (s : State) : hasResult .encraw s = true ↔
    ¬ (s.tlen.toNat ≤ 96 ∧ s.tlen.toNat % 4 = 0 ∧ 12 < s.tlen.toNat / 4) := by
  simp only [hasResult, Bool.not_eq_true', Bool.and_eq_false_iff, decide_eq_false_iff_not]
  omega

theorem hasResult_fsrender_iff (s : State) : hasResult .fsrender s = true ↔
    s.totalCount = 0 ∨ (s.unitFactor ≠ 0 ∧ s.freeCount ≤ s.totalCount) := by
  simp only [hasResult, Bool.or_eq_true, Bool.and_eq_true, decide_eq_true_eq]

/-- An operation ends in a next state outside the bands, or is refused inside them. -/
def EndsAsBandsSay (i : Instr) (s : State) : Prop :=
  (hasResult i s = true ∧ Completes i s) ∨ (¬ hasResult i s = true ∧ ∃ r, exec i s = .refused r)

theorem endsAsBandsSay_encraw (s : State) : EndsAsBandsSay .encraw s := by
  rw [EndsAsBandsSay, hasResult_encraw_iff, Completes, exec_encraw]
  rcases execEncraw_cases s with
    ⟨_, e⟩ | ⟨_, _, e⟩ | ⟨h96, h4, h12, e⟩ | ⟨_, _, _, _, _, e⟩ | ⟨_, _, _, _, e⟩
  · exact .inl ⟨by omega, _, e⟩
  · exact .inl ⟨by omega, _, e⟩
  · exact .inr ⟨not_not_intro ⟨h96, h4, h12⟩, _, e⟩
  · exact .inl ⟨by omega, _, e⟩
  · exact .inl ⟨by omega, _, e⟩

theorem endsAsBandsSay_fsrender (s : State) : EndsAsBandsSay .fsrender s := by
  rw [EndsAsBandsSay, hasResult_fsrender_iff, Completes, exec_fsrender]
  rcases execFsrender_cases s with
    ⟨hT, e⟩ | ⟨_, _, e⟩ | ⟨_, _, _, e⟩ | ⟨_, hK, hF, _, e⟩ | ⟨_, hK, hF, _, e⟩
  · exact .inl ⟨.inl hT, _, e⟩
  · exact .inr ⟨by omega, _, e⟩
  · exact .inr ⟨by omega, _, e⟩
  · exact .inl ⟨.inr ⟨hK, hF⟩, _, e⟩
  · exact .inl ⟨.inr ⟨hK, hF⟩, _, e⟩

/-- The four operations without a band have a next state. -/
theorem endsAsBandsSay (i : Instr) (s : State) : EndsAsBandsSay i s := by
  cases i with
  | charmask c =>
    refine .inl ⟨rfl, ?_⟩
    rcases execCharmask_cases c s with ⟨_, _, e⟩ | ⟨_, e⟩ <;> exact ⟨_, e⟩
  | seggeom b =>
    refine .inl ⟨rfl, ?_⟩
    rcases execSeggeom_cases b s with ⟨_, e⟩ | ⟨_, e⟩ <;> exact ⟨_, e⟩
  | enctext =>
    refine .inl ⟨rfl, ?_⟩
    rcases execEnctext_cases s with ⟨_, e⟩ | ⟨_, _, e⟩ | ⟨_, _, _, e⟩ <;> exact ⟨_, e⟩
  | encraw => exact endsAsBandsSay_encraw s
  | decrender => exact .inl ⟨rfl, _, exec_decrender_eq s⟩
  | fsrender => exact endsAsBandsSay_fsrender s

/-- Settles O12: of the two ways an operation can end, the bands leave one. -/
theorem completesExactlyOutsideBands : Obligations.CompletesExactlyOutsideBands := by
  intro i s
  rcases endsAsBandsSay i s with ⟨outside, completes⟩ | ⟨inside, refused⟩
  · exact ⟨fun _ => completes, fun inside => absurd (outside.symm.trans inside) (by decide)⟩
  · exact ⟨fun outside => absurd outside inside, fun _ => refused⟩

/-! ### Errors (R115, R206) -/

/-- The outcomes of FSRENDER are OK, CLEARED and DisplayOverflow (R200). -/
theorem fsrender_status_of_next {s t : State} (h : exec .fsrender s = .next t) :
    t.status ∈ [0x00#8, 0x01#8, 0x20#8] := by
  rw [exec_fsrender] at h
  rcases execFsrender_cases s with ⟨_, e⟩ | ⟨_, _, e⟩ | ⟨_, _, _, e⟩ | ⟨_, _, _, _, e⟩ | ⟨_, _, _, _, e⟩ <;>
    rw [e] at h
  · obtain rfl := next_inj h
    exact .tail _ (.head _)
  · cases h
  · cases h
  · obtain rfl := next_inj h
    exact .tail _ (.tail _ (.head _))
  · obtain rfl := next_inj h
    exact .head _

/-- Settles O15: an operation that ends in such an error has raised it, or is FSRENDER, which has none of them. -/
theorem errorsChangeStatusOnly : Obligations.ErrorsChangeStatusOnly := by
  intro i s t h error
  have otherwise : ∀ v ∈ [0x00#8, 0x01#8, 0x20#8], v ∉ [0x10#8, 0x11#8, 0x12#8, 0x13#8, 0x14#8, 0x31#8] := by decide
  cases execEnds_of_next h with
  | raised => rfl
  | mask => exact absurd error (otherwise _ (.head _))
  | entry => exact absurd error (otherwise _ (.head _))
  | label => exact absurd error (otherwise _ (.head _))
  | lines => exact absurd error (otherwise _ (.head _))
  | payload => exact absurd error (otherwise _ (fsrender_status_of_next h))

end Sys2Proof.Machine
end

section
/-! New labels that ENCTEXT or ENCRAW does not encode: the label operation ends before any exchange (R181, R185). -/

namespace Sys2Proof.Machine

/-! ### A string presented to the block (R40) -/

/-- u holds a string the host has presented: its length, 255 for a longer one, and what TXT can hold of it. -/
structure Presented (chars : List Byte) (u : State) : Prop where
  length : u.tlen.toNat = min chars.length 255
  char   : ∀ x, x < chars.length → x < 96 → u.readByte .txt x = chars.getD x 0#8

theorem exists_presented (chars : List Byte) (s : State) :
    ∃ u, runActions (presentText chars) s = { state := u, refused := none } ∧ Presented chars u := by
  obtain ⟨u, run, length, char, _⟩ := runActions_presentText chars s
  exact ⟨u, run, length, char⟩

theorem Presented.length_of_le {chars : List Byte} {u : State} (h : Presented chars u) (h96 : chars.length ≤ 96) :
    u.tlen.toNat = chars.length :=
  h.length.trans (Nat.min_eq_left (by omega))

theorem Presented.rawGroup {chars : List Byte} {u : State} (h : Presented chars u) (h96 : chars.length ≤ 96) {k : Nat}
    (hk : k < chars.length / 4) : u.rawGroup k = charGroup chars k := by
  unfold State.rawGroup charGroup
  rw [h.char (4 * k) (by omega) (by omega), h.char (4 * k + 1) (by omega) (by omega),
    h.char (4 * k + 2) (by omega) (by omega), h.char (4 * k + 3) (by omega) (by omega)]

/-! ### The ends of the label operation before its read -/

section
variable {l : LabelInput} {chars : List Byte} {i : Instr}

/-- An operation that raises an error on every presentation of the string ends the label operation with it. -/
theorem endsBeforeExchange_of_raise {e : OutcomeKind}
    (actions : labelActions l = presentText chars ++ [.command (encode i)])
    (error : e.code ≠ OutcomeKind.code .ok) (raises : ∀ u, Presented chars u → exec i u = .next (u.raise e))
    (t : Transport) (s : State) : EndsBeforeExchange (labelPageOperation (some l) t s) e.code := by
  obtain ⟨u, presents, presented⟩ := exists_presented chars s
  have run : runActions (labelActions l) s = { state := u.raise e, refused := none } := by
    rw [actions, runActions_append presents, runActions_command (decode_encode i) (raises u presented)]
  simp only [labelPageOperation, run, State.raise_status, if_neg error]
  exact ⟨rfl, rfl⟩

/-- An operation that is refused on every presentation of the string ends the label operation as refused (entry 27). -/
theorem labelPageOperation_of_refused {r : Refusal}
    (actions : labelActions l = presentText chars ++ [.command (encode i)])
    (refuses : ∀ u, Presented chars u → exec i u = .refused r) (t : Transport) (s : State) :
    (labelPageOperation (some l) t s).result = .refused ∧ (labelPageOperation (some l) t s).calls = [] := by
  obtain ⟨u, presents, presented⟩ := exists_presented chars s
  have command : hostAct (.command (encode i)) u = .refused r :=
    (issueCommand_of_decode_ok (decode_encode i) u).trans (refuses u presented)
  have run : runActions (labelActions l) s = { state := u, refused := some r } := by
    rw [actions, runActions_append presents, runActions_cons_refused command]
  simp [labelPageOperation, run]

end

section
variable {chars : List Byte} {u : State}

/-! ### Texts (R111, R112) -/

theorem Presented.enctext_tooLong (h : Presented chars u) (h12 : 12 < chars.length) :
    exec .enctext u = .next (u.raise .tooLong) := by
  have length := h.length
  exact exec_enctext_of_long (by omega)

theorem Presented.enctext_unsupportedChar (h : Presented chars u) (h12 : chars.length ≤ 12)
    (unsupported : ∃ c ∈ chars, ¬ Supported c.toNat) : exec .enctext u = .next (u.raise .unsupportedChar) := by
  obtain ⟨c, hc, bad⟩ := unsupported
  obtain ⟨x, hx, rfl⟩ := List.mem_iff_getElem.mp hc
  have length := h.length_of_le (by omega)
  have char : u.charCode x = chars[x].toNat := by
    rw [State.charCode, h.char x hx (by omega), List.getD_eq_getElem _ _ hx]
  exact enctextUnsupportedChar u x (by omega) (by omega) (char ▸ bad)

/-! ### Raw strings (R117 to R122) -/

theorem Presented.encraw_tooLong (h : Presented chars u) (h96 : 96 < chars.length) :
    exec .encraw u = .next (u.raise .tooLong) := by
  have length := h.length
  exact exec_encraw_of_long (by omega)

theorem Presented.encraw_badLength (h : Presented chars u) (h96 : chars.length ≤ 96) (h4 : chars.length % 4 ≠ 0) :
    exec .encraw u = .next (u.raise .badLength) := by
  have length := h.length_of_le h96
  exact exec_encraw_of_ragged (by omega) (by omega)

theorem Presented.groupFits (h : Presented chars u) (h96 : chars.length ≤ 96) {k v : Nat} (hk : k < chars.length / 4)
    (fits : CharGroupFits chars k v) : GroupFits u k v := by
  rw [GroupFits, h.rawGroup h96 hk]
  exact fits

/-- The first group of the string that does not fit is the first group of TXT that does not. -/
theorem Presented.encraw_first_bad_group (h : Presented chars u) {k : Nat} (h48 : chars.length ≤ 48)
    (h4 : chars.length % 4 = 0) (hk : k < chars.length / 4) (fit : ∀ j, j < k → ∃ v, CharGroupFits chars j v) :
    ((∃ j, j < 4 ∧ ¬ HexCharacter (chars.getD (4 * k + j) 0#8)) → exec .encraw u = .next (u.raise .notHex)) ∧
    (∀ v, RawGroup.value (charGroup chars k) = some v → 0x3FFF < v → exec .encraw u = .next (u.raise .outOfRange)) := by
  have h96 : chars.length ≤ 96 := by omega
  have length := h.length_of_le h96
  have fit' : ∀ j, j < k → ∃ v, GroupFits u j v := fun j hj => (fit j hj).imp fun _ => h.groupFits h96 (by omega)
  obtain ⟨notHex, outOfRange⟩ := encrawFirstBadGroupDecides u k (by omega) (by omega) (by omega) fit'
  refine ⟨fun ⟨j, hj, bad⟩ => notHex ⟨j, hj, ?_⟩, fun v value => outOfRange v ?_⟩
  · rwa [h.char (4 * k + j) (by omega) (by omega)]
  · rwa [h.rawGroup h96 hk]

theorem Presented.encraw_refused (h : Presented chars u) (h52 : 52 ≤ chars.length) (h96 : chars.length ≤ 96)
    (h4 : chars.length % 4 = 0) : exec .encraw u = .refused .rawGroupsBeyondLabel := by
  have length := h.length_of_le h96
  exact (encrawBandRefused u _).mpr ⟨by omega, rfl⟩

end

/-- Settles O53: what the encoder does with the string as presented decides how the operation ends. -/
theorem rejectedTextMakesNoExchange : Obligations.RejectedTextMakesNoExchange := by
  intro chars t s
  have text {e : OutcomeKind} := endsBeforeExchange_of_raise (l := .text chars) (i := .enctext) (e := e) rfl
  have raw {e : OutcomeKind} := endsBeforeExchange_of_raise (l := .raw chars) (i := .encraw) (e := e) rfl
  refine ⟨fun h12 => ?_, fun h12 unsupported => ?_, fun h96 => ?_, fun h96 h4 => ?_, fun k h48 h4 hk fit => ?_,
    fun h52 h96 h4 => ?_⟩
  · exact text (by decide) (fun _ h => h.enctext_tooLong h12) t s
  · exact text (by decide) (fun _ h => h.enctext_unsupportedChar h12 unsupported) t s
  · exact raw (by decide) (fun _ h => h.encraw_tooLong h96) t s
  · exact raw (by decide) (fun _ h => h.encraw_badLength h96 h4) t s
  · have first {u : State} (h : Presented chars u) := h.encraw_first_bad_group h48 h4 hk fit
    exact ⟨fun notHex => raw (by decide) (fun _ h => (first h).1 notHex) t s,
      fun v value gt => raw (by decide) (fun _ h => (first h).2 v value gt) t s⟩
  · exact labelPageOperation_of_refused (l := .raw chars) (i := .encraw) rfl
      (fun _ h => h.encraw_refused h52 h96 h4) t s

end Sys2Proof.Machine
end

section
/-! What DECRENDER shows at a place of the lines (42_label_render.md R133 to R135), and ENCTEXT followed by DECRENDER
(R137). -/

namespace Sys2Proof.Machine

/-! ### The last of some values -/

/-- The last value a function gives along a list, or a default when it gives none. -/
def lastValue {α β : Type} (f : α → Option β) (l : List α) (default : β) : β :=
  l.foldl (fun old a => (f a).getD old) default

section
variable {α β : Type} {f : α → Option β}

theorem lastValue_append (l l' : List α) (d : β) : lastValue f (l ++ l') d = lastValue f l' (lastValue f l d) :=
  List.foldl_append

theorem lastValue_of_none {l : List α} (h : ∀ a ∈ l, f a = none) (d : β) : lastValue f l d = d := by
  induction l with
  | nil => rfl
  | cons a l ih =>
    rw [lastValue, List.foldl_cons, h a List.mem_cons_self]
    exact ih fun b hb => h b (List.mem_cons_of_mem _ hb)

/-- In an ordered list the last value is that of an element after which no other gives one. -/
theorem lastValue_of_last {l : List α} {r : α → α → Prop} {a : α} {c : β} (ordered : l.Pairwise r) (ha : a ∈ l)
    (value : f a = some c) (last : ∀ b ∈ l, r a b → f b = none) (d : β) : lastValue f l d = c := by
  obtain ⟨pre, post, rfl⟩ := List.append_of_mem ha
  have after : ∀ b ∈ post, r a b := (List.pairwise_cons.mp (List.pairwise_append.mp ordered).2.1).1
  rw [lastValue_append, lastValue, List.foldl_cons, value]
  refine lastValue_of_none (fun b hb => last b ?_ (after b hb)) c
  exact List.mem_append_right _ (List.mem_cons_of_mem _ hb)

end

/-! ### The character a segment shows at a place (R132, R133) -/

/-- The character an entry stamped into a slot's cell shows at row r, column x, if it shows one there. -/
def entryChar (g : GeomEntry) (slot r x : Nat) : Option Byte :=
  if g.row.val = r ∧ 6 * slot + g.col.val ≤ x then (Fragment.chars g.frag)[x - (6 * slot + g.col.val)]? else none

/-- The character segment b of slot i shows at a place, if the segment is drawn. -/
def segmentChar (geom : GeomTable) (value : Nat → Word) (r x : Nat) (p : Nat × Fin 14) : Option Byte :=
  if (value p.1).getLsbD p.2.val then entryChar (geom p.2) p.1 r x else none

theorem entryChar_eq_some_iff {g : GeomEntry} {slot r x : Nat} {c : Byte} : entryChar g slot r x = some c ↔
    g.row.val = r ∧ ∃ k, x = 6 * slot + g.col.val + k ∧ (Fragment.chars g.frag)[k]? = some c := by
  unfold entryChar
  split_ifs with h
  · obtain ⟨row, col⟩ := h
    refine ⟨fun char => ⟨row, _, (Nat.add_sub_cancel' col).symm, char⟩, fun ⟨_, k, place, char⟩ => ?_⟩
    rwa [place, Nat.add_sub_cancel_left]
  · refine ⟨nofun, fun ⟨row, k, place, _⟩ => absurd ⟨row, ?_⟩ h⟩
    omega

/-- Segment by segment, the stamps of the twelve slots are the characters shown. -/
theorem stamps_iff_segmentChar {geom : GeomTable} {value : Nat → Word} {i r x : Nat} {b : Fin 14} {c : Byte} :
    Stamps geom value i b r x c ↔ i < 12 ∧ segmentChar geom value r x (i, b) = some c := by
  unfold Stamps segmentChar
  split_ifs with drawn
  · rw [entryChar_eq_some_iff]
    simp only [drawn, true_and]
  · simp only [drawn, false_and, and_false, reduceCtorEq]

/-! ### The grid at a place -/

section
variable {geom : GeomTable} {value : Nat → Word} {r x : Nat}

/-- One stamp shows its entry's character at the places it covers. Rows do not run into each other: no cell reaches past
column 72 (R43, R133). -/
theorem read_stampEntry (g : GeomEntry) {slot : Nat} (hslot : slot < 12) (hx : x < 73) (m : Memory) :
    Memory.read (stampEntry g slot m) (gridOffset r x) =
      (entryChar g slot r x).getD (Memory.read m (gridOffset r x)) := by
  have col := g.col.isLt
  have flen : (Fragment.chars g.frag).length ≤ 3 := fragment_flen_le g.frag
  rw [stampEntry, read_stampChars, entryChar]
  have offset : gridOffset r x = 73 * r + x := rfl
  have origin : gridOffset g.row.val (6 * slot + g.col.val) = 73 * g.row.val + (6 * slot + g.col.val) := rfl
  by_cases place : g.row.val = r ∧ 6 * slot + g.col.val ≤ x
  · rw [if_pos place]
    have index : gridOffset r x - gridOffset g.row.val (6 * slot + g.col.val) = x - (6 * slot + g.col.val) := by omega
    rw [index]
    split_ifs with inside
    · have lt : x - (6 * slot + g.col.val) < (Fragment.chars g.frag).length := by omega
      rw [List.getElem?_eq_getElem lt, List.getD_eq_getElem _ _ lt, Option.getD_some]
    · rw [List.getElem?_eq_none (by omega), Option.getD_none]
  · rw [if_neg place, if_neg (by omega), Option.getD_none]

theorem read_stampBits {slot : Nat} (hslot : slot < 12) (hx : x < 73) (bs : List (Fin 14)) (m : Memory) :
    Memory.read (stampBits geom slot (value slot) bs m) (gridOffset r x) =
      lastValue (segmentChar geom value r x) (bs.map (slot, ·)) (Memory.read m (gridOffset r x)) := by
  induction bs generalizing m with
  | nil => rfl
  | cons b bs ih =>
    rw [stampBits, ih, List.map_cons, lastValue, lastValue, List.foldl_cons, segmentChar]
    dsimp only
    split_ifs with drawn
    · rw [read_stampEntry _ hslot hx]
    · rfl

/-- A blank slot draws no segment, so it needs no case of its own (R131). -/
theorem read_stampSlot {slot : Nat} (hslot : slot < 12) (hx : x < 73) (m : Memory) :
    Memory.read (stampSlot geom slot (value slot) m) (gridOffset r x) =
      lastValue (segmentChar geom value r x) (segmentBits.map (slot, ·)) (Memory.read m (gridOffset r x)) := by
  rw [stampSlot]
  split_ifs with blank
  · refine (lastValue_of_none (fun p hp => ?_) _).symm
    obtain ⟨b, _, rfl⟩ := List.mem_map.mp hp
    simp [segmentChar, blank]
  · exact read_stampBits hslot hx segmentBits m

theorem read_stampSlots {slots : List Nat} (hslots : ∀ i ∈ slots, i < 12) (hx : x < 73) (m : Memory) :
    Memory.read (stampSlots geom value slots m) (gridOffset r x) =
      lastValue (segmentChar geom value r x) (slots ×ˢ segmentBits) (Memory.read m (gridOffset r x)) := by
  induction slots generalizing m with
  | nil => rfl
  | cons i is ih =>
    rw [stampSlots, ih fun j hj => hslots j (List.mem_cons_of_mem _ hj),
      read_stampSlot (hslots i List.mem_cons_self) hx, List.product_cons, lastValue_append]

end

/-! ### The rendering (R134, R135) -/

/-- The order of stamps: by slot, then by segment bit (R135). -/
def StampedBefore (p q : Nat × Fin 14) : Prop :=
  p.1 < q.1 ∨ (p.1 = q.1 ∧ p.2 < q.2)

theorem pairwise_segments (n : Nat) : (List.range n ×ˢ segmentBits).Pairwise StampedBefore := by
  refine List.pairwise_flatMap.mpr ⟨fun i _ => List.pairwise_map.mpr ?_, ?_⟩
  · have ascending : segmentBits.Pairwise (· < ·) := by decide
    exact ascending.imp fun lt => .inr ⟨rfl, lt⟩
  · refine List.pairwise_lt_range.imp fun lt p hp q hq => .inl ?_
    obtain ⟨_, _, rfl⟩ := List.mem_map.mp hp
    obtain ⟨_, _, rfl⟩ := List.mem_map.mp hq
    exact lt

theorem mem_segments {i : Nat} (hi : i < 12) (b : Fin 14) : (i, b) ∈ List.range 12 ×ˢ segmentBits := by
  refine List.mem_product.mpr ⟨List.mem_range.mpr hi, ?_⟩
  revert b
  decide

/-- A grid on which the twelve values were stamped shows their rendering, as far as column 72. -/
theorem renders_of_grid {geom : GeomTable} {value : Nat → Word} {width : Nat} {t : State} (hwidth : width ≤ 73)
    (grid : t.grid = stampSlots geom value (List.range 12) blankGrid) : Renders geom value width t := by
  intro r x hr hx
  have read : t.gridByte r x =
      lastValue (segmentChar geom value r x) (List.range 12 ×ˢ segmentBits) 0x20#8 := by
    have background : Memory.read blankGrid (gridOffset r x) = 0x20#8 := by
      rw [read_blankGrid, if_pos (by rw [gridOffset]; omega)]
    rw [State.gridByte, State.readByte, State.space, grid, read_stampSlots (fun _ => List.mem_range.mp) (by omega),
      background]
  rw [read]
  refine ⟨fun unstamped => lastValue_of_none (fun p hp => ?_) _, fun i b c stamped last => ?_⟩
  · obtain ⟨slot, _⟩ := List.mem_product.mp hp
    refine Option.eq_none_iff_forall_ne_some.mpr fun c char => ?_
    exact unstamped p.1 p.2 c (stamps_iff_segmentChar.mpr ⟨List.mem_range.mp slot, char⟩)
  · obtain ⟨hi, char⟩ := stamps_iff_segmentChar.mp stamped
    refine lastValue_of_last (pairwise_segments 12) (mem_segments hi b) char (fun q hq later => ?_) _
    obtain ⟨slot, _⟩ := List.mem_product.mp hq
    refine Option.eq_none_iff_forall_ne_some.mpr fun c' char' => ?_
    have notLater := last q.1 q.2 c' (stamps_iff_segmentChar.mpr ⟨List.mem_range.mp slot, char'⟩)
    rw [StampedBefore, Fin.lt_def] at later
    dsimp only at later
    omega

/-- Settles O35: the slots DECRENDER reads hold the masks that ENCTEXT stored. -/
theorem textRoundTripRenders : Obligations.TextRoundTripRenders := by
  intro s h12 supported
  refine ⟨_, _, exec_enctext_of_supported h12 supported, exec_decrender_eq _, ?_⟩
  intro value
  set t := s.labelled ((List.range s.tlen.toNat).map fun i => maskOf (s.charCode i))
  have slots : ∀ i ∈ List.range 12, t.slot i = value i := fun i hi =>
    (slot_labelled s _ (List.mem_range.mp hi)).trans (slotValue_map_range _ _ i)
  have llen : (t.rendered.finish .ok).llen.toNat = terminatorColumn value (List.range 12) 0 :=
    (rendered_llen_toNat t).trans (terminatorColumn_congr slots 0)
  have grid : (t.rendered.finish .ok).grid = stampSlots Config.geom value (List.range 12) blankGrid :=
    stampSlots_congr Config.geom slots blankGrid
  have terminates := terminatesAt_terminatorColumn value
  have width := terminatorColumn_le value
  rw [llen]
  exact ⟨terminates, renders_of_grid (by omega) grid⟩

end Sys2Proof.Machine
end

section
/-! What the lines of DECRENDER show, whatever the label holds (42_label_render.md R130 to R135). -/

namespace Sys2Proof.Machine

/-- Settles O33: the grid is the twelve slots stamped on the background, and LLEN never passes column 73. -/
theorem decrenderShowsLastStamp : Obligations.DecrenderShowsLastStamp := by
  intro s
  have width : (s.rendered.finish .ok).llen.toNat ≤ 73 := by
    have column := terminatorColumn_le s.slot
    rw [State.finish_llen, rendered_llen_toNat]
    omega
  exact ⟨_, exec_decrender_eq s, renders_of_grid width rfl⟩

end Sys2Proof.Machine
end

section
/-! What FSRENDER clears and displays (43_freespace_render.md R142 to R155): the reset step alone, the rounding of the
bar, and the digits, the decimal point and the flags of a value that fits. -/

namespace Sys2Proof.Machine

/-! ### The bytes FSRENDER does not name (R64, R160) -/

theorem fspKeep_of_notMem {o : Nat} (h : o ∉ [4, 6, 7, 10, 11, 12, 13, 14]) : fspKeep o = BitVec.allOnes 8 := by
  simp only [List.mem_cons, List.not_mem_nil, or_false, not_or] at h
  obtain ⟨h4, h6, h7, h10, h11, digits⟩ := h
  simp only [fspKeep, if_neg h4, if_neg h6, if_neg h7, if_neg h10, if_neg h11, digits, or_self, if_false]
  rfl

theorem UnownedKept.readByte_eq {s t : State} (h : UnownedKept s t) {o : Nat}
    (other : o ∉ [4, 6, 7, 10, 11, 12, 13, 14]) : t.readByte .fsp o = s.readByte .fsp o := by
  have kept := h o
  rwa [fspKeep_of_notMem other, BitVec.and_allOnes, BitVec.and_allOnes] at kept

/-! ### The cleared state and the refusals (R141 to R144) -/

theorem exec_fsrender_of_total_zero {s : State} (zero : s.total = 0#64) :
    exec .fsrender s = .next (s.fspReset.finish .cleared) :=
  (exec_fsrender s).trans (if_pos (congrArg BitVec.toNat zero))

/-- Settles O36: the reset step's masks, byte by byte. -/
theorem fsrenderCleared : Obligations.FsrenderCleared := by
  intro s zero
  have e := exec_fsrender_of_total_zero zero
  have masked (o : Nat) : (s.fspReset.finish .cleared).readByte .fsp o = s.readByte .fsp o &&& fspKeep o := by
    rw [State.readByte_finish, readFsp_fspReset_eq_and]
  have digit (o : Nat) (h12 : 12 ≤ o) (h14 : o ≤ 14) : fspKeep o = 0x70#8 := by
    obtain rfl | rfl | rfl : o = 12 ∨ o = 13 ∨ o = 14 := by omega
    all_goals rfl
  refine ⟨_, e, rfl, masked 4, (masked 6).trans BitVec.and_zero, masked 7, masked 10, masked 11, ?_,
    fun _ other => (unownedKept_fsrender e).readByte_eq other, onlySpaceWritten_fsrender e, resultRegsKept_fsrender e⟩
  intro o h12 h14
  rw [masked, digit o h12 h14]

/-- Settles O37: a next state is no refusal, and the band of FSRENDER is R144's two cases. -/
theorem fsrenderRefusals : Obligations.FsrenderRefusals := by
  intro s
  have band : ¬ hasResult .fsrender s = true ↔
      0 < s.total.toNat ∧ (s.kbf.toNat = 0 ∨ s.total.toNat < s.free.toNat) := by
    rw [hasResult_fsrender_iff, State.totalCount, State.unitFactor, State.freeCount]
    omega
  rw [← band]
  rcases endsAsBandsSay_fsrender s with ⟨outside, t, e⟩ | ⟨inside, refused⟩
  · rw [e]
    exact ⟨nofun, fun inside => absurd outside inside⟩
  · exact ⟨fun _ => inside, fun _ => refused⟩

/-! ### The rounding of the bar (R145) -/

theorem roundedTenths_eq_iff {F T : Nat} (k : Nat) (hT : 0 < T) :
    roundedTenths F T = k ↔ 2 * k * T ≤ 20 * F + T ∧ 20 * F < (2 * k + 1) * T := by
  have product : k * (2 * T) = 2 * k * T := by ring
  have successor : (2 * k + 1) * T = 2 * k * T + T := by ring
  rw [roundedTenths, Nat.div_eq_iff (by omega), product, successor]
  omega

theorem roundedTenths_le {F T : Nat} (hT : 0 < T) (hF : F ≤ T) : roundedTenths F T ≤ 10 := by
  have below : (20 * F + T) / (2 * T) < 11 := (Nat.div_lt_iff_lt_mul (by omega)).mpr (by omega)
  exact Nat.le_of_lt_succ below

/-- Settles O38: the segments used are what the rounding leaves of ten. -/
theorem roundingOfBar : Obligations.RoundingOfBar :=
  fun _ _ k hT hF =>
    ⟨roundedTenths_eq_iff k hT, roundedTenths_le hT hF, Nat.sub_add_cancel (roundedTenths_le hT hF)⟩

/-! ### A value that fits the display (R148 to R154) -/

/-- The payload after the reset step, the bar, the digits and the unit (R146 to R153). -/
def State.displayed (s : State) (bar : Bar) (d : Digits) (tb : Bool) : State :=
  ((s.fspReset.writeBar bar).writeDigits d).writeUnit tb

/-- Operands whose value fits end FSRENDER with OK and the display (R149). -/
theorem exec_fsrender_of_fits {s : State} (populated : Populated s)
    (small : s.free.toNat < 1000 * s.kbf.toNat ^ 4) :
    exec .fsrender s = .next ((s.displayed (barOf (segmentsUsed s.freeCount s.totalCount))
      (displayDigits s.freeCount (displayDivisor s.freeCount s.unitFactor))
      (tbMode s.freeCount s.unitFactor)).finish .ok) := by
  have ⟨_, kbf, _⟩ := populated
  rcases exec_fsrender_cases_of_populated populated with ⟨overflows, _⟩ | ⟨_, e⟩
  · exact absurd small (Nat.not_lt.mpr ((displayOverflows_iff _ kbf).mp overflows))
  · exact e

/-- The digits and the decimal point of d are shown, a missing hundreds digit as a blank (R150 to R154). -/
structure Digits.ShownIn (d : Digits) (t : State) : Prop where
  hundreds : ∀ h, d.hundreds = some h → DigitShown t 12 h
  blank    : d.hundreds = none → DigitBlank t 12
  tens     : DigitShown t 13 d.tens
  ones     : DigitShown t 14 d.ones
  point    : t.getBit .fsp 11 1 = d.point

theorem Digits.ShownIn.finish {d : Digits} {t : State} (h : d.ShownIn t) (o : OutcomeKind) : d.ShownIn (t.finish o) :=
  ⟨h.hundreds, h.blank, h.tens, h.ones, h.point⟩

/-- A digit ORed into a byte whose owned bits are clear is shown (R152). -/
theorem digit_or_and (x : Byte) {d : Nat} (hd : d < 10) :
    ((x &&& 0x70#8) ||| 0x80#8 ||| BitVec.ofNat 8 d) &&& 0x8F#8 = BitVec.ofNat 8 (0x80 + d) := by
  have clear : (x &&& 0x70#8) &&& 0x8F#8 = 0#8 := (BitVec.and_assoc ..).trans BitVec.and_zero
  have digit : ∀ d < 10, (0x80#8 ||| BitVec.ofNat 8 d) &&& 0x8F#8 = BitVec.ofNat 8 (0x80 + d) := by decide
  rw [BitVec.or_assoc, BitVec.and_or_distrib_right, clear, BitVec.zero_or, digit d hd]

section
variable (s : State) (bar : Bar) (d : Digits) (tb : Bool)

/-- Outside the bar's three bytes the digit step finds the reset step's clear bits. -/
theorem readFsp_writeBar_fspReset {o : Nat} (ho : 10 ≤ o) :
    (s.fspReset.writeBar bar).readByte .fsp o = s.readByte .fsp o &&& fspKeep o := by
  rw [← readFsp_overflowed s bar ho, State.overflowed, State.readByte_raise]

/-- The unit is written to FSP+10, so the other bytes are the digit step's. -/
theorem readFsp_displayed {o : Nat} (ho : o ≠ 10) :
    (s.displayed bar d tb).readByte .fsp o = ((s.fspReset.writeBar bar).writeDigits d).readByte .fsp o := by
  rw [State.displayed, readFsp_writeUnit, if_neg ho]

theorem shownIn_displayed (decimal : d.Decimal) : d.ShownIn (s.displayed bar d tb) where
  hundreds h present := by
    rw [DigitShown, readFsp_displayed s bar d tb (by decide), readFsp_writeDigits, if_neg (by decide), if_pos rfl,
      present, readFsp_writeBar_fspReset s bar (by decide)]
    exact digit_or_and _ (decimal.hundreds h present)
  blank absent := by
    rw [DigitBlank, readFsp_displayed s bar d tb (by decide), readFsp_writeDigits, if_neg (by decide), if_pos rfl,
      absent, readFsp_writeBar_fspReset s bar (by decide), BitVec.and_assoc]
    exact BitVec.and_zero
  tens := by
    rw [DigitShown, readFsp_displayed s bar d tb (by decide), readFsp_writeDigits, if_neg (by decide),
      if_neg (by decide), if_pos rfl, readFsp_writeBar_fspReset s bar (by decide)]
    exact digit_or_and _ decimal.tens
  ones := by
    rw [DigitShown, readFsp_displayed s bar d tb (by decide), readFsp_writeDigits, if_neg (by decide),
      if_neg (by decide), if_neg (by decide), if_pos rfl, readFsp_writeBar_fspReset s bar (by decide)]
    exact digit_or_and _ decimal.ones
  point := by
    rw [State.getBit, readFsp_displayed s bar d tb (by decide), readFsp_writeDigits, if_pos rfl,
      readFsp_writeBar_fspReset s bar (by decide)]
    cases d.point with
    | false => exact getLsbD_and_fspKeep _ (by decide) rfl
    | true => exact (BitVec.getLsbD_or ..).trans (Bool.or_true _)

/-- The flags of FSP+10 are clear after the reset step, and the flag step sets two of them (R153). -/
theorem getBit_displayed_unit {b : Nat} (hb : b < 8) (owned : fspOwned 10 b = true) :
    (s.displayed bar d tb).getBit .fsp 10 b = (if tb then 0x14#8 else 0x12#8).getLsbD b := by
  rw [State.getBit, State.displayed, readFsp_writeUnit, if_pos rfl, readFsp_writeDigits, if_neg (by decide),
    if_neg (by decide), if_neg (by decide), if_neg (by decide), readFsp_writeBar_fspReset s bar (by decide),
    BitVec.getLsbD_or, getLsbD_and_fspKeep _ hb owned, Bool.false_or]

theorem unitFlags_displayed :
    (s.displayed bar d tb).getBit .fsp 10 2 = tb ∧ (s.displayed bar d tb).getBit .fsp 10 1 = !tb ∧
      (s.displayed bar d tb).getBit .fsp 10 4 = true := by
  rw [getBit_displayed_unit s bar d tb (by decide) rfl, getBit_displayed_unit s bar d tb (by decide) rfl,
    getBit_displayed_unit s bar d tb (by decide) rfl]
  revert tb
  decide

end

/-! ### The display in terms of R148 -/

/-- TB mode exactly from 1000 * K^3 up. -/
theorem tbMode_eq (F K : Nat) : tbMode F K = decide (1000 * K ^ 3 ≤ F) := by
  rw [tbMode, ← decide_not, decide_eq_decide, Nat.not_lt]

theorem not_tbMode_eq (F K : Nat) : (!tbMode F K) = decide (F < 1000 * K ^ 3) :=
  Bool.not_not _

/-- The model's divisor is D (R148). -/
theorem displayDivisor_eq (F K : Nat) : displayDivisor F K = divisorOf F K := by
  unfold displayDivisor divisorOf
  simp only [← Bool.not_eq_false, tbMode_eq_false_iff, ite_not]

/-- A value of 10 or more: the integer's digits, the hundreds only from 100 up (R150). -/
theorem displayDigits_of_le {F D : Nat} (integer : 10 * D ≤ F) :
    displayDigits F D =
      { hundreds := if F / D ≥ 100 then some (F / D / 100) else none, tens := F / D / 10 % 10, ones := F / D % 10,
        point := false } :=
  if_pos integer

/-- A value below 10: X.YY, the digits of the hundredths (R151). -/
theorem displayDigits_of_lt {F D : Nat} (decimal : F < 10 * D) :
    displayDigits F D =
      { hundreds := some (100 * F / D / 100), tens := 100 * F / D / 10 % 10, ones := 100 * F / D % 10,
        point := true } :=
  if_neg (Nat.not_le.mpr decimal)

/-- Operands whose value fits show the digits of FREE over D, which is below 1000, and the flags of the mode. -/
theorem exec_fsrender_displays {s : State} (populated : Populated s)
    (small : s.free.toNat < 1000 * s.kbf.toNat ^ 4) :
    s.free.toNat < 1000 * divisorOf s.free.toNat s.kbf.toNat ∧
      ∃ t, exec .fsrender s = .next t ∧ t.status = 0x00#8 ∧
      (displayDigits s.free.toNat (divisorOf s.free.toNat s.kbf.toNat)).ShownIn t ∧
      t.getBit .fsp 10 2 = decide (1000 * s.kbf.toNat ^ 3 ≤ s.free.toNat) ∧
      t.getBit .fsp 10 1 = decide (s.free.toNat < 1000 * s.kbf.toNat ^ 3) ∧ t.getBit .fsp 10 4 = true := by
  have ⟨_, kbf, _⟩ := populated
  have fits : displayOverflows s.free.toNat s.kbf.toNat = false := by
    rwa [← Bool.not_eq_true, displayOverflows_iff _ kbf, Nat.not_le]
  have value := lt_displayDivisor kbf fits
  have decimal := decimal_displayDigits (displayDivisor_pos s.free.toNat kbf) value
  rw [← displayDivisor_eq, ← tbMode_eq, ← not_tbMode_eq]
  exact ⟨value, _, exec_fsrender_of_fits populated small, rfl, (shownIn_displayed s _ _ _ decimal).finish .ok,
    unitFlags_displayed ..⟩

/-- Settles O42 by the flags of the mode. -/
theorem fsrenderUnitFlags : Obligations.FsrenderUnitFlags := by
  intro s populated small
  obtain ⟨_, t, e, ok, _, flags⟩ := exec_fsrender_displays populated small
  exact ⟨t, e, ok, flags⟩

/-- Settles O40 by the digits of an integer. -/
theorem fsrenderIntegerFormat : Obligations.FsrenderIntegerFormat := by
  intro s populated small integer
  obtain ⟨value, t, e, ok, shown, _⟩ := exec_fsrender_displays populated small
  rw [displayDigits_of_le integer] at shown
  exact ⟨t, e, ok, (Nat.div_lt_iff_lt_mul (by omega)).mpr value, fun large => shown.hundreds _ (if_pos large),
    fun below => shown.blank (if_neg (Nat.not_le.mpr below)), shown.tens, shown.ones, shown.point⟩

/-- Settles O41 by the digits of the hundredths. -/
theorem fsrenderDecimalFormat : Obligations.FsrenderDecimalFormat := by
  intro s populated small decimal
  obtain ⟨value, t, e, ok, shown, _⟩ := exec_fsrender_displays populated small
  rw [displayDigits_of_lt decimal] at shown
  exact ⟨t, e, ok, (Nat.div_lt_iff_lt_mul (by omega)).mpr (by omega), shown.hundreds _ rfl, shown.tens, shown.ones,
    shown.point⟩

end Sys2Proof.Machine
end

section
/-! What of the payload before FSRENDER its payload after depends on (43_freespace_render.md R161). -/

namespace Sys2Proof.Machine

/-- Bit by bit, in the terms of R64. -/
theorem unownedKept_of_getBit_eq {s t : State}
    (h : ∀ o b, fspOwned o b = false → t.getBit .fsp o b = s.getBit .fsp o b) : UnownedKept s t := by
  intro o
  refine BitVec.eq_of_getLsbD_eq fun b hb => ?_
  rw [BitVec.getLsbD_and, BitVec.getLsbD_and, getLsbD_fspKeep o hb]
  cases owned : fspOwned o b with
  | false => exact congrArg (· && true) (h o b owned)
  | true => rw [Bool.not_true, Bool.and_false, Bool.and_false]

/-- States that agree on the bits FSRENDER does not own are alike after its reset step. -/
theorem UnownedKept.fspAgree_fspReset {s1 s2 : State} (h : UnownedKept s1 s2) : FspAgree s1.fspReset s2.fspReset := by
  intro o _
  rw [readFsp_fspReset_eq_and, readFsp_fspReset_eq_and, h o]

section
variable {s1 s2 t1 : State}

/-- After the reset step the payloads agree, and what follows it is decided by the operands and that payload. -/
theorem fsrender_agrees_of_unownedKept (hfree : s1.free = s2.free) (htotal : s1.total = s2.total)
    (hkbf : s1.kbf = s2.kbf) (unowned : UnownedKept s1 s2) :
    OutcomesAgree .fsrender (execFsrender s1) (execFsrender s2) := by
  have F : s1.freeCount = s2.freeCount := congrArg BitVec.toNat hfree
  have T : s1.totalCount = s2.totalCount := congrArg BitVec.toNat htotal
  have K : s1.unitFactor = s2.unitFactor := congrArg BitVec.toNat hkbf
  have reset := unowned.fspAgree_fspReset
  unfold execFsrender
  simp only [F, T, K]
  split_ifs
  · exact outcomesAgree_next (reset.resultsAgree _)
  · exact outcomesAgree_refused _ _
  · exact outcomesAgree_refused _ _
  · exact outcomesAgree_next ((reset.writeBar _).resultsAgree _)
  · exact outcomesAgree_next ((((reset.writeBar _).writeDigits _).writeUnit _).resultsAgree _)

/-- The same answer, at every offset of FSP. -/
theorem exec_fsrender_of_unownedKept (hfree : s1.free = s2.free) (htotal : s1.total = s2.total)
    (hkbf : s1.kbf = s2.kbf) (unowned : UnownedKept s1 s2) (h : exec .fsrender s1 = .next t1) :
    ∃ t2, exec .fsrender s2 = .next t2 ∧ t2.status = t1.status ∧ SpaceKept .fsp t1 t2 := by
  obtain ⟨t2, e, status, payload⟩ := (fsrender_agrees_of_unownedKept hfree htotal hkbf unowned).1 t1 h
  refine ⟨t2, e, status.symm, fun o => ?_⟩
  by_cases ho : o < 16
  · exact (payload o ho).symm
  · have other : o ∉ [4, 6, 7, 10, 11, 12, 13, 14] := by
      simp only [List.mem_cons, List.not_mem_nil, or_false]
      omega
    calc t2.readByte .fsp o
      _ = s2.readByte .fsp o := (unownedKept_fsrender e).readByte_eq other
      _ = s1.readByte .fsp o := unowned.readByte_eq other
      _ = t1.readByte .fsp o := ((unownedKept_fsrender h).readByte_eq other).symm

end

/-- Settles O46: what the payload before decides is what the reset step leaves. -/
theorem fsrenderForgetsOwnedBits : Obligations.FsrenderForgetsOwnedBits :=
  fun _ _ _ hfree htotal hkbf agree h =>
    exec_fsrender_of_unownedKept hfree htotal hkbf (unownedKept_of_getBit_eq fun o b hb => (agree o b hb).symm) h

/-- Settles O45: FSRENDER's own output has the operands and the bits it does not own of the input. -/
theorem fsrenderIdempotent : Obligations.FsrenderIdempotent := by
  intro s t h
  obtain ⟨hfree, htotal, hkbf, _⟩ := (execEnds_of_next h).operandRegsKept
  exact exec_fsrender_of_unownedKept hfree.symm htotal.symm hkbf.symm (unownedKept_fsrender h) h

end Sys2Proof.Machine
end

section
/-! Bytes and bits of a page buffer, the validators, and the flag operation on a mode page (44_host_page_operations.md
R174, R175, R178, R179). -/

namespace Sys2Proof.Machine

/-! ### Bytes and bits of a buffer (R46, R47) -/

theorem byteIs_iff (buf : Buffer) (o v : Nat) : byteIs buf o v = true ↔ ∃ b, buf[o]? = some b ∧ b.toNat = v := by
  unfold byteIs
  cases buf[o]? with
  | none => exact ⟨nofun, nofun⟩
  | some b => simp only [beq_iff_eq, Option.some.injEq, exists_eq_left']

/-- A bit that is read lies in a byte of the buffer. -/
theorem bufferGetBit_eq_some_iff (buf : Buffer) (o k : Nat) (v : Bool) :
    bufferGetBit buf o k = some v ↔ k < 8 ∧ ∃ x, buf[o]? = some x ∧ x.getLsbD k = v := by
  unfold bufferGetBit
  split_ifs with hk
  · rw [Option.map_eq_some_iff]
    exact (and_iff_right hk).symm
  · exact ⟨nofun, fun h => absurd h.1 hk⟩

/-- A bit that can be read can be set. -/
theorem exists_bufferSetBit {buf : Buffer} {o k : Nat} {cur : Bool} (h : bufferGetBit buf o k = some cur) (v : Bool) :
    ∃ c, bufferSetBit buf o k v = some c := by
  obtain ⟨hk, x, hx, _⟩ := (bufferGetBit_eq_some_iff buf o k cur).mp h
  exact ⟨buf.set o (setBitOf x k v), by rw [bufferSetBit, if_pos hk, hx, Option.map_some]⟩

section
variable {buf c : Buffer} {o k : Nat} {v : Bool}

/-- What setBit does to a buffer: one byte is replaced. -/
theorem eq_set_of_bufferSetBit (h : bufferSetBit buf o k v = some c) :
    k < 8 ∧ ∃ x, buf[o]? = some x ∧ c = buf.set o (setBitOf x k v) := by
  unfold bufferSetBit at h
  split_ifs at h with hk
  obtain ⟨x, hx, rfl⟩ := Option.map_eq_some_iff.mp h
  exact ⟨hk, x, hx, rfl⟩

theorem length_bufferSetBit (h : bufferSetBit buf o k v = some c) : c.length = buf.length := by
  obtain ⟨_, x, _, rfl⟩ := eq_set_of_bufferSetBit h
  exact List.length_set

/-- getBit after setBit: the bit set, and every other bit as before (R47). -/
theorem bufferGetBit_bufferSetBit (h : bufferSetBit buf o k v = some c) (o' k' : Nat) :
    bufferGetBit c o' k' = if o' = o ∧ k' = k then some v else bufferGetBit buf o' k' := by
  obtain ⟨hk, x, hx, rfl⟩ := eq_set_of_bufferSetBit h
  obtain ⟨inside, _⟩ := List.getElem?_eq_some_iff.mp hx
  by_cases ho : o' = o
  · subst ho
    by_cases hk' : k' = k
    · subst hk'
      rw [if_pos ⟨rfl, rfl⟩, bufferGetBit, if_pos hk, List.getElem?_set_self inside, Option.map_some,
        getLsbD_setBitOf x k' k' v hk, if_pos rfl]
    · rw [if_neg fun both => hk' both.2, bufferGetBit, bufferGetBit, List.getElem?_set_self inside, hx,
        Option.map_some, Option.map_some, getLsbD_setBitOf x k k' v hk, if_neg hk']
  · rw [if_neg fun both => ho both.1, bufferGetBit, bufferGetBit, List.getElem?_set_ne (Ne.symm ho)]

theorem bufferGetBit_bufferSetBit_same (h : bufferSetBit buf o k v = some c) : bufferGetBit c o k = some v := by
  rw [bufferGetBit_bufferSetBit h, if_pos ⟨rfl, rfl⟩]

theorem bufferGetBit_bufferSetBit_other (h : bufferSetBit buf o k v = some c) {o' k' : Nat} (other : o' ≠ o ∨ k' ≠ k) :
    bufferGetBit c o' k' = bufferGetBit buf o' k' := by
  rw [bufferGetBit_bufferSetBit h, if_neg (by omega)]

end

/-! ### The validators (R174, R175) -/

/-- The page code is the low six bits of its byte. -/
theorem toNat_and_pageCode (b : Byte) : (b &&& 0x3F#8).toNat = b.toNat % 64 :=
  Nat.and_two_pow_sub_one_eq_mod _ 6

/-- The validator as a conjunction of what it tests, each of a byte the buffer has. -/
theorem modePageValid_iff (buf : Buffer) (code len : Nat) : modePageValid buf code len = true ↔
    (∃ b0, buf[0]? = some b0 ∧ b0.toNat = len + 5) ∧ (∃ b3, buf[3]? = some b3 ∧ b3.toNat = 0) ∧
    (∃ b4, buf[4]? = some b4 ∧ b4.getLsbD 6 = false) ∧ (∃ b4, buf[4]? = some b4 ∧ b4.toNat % 64 = code) ∧
    ∃ b5, buf[5]? = some b5 ∧ b5.toNat = len := by
  simp only [modePageValid, Bool.and_eq_true, beq_iff_eq, byteIs_iff, bufferGetBit_eq_some_iff,
    Option.map_eq_some_iff, toNat_and_pageCode, and_assoc, show 6 < 8 by decide, true_and]

/-- Settles O50: both conditions on byte 4 are of the same byte. -/
theorem modePageConditions : Obligations.ModePageConditions := by
  intro buf code len
  rw [modePageValid_iff]
  constructor
  · rintro ⟨⟨b0, e0, total⟩, ⟨b3, e3, descriptor⟩, ⟨b4, e4, spf⟩, ⟨b4', e4', page⟩, b5, e5, length⟩
    obtain rfl := Option.some.inj (e4.symm.trans e4')
    exact ⟨b0, b3, b4, b5, e0, e3, e4, e5, total, descriptor, spf, page, length⟩
  · rintro ⟨b0, b3, b4, b5, e0, e3, e4, e5, total, descriptor, spf, page, length⟩
    exact ⟨⟨b0, e0, total⟩, ⟨b3, e3, descriptor⟩, ⟨b4, e4, spf⟩, ⟨b4, e4, page⟩, b5, e5, length⟩

/-- The length test needs both bytes of the length. -/
theorem diagnosticPageValid_iff (buf : Buffer) (code len : Nat) : diagnosticPageValid buf code len = true ↔
    (∃ b0, buf[0]? = some b0 ∧ b0.toNat = code) ∧
    ∃ b2 b3, buf[2]? = some b2 ∧ buf[3]? = some b3 ∧ b2.toNat * 256 + b3.toNat = len := by
  unfold diagnosticPageValid
  rw [Bool.and_eq_true, byteIs_iff]
  refine and_congr_right fun _ => ?_
  cases buf[2]? with
  | none => exact ⟨nofun, nofun⟩
  | some b2 =>
    cases buf[3]? with
    | none => exact ⟨nofun, nofun⟩
    | some b3 => simp only [beq_iff_eq, Option.some.injEq, exists_and_left, exists_eq_left']

/-- Settles O51: the bytes the validator tests, named together. -/
theorem diagnosticPageConditions : Obligations.DiagnosticPageConditions := by
  intro buf code len
  rw [diagnosticPageValid_iff]
  constructor
  · rintro ⟨⟨b0, e0, page⟩, b2, b3, e2, e3, length⟩
    exact ⟨b0, b2, b3, e0, e2, e3, page, length⟩
  · rintro ⟨b0, b2, b3, e0, e2, e3, page, length⟩
    exact ⟨⟨b0, e0, page⟩, b2, b3, e2, e3, length⟩

/-! ### ModePageFlagOperation (R178, R179) -/

/-- The flag lies in the payload, so it is not in the byte of PS. -/
theorem four_lt_flagPosition (p : FlagPage) : 4 < flagPosition p := by
  unfold flagPosition
  omega

/-- A page with a byte 4 and a flag bit has a page to write back: PS cleared, the flag set, and every other bit
as read. -/
theorem exists_flagWriteBack (p : FlagPage) {buf : Buffer} {cur spf : Bool} (want : Bool)
    (header : bufferGetBit buf 4 6 = some spf) (flag : bufferGetBit buf (flagPosition p) p.flagBit = some cur) :
    ∃ b, flagWriteBack p buf want = some b ∧ b.length = buf.length ∧ bufferGetBit b 4 7 = some false ∧
      bufferGetBit b (flagPosition p) p.flagBit = some want ∧
      ∀ o k, (o ≠ 4 ∨ k ≠ 7) → (o ≠ flagPosition p ∨ k ≠ p.flagBit) → bufferGetBit b o k = bufferGetBit buf o k := by
  have apart := four_lt_flagPosition p
  obtain ⟨_, x, hx, _⟩ := (bufferGetBit_eq_some_iff buf 4 6 spf).mp header
  obtain ⟨c, hc⟩ := exists_bufferSetBit ((bufferGetBit_eq_some_iff buf 4 7 _).mpr ⟨by decide, x, hx, rfl⟩) false
  have kept := bufferGetBit_bufferSetBit_other hc (o' := flagPosition p) (k' := p.flagBit) (.inl apart.ne')
  obtain ⟨b, hb⟩ := exists_bufferSetBit (kept.trans flag) want
  refine ⟨b, by rw [flagWriteBack, hc, Option.bind_some, hb],
    (length_bufferSetBit hb).trans (length_bufferSetBit hc), ?_, bufferGetBit_bufferSetBit_same hb, fun o k hPS hflag => ?_⟩
  · rw [bufferGetBit_bufferSetBit_other hb (.inl apart.ne), bufferGetBit_bufferSetBit_same hc]
  · rw [bufferGetBit_bufferSetBit_other hb hflag, bufferGetBit_bufferSetBit_other hc hPS]

section
variable {p : FlagPage} {t : Transport}

theorem modePageFlagOperation_of_failed (read : t.modeSense p.code = none) (target : Option Bool) :
    modePageFlagOperation p target t = { result := .failed .transportError, calls := [.modeSense p.code] } := by
  rw [modePageFlagOperation, read]

variable {buf : Buffer} (read : t.modeSense p.code = some buf)
include read

theorem modePageFlagOperation_of_malformed (malformed : modePageValid buf p.code p.payloadLen = false)
    (target : Option Bool) :
    modePageFlagOperation p target t = { result := .failed .malformedPage, calls := [.modeSense p.code] } := by
  simp only [modePageFlagOperation, read, if_pos malformed]

theorem modePageFlagOperation_of_equal (valid : modePageValid buf p.code p.payloadLen = true) {want : Bool}
    (flag : bufferGetBit buf (flagPosition p) p.flagBit = some want) :
    modePageFlagOperation p (some want) t = { result := .already, calls := [.modeSense p.code] } := by
  simp [modePageFlagOperation, read, valid, flag]

theorem modePageFlagOperation_of_different (valid : modePageValid buf p.code p.payloadLen = true) {want cur : Bool}
    (flag : bufferGetBit buf (flagPosition p) p.flagBit = some cur) (different : want ≠ cur) {b : Buffer}
    (page : flagWriteBack p buf want = some b) :
    modePageFlagOperation p (some want) t =
      { result := if t.modeSelect b then .written else .failed .transportError
        calls := [.modeSense p.code, .modeSelect b] } := by
  simp [modePageFlagOperation, read, valid, flag, different.symm, page]

end

/-- Settles O52: a valid page has the byte of PS, so the page to write back exists. -/
theorem flagWrittenOnlyWhenDifferent : Obligations.FlagWrittenOnlyWhenDifferent := by
  intro p want cur t buf read valid flag
  refine ⟨?_, fun different => ?_⟩
  · rintro rfl
    exact modePageFlagOperation_of_equal read valid flag
  · obtain ⟨_, _, ⟨b4, e4, spf⟩, _, _⟩ := (modePageValid_iff _ _ _).mp valid
    have header := (bufferGetBit_eq_some_iff buf 4 6 false).mpr ⟨by decide, b4, e4, spf⟩
    obtain ⟨b, page, bits⟩ := exists_flagWriteBack p want header flag
    exact ⟨b, modePageFlagOperation_of_different read valid flag different page, bits⟩

end Sys2Proof.Machine
end

section
/-! A part of a page replaced and sent: what the last part of a page operation sends, and that it is nothing else
(44_host_page_operations.md R180). -/

namespace Sys2Proof.Machine

/-! ### Bytes of a space and a part of a page -/

theorem length_bytes (s : State) (sp : Space) (n : Nat) : (s.bytes sp n).length = n := by
  rw [State.bytes, List.length_map, List.length_range]

theorem getElem?_bytes (s : State) (sp : Space) {n x : Nat} (hx : x < n) :
    (s.bytes sp n)[x]? = some (s.readByte sp x) := by
  rw [State.bytes, List.getElem?_map, List.getElem?_range hx, Option.map_some]

theorem bytes_eq_bytes_iff (s t : State) (sp : Space) (n : Nat) :
    s.bytes sp n = t.bytes sp n ↔ ∀ x, x < n → s.readByte sp x = t.readByte sp x := by
  simp only [State.bytes, List.map_inj_left, List.mem_range]

/-- A part of a page is the bytes of a space when it is so offset by offset. -/
theorem part_eq_bytes_iff (buf : Buffer) (o n : Nat) (s : State) (sp : Space) :
    (buf.drop o).take n = s.bytes sp n ↔ ∀ x, x < n → buf[o + x]? = some (s.readByte sp x) := by
  have inside (x : Nat) (hx : x < n) : ((buf.drop o).take n)[x]? = buf[o + x]? := by
    rw [List.getElem?_take_of_lt hx, List.getElem?_drop]
  constructor
  · intro same x hx
    rw [← inside x hx, same, getElem?_bytes s sp hx]
  · intro holds
    refine List.ext_getElem? fun x => ?_
    by_cases hx : x < n
    · rw [inside x hx, holds x hx, getElem?_bytes s sp hx]
    · rw [List.getElem?_eq_none (by rw [List.length_take]; omega), List.getElem?_eq_none (by rw [length_bytes]; omega)]

theorem length_part {buf : Buffer} {o n : Nat} (h : o + n ≤ buf.length) : ((buf.drop o).take n).length = n := by
  rw [List.length_take, List.length_drop]
  omega

theorem le_length_of_length_part {buf : Buffer} {o n : Nat} (hn : 0 < n) (h : ((buf.drop o).take n).length = n) :
    o + n ≤ buf.length := by
  rw [List.length_take, List.length_drop] at h
  omega

/-- The part replaced reads back. -/
theorem part_spliceBytes {buf : Buffer} {o : Nat} {bytes : List Byte} (h : o + bytes.length ≤ buf.length) :
    ((spliceBytes buf o bytes).drop o).take bytes.length = bytes := by
  have before : (buf.take o).length = o := List.length_take_of_le (by omega)
  rw [spliceBytes, List.append_assoc, List.drop_left' before, List.take_left]

/-! ### What is sent (R180) -/

/-- b is buf with a change, and only in the n bytes from offset o on. -/
def ChangedWithin (o n : Nat) (buf b : Buffer) : Prop :=
  b ≠ buf ∧ b.length = buf.length ∧ ∀ x, x < o ∨ o + n ≤ x → b[x]? = buf[x]?

/-- Every buffer a run sends is buf changed in the n bytes from offset o on. -/
def SendsWithin (o n : Nat) (buf : Buffer) (r : PageRun) : Prop :=
  ∀ b ∈ r.sends, ChangedWithin o n buf b

theorem sendsWithin_of_sends_nil {o n : Nat} {buf : Buffer} {r : PageRun} (h : r.sends = []) :
    SendsWithin o n buf r := by
  intro b hb
  rw [h] at hb
  exact absurd hb List.not_mem_nil

theorem changedWithin_spliceBytes {buf : Buffer} {o : Nat} {new : List Byte} (h : o + new.length ≤ buf.length)
    (different : new ≠ (buf.drop o).take new.length) : ChangedWithin o new.length buf (spliceBytes buf o new) := by
  refine ⟨fun same => different ?_, spliceBytes_length h, fun x hx => ?_⟩
  · rw [← same, part_spliceBytes (same ▸ h)]
  · rw [spliceBytes_getElem? h, if_neg (by omega)]

section
variable {t : Transport} {code : Nat} {buf : Buffer} {o : Nat} {current new : List Byte} {shown : List (List Byte)}
  {s : State}

theorem sendIfChanged_of_eq (h : new = current) :
    (sendIfChanged t code buf o current new shown s).result = .unchanged ∧
      (sendIfChanged t code buf o current new shown s).sends = [] := by
  rw [sendIfChanged, if_pos h]
  exact ⟨rfl, rfl⟩

theorem sendIfChanged_of_ne (h : new ≠ current) :
    (sendIfChanged t code buf o current new shown s).sends = [spliceBytes buf o new] ∧
      (sendIfChanged t code buf o current new shown s).result =
        if t.sendDiagnostic (spliceBytes buf o new) then .written else .failed .transportError := by
  rw [sendIfChanged, if_neg h]
  exact ⟨rfl, rfl⟩

/-- The last part of a page operation, when new bytes replace the part of the page they were compared with. -/
theorem sendsWithin_sendIfChanged {n : Nat} (fits : o + n ≤ buf.length) (length : new.length = n) :
    SendsWithin o n buf (sendIfChanged t code buf o ((buf.drop o).take n) new shown s) := by
  subst length
  by_cases same : new = (buf.drop o).take new.length
  · exact sendsWithin_of_sends_nil (sendIfChanged_of_eq same).2
  · intro b hb
    rw [(sendIfChanged_of_ne same).1, List.mem_singleton] at hb
    exact hb ▸ changedWithin_spliceBytes fits same

end

/-- The page is sent exactly when the part it has is not the bytes of a state u, and then with those bytes. -/
theorem sendIfChanged_bytes {t : Transport} {code : Nat} {buf : Buffer} {o n : Nat} {sp : Space} {u : State}
    {shown : List (List Byte)} {s : State} {run : PageRun} (fits : o + n ≤ buf.length)
    (ends : run = sendIfChanged t code buf o ((buf.drop o).take n) (u.bytes sp n) shown s) :
    ((buf.drop o).take n = u.bytes sp n → run.result = .unchanged ∧ run.sends = []) ∧
    ((buf.drop o).take n ≠ u.bytes sp n → ∃ b, run.sends = [b] ∧ (b.drop o).take n = u.bytes sp n ∧
      run.result = if t.sendDiagnostic b then .written else .failed .transportError) := by
  subst ends
  refine ⟨fun same => sendIfChanged_of_eq same.symm, fun different => ?_⟩
  obtain ⟨sends, result⟩ := sendIfChanged_of_ne (t := t) (code := code) (buf := buf) (o := o) (shown := shown) (s := s)
    different.symm
  have reads := part_spliceBytes (buf := buf) (o := o) (bytes := u.bytes sp n) (by rwa [length_bytes])
  rw [length_bytes] at reads
  exact ⟨_, sends, reads, result⟩

end Sys2Proof.Machine
end

section
/-! The label operation on page 0x87: what it encodes, and when its page is sent (44_host_page_operations.md R181). -/

namespace Sys2Proof.Machine

/-! ### The label on a page (R45, R61) -/

/-- A state's label holds the slot values v. -/
def LabelHolds (u : State) (v : Nat → Nat) : Prop :=
  ∀ i, i < 12 → SlotHolds u i (v i)

/-- A slot on a page holds the value of a state's slot when its two bytes are the state's. -/
theorem pageSlotHolds_iff {u : State} {i v : Nat} (buf : Buffer) (h : SlotHolds u i v) :
    PageSlotHolds buf i v ↔ buf[12 + 2 * i]? = some (u.readByte .lbl (2 * i)) ∧
      buf[12 + (2 * i + 1)]? = some (u.readByte .lbl (2 * i + 1)) := by
  obtain ⟨high, low⟩ := h
  constructor
  · rintro ⟨hi, lo, ehi, elo, vhi, vlo⟩
    rw [BitVec.eq_of_toNat_eq (vhi.trans high.symm)] at ehi
    rw [BitVec.eq_of_toNat_eq (vlo.trans low.symm)] at elo
    exact ⟨ehi, elo⟩
  · rintro ⟨ehi, elo⟩
    exact ⟨_, _, ehi, elo, high, low⟩

/-- A page's label holds the values of a state's label when its 24 bytes are the state's. -/
theorem pageLabelHolds_iff {u : State} {v : Nat → Nat} (h : LabelHolds u v) (buf : Buffer) :
    PageLabelHolds buf v ↔ (buf.drop 12).take 24 = u.bytes .lbl 24 := by
  rw [part_eq_bytes_iff]
  constructor
  · intro page x hx
    obtain ⟨ehi, elo⟩ := (pageSlotHolds_iff buf (h (x / 2) (by omega))).mp (page (x / 2) (by omega))
    obtain even | odd : x = 2 * (x / 2) ∨ x = 2 * (x / 2) + 1 := by omega
    · rwa [← even] at ehi
    · rwa [← odd] at elo
  · intro bytes i hi
    exact (pageSlotHolds_iff buf (h i hi)).mpr ⟨bytes (2 * i) (by omega), bytes (2 * i + 1) (by omega)⟩

/-! ### A new label that has an encoding (R110, R116) -/

/-- A text of up to twelve supported characters, presented, is encoded. -/
theorem Presented.enctext_encodes {chars : List Byte} {u : State} {v : Nat → Nat} (h : Presented chars u)
    (encodes : Encodes (.text chars) v) : ∃ w, exec .enctext u = .next w ∧ w.status = 0x00#8 ∧ LabelHolds w v := by
  obtain ⟨h12, supported, value⟩ := encodes
  have length := h.length_of_le (by omega)
  have code (i : Nat) (hi : i < chars.length) : u.charCode i = (chars.getD i 0#8).toNat :=
    congrArg BitVec.toNat (h.char i hi (by omega))
  have codes (i : Nat) (hi : i < u.tlen.toNat) : Supported (u.charCode i) := by
    rw [length] at hi
    rw [code i hi, List.getD_eq_getElem _ _ hi]
    exact supported _ (List.getElem_mem hi)
  obtain ⟨w, e, ok, holds, _⟩ := enctextStoresMasks u (by omega) codes
  refine ⟨w, e, ok, fun i hi => ?_⟩
  have slot := holds i hi
  rw [length] at slot
  rw [value i]
  split_ifs at slot ⊢ with present
  · rwa [code i present] at slot
  · exact slot

/-- A raw string of up to twelve groups that fit, presented, is encoded. -/
theorem Presented.encraw_encodes {chars : List Byte} {u : State} {v : Nat → Nat} (h : Presented chars u)
    (encodes : Encodes (.raw chars) v) : ∃ w, exec .encraw u = .next w ∧ w.status = 0x00#8 ∧ LabelHolds w v := by
  obtain ⟨h48, h4, fit, blank⟩ := encodes
  have h96 : chars.length ≤ 96 := by omega
  have length := h.length_of_le h96
  obtain ⟨w, e, ok, holds, _⟩ := encrawStoresGroups u v (by omega) (by omega)
    fun k hk => h.groupFits h96 (length ▸ hk) (fit k (length ▸ hk))
  refine ⟨w, e, ok, fun k hk => ?_⟩
  have slot := holds k hk
  rw [length] at slot
  split_ifs at slot with present
  · exact slot
  · rwa [blank k (Nat.not_lt.mp present)]

/-- An operation that ends in a next state on every presentation of the string is what the label actions run. -/
theorem runActions_labelActions {l : LabelInput} {chars : List Byte} {i : Instr} {P : State → Prop}
    (actions : labelActions l = presentText chars ++ [.command (encode i)])
    (ends : ∀ u, Presented chars u → ∃ w, exec i u = .next w ∧ P w) (s : State) :
    ∃ w, runActions (labelActions l) s = { state := w, refused := none } ∧ P w := by
  obtain ⟨u, presents, presented⟩ := exists_presented chars s
  obtain ⟨w, e, holds⟩ := ends u presented
  exact ⟨w, by rw [actions, runActions_append presents, runActions_command (decode_encode i) e], holds⟩

/-- The host's actions on a label that has an encoding put it in LBL. -/
theorem runActions_of_encodes {l : LabelInput} {v : Nat → Nat} (encodes : Encodes l v) (s : State) :
    ∃ w, runActions (labelActions l) s = { state := w, refused := none } ∧ w.status = 0x00#8 ∧ LabelHolds w v := by
  cases l with
  | text chars => exact runActions_labelActions (i := .enctext) rfl (fun _ h => h.enctext_encodes encodes) s
  | raw chars => exact runActions_labelActions (i := .encraw) rfl (fun _ h => h.encraw_encodes encodes) s

/-- A label that has an encoding reaches the exchange, with the encoded bytes. -/
theorem labelPageOperation_of_encodes {l : LabelInput} {v : Nat → Nat} (encodes : Encodes l v) (t : Transport)
    (s : State) :
    ∃ w, labelPageOperation (some l) t s = labelExchange (some (w.bytes .lbl 24)) t w ∧ LabelHolds w v := by
  obtain ⟨w, run, ok, holds⟩ := runActions_of_encodes encodes s
  refine ⟨w, ?_, holds⟩
  simp only [labelPageOperation, run]
  exact if_pos ok

/-- A new label ends the operation before any call or reaches the exchange with the 24 bytes of LBL (R185). -/
theorem labelPageOperation_some_cases (l : LabelInput) (t : Transport) (s : State) :
    (labelPageOperation (some l) t s).calls = [] ∨
      ∃ w, labelPageOperation (some l) t s = labelExchange (some (w.bytes .lbl 24)) t w := by
  unfold labelPageOperation
  dsimp only
  split
  · exact .inl rfl
  · split_ifs
    · exact .inr ⟨_, rfl⟩
    · exact .inl rfl

/-! ### The exchange (R181) -/

/-- DECRENDER and the copy before it are never refused. -/
theorem runActions_decrenderPage (bytes : List Byte) (h : bytes.length ≤ 24) (s : State) :
    ∃ u, runActions (putBytes .lbl 0 bytes ++ [.command (encode .decrender)]) s = { state := u, refused := none } := by
  obtain ⟨u, copied, _⟩ :=
    runActions_putBytes (at' := Loc.lbl) (sp := .lbl) (by decide) (fun _ => address_lbl_of_lt) bytes s h
  exact ⟨_, by rw [runActions_append copied, runActions_command (decode_encode .decrender) (exec_decrender_eq u)]⟩

section
variable {t : Transport} {s : State}

theorem labelExchange_of_failed (read : receivePage t 0x87 = none) (new : Option (List Byte)) :
    labelExchange new t s = endAfterRead 0x87 (.failed .transportError) s := by
  rw [labelExchange, read]

variable {buf : Buffer} (read : receivePage t 0x87 = some buf)
include read

theorem labelExchange_of_malformed (malformed : diagnosticPageValid buf 0x87 32 = false) (new : Option (List Byte)) :
    labelExchange new t s = endAfterRead 0x87 (.failed .malformedPage) s := by
  simp only [labelExchange, read, if_pos malformed]

theorem labelExchange_of_short (valid : diagnosticPageValid buf 0x87 32 = true)
    (short : ((buf.drop 12).take 24).length ≠ 24) (new : Option (List Byte)) :
    labelExchange new t s = endAfterRead 0x87 .refused s := by
  simp only [labelExchange, read, valid, Bool.true_eq_false, if_false, if_pos short]

/-- After a page that does not validate or ends before its payload does, nothing is sent. -/
theorem sends_labelExchange_of_unfit
    (unfit : ¬ (diagnosticPageValid buf 0x87 32 = true ∧ ((buf.drop 12).take 24).length = 24))
    (new : Option (List Byte)) : (labelExchange new t s).sends = [] := by
  cases valid : diagnosticPageValid buf 0x87 32 with
  | false => rw [labelExchange_of_malformed read valid, endAfterRead_sends]
  | true => rw [labelExchange_of_short read valid fun whole => unfit ⟨valid, whole⟩, endAfterRead_sends]

/-- With no new label the label is shown, and the exchange is the read alone. -/
theorem sends_labelExchange_none (s : State) : (labelExchange none t s).sends = [] := by
  by_cases fit : diagnosticPageValid buf 0x87 32 = true ∧ ((buf.drop 12).take 24).length = 24
  · obtain ⟨valid, whole⟩ := fit
    obtain ⟨u, run⟩ := runActions_decrenderPage ((buf.drop 12).take 24) whole.le s
    simp only [labelExchange, read, valid, Bool.true_eq_false, if_false, whole, ne_eq, not_true_eq_false, run]
    rfl
  · exact sends_labelExchange_of_unfit read fit none

/-- A new label ends the exchange in the comparison with the page's (R181 (4)). -/
theorem labelExchange_some (valid : diagnosticPageValid buf 0x87 32 = true)
    (whole : ((buf.drop 12).take 24).length = 24) (n : List Byte) :
    ∃ u, labelExchange (some n) t s = sendIfChanged t 0x87 buf 12 ((buf.drop 12).take 24) n u.lines u := by
  obtain ⟨u, run⟩ := runActions_decrenderPage ((buf.drop 12).take 24) whole.le s
  refine ⟨u, ?_⟩
  simp only [labelExchange, read, valid, Bool.true_eq_false, if_false, whole, ne_eq, not_true_eq_false, run]

/-- Whatever the page is, the exchange sends only a changed label. -/
theorem sendsWithin_labelExchange {n : List Byte} (length : n.length = 24) :
    SendsWithin 12 24 buf (labelExchange (some n) t s) := by
  by_cases fit : diagnosticPageValid buf 0x87 32 = true ∧ ((buf.drop 12).take 24).length = 24
  · obtain ⟨valid, whole⟩ := fit
    obtain ⟨u, e⟩ := labelExchange_some read valid whole n (s := s)
    rw [e]
    exact sendsWithin_sendIfChanged (le_length_of_length_part (by decide) whole) length
  · exact sendsWithin_of_sends_nil (sends_labelExchange_of_unfit read fit _)

theorem sendsWithin_labelPageOperation (new : Option LabelInput) (s : State) :
    SendsWithin 12 24 buf (labelPageOperation new t s) := by
  cases new with
  | none => exact sendsWithin_of_sends_nil (sends_labelExchange_none read s)
  | some l =>
    rcases labelPageOperation_some_cases l t s with early | ⟨w, e⟩
    · exact sendsWithin_of_sends_nil (by rw [PageRun.sends, early, List.filterMap_nil])
    · rw [e]
      exact sendsWithin_labelExchange read (length_bytes w .lbl 24)

end

/-- Settles O54: a label with an encoding reaches the comparison of its 24 bytes with the page's. -/
theorem labelPageSentOnlyWhenChanged : Obligations.LabelPageSentOnlyWhenChanged := by
  intro new t s buf read run
  refine ⟨sendsWithin_labelPageOperation read new s, ?_, ?_⟩
  · rintro rfl
    exact sends_labelExchange_none read s
  · rintro l v rfl encodes valid whole
    obtain ⟨w, reaches, holds⟩ := labelPageOperation_of_encodes encodes t s
    obtain ⟨u, e⟩ := labelExchange_some read valid (length_part whole) (w.bytes .lbl 24) (s := w)
    simp only [pageLabelHolds_iff holds]
    exact sendIfChanged_bytes whole (reaches.trans e)

end Sys2Proof.Machine
end

section
/-! The free-space operation on page 0x86: the payload it gives FSRENDER, and when its page is sent
(44_host_page_operations.md R177, R182, R186). -/

namespace Sys2Proof.Machine

/-! ### What FSRENDER makes of the payload of a page -/

/-- The payload of a page is that of a state when its 16 bytes are. -/
theorem pagePayloadHolds_iff (buf : Buffer) (u : State) :
    PagePayloadHolds buf u ↔ (buf.drop 4).take 16 = u.bytes .fsp 16 :=
  (part_eq_bytes_iff buf 4 16 u .fsp).symm

/-- FSRENDER names no byte past the payload, so it keeps the space when it keeps the payload. -/
theorem spaceKept_fsp_iff {u w : State} (h : exec .fsrender u = .next w) :
    SpaceKept .fsp u w ↔ u.bytes .fsp 16 = w.bytes .fsp 16 := by
  rw [bytes_eq_bytes_iff]
  constructor
  · intro kept o _
    exact (kept o).symm
  · intro payload o
    by_cases ho : o < 16
    · exact (payload o ho).symm
    · refine (unownedKept_fsrender h).readByte_eq ?_
      simp only [List.mem_cons, List.not_mem_nil, or_false]
      omega

/-- FSRENDER does the same to two equal payloads when both states hold the operands of one reply (R177); without a
measurement FREE and KBF are not read (R141). -/
theorem fsrender_agrees_of_presented {kbf : BitVec 16} {reply : StatReply} {u1 u2 : State}
    (presented1 : MeasurementPresented kbf u1 reply) (presented2 : MeasurementPresented kbf u2 reply)
    (payload : FspAgree u1 u2) : OutcomesAgree .fsrender (exec .fsrender u1) (exec .fsrender u2) := by
  cases reply with
  | measured f total =>
    obtain ⟨free1, total1, kbf1⟩ := presented1
    obtain ⟨free2, total2, kbf2⟩ := presented2
    exact execReadsOnlyItsOperands .fsrender u1 u2
      ⟨free1.trans free2.symm, total1.trans total2.symm, kbf1.trans kbf2.symm, payload⟩
  | noMeasurement =>
    rw [exec_fsrender_of_total_zero presented1, exec_fsrender_of_total_zero presented2]
    exact outcomesAgree_next (payload.fspReset.resultsAgree .cleared)
  | notFound => exact presented1.elim
  | ioError => exact presented1.elim

/-! ### The operands of a reply (R177) -/

theorem statActions_eq_none {kbf : BitVec 16} {reply : StatReply} (h : reply = .notFound ∨ reply = .ioError) :
    statActions kbf reply = none := by
  rcases h with rfl | rfl
  · rfl
  · rfl

/-- A reply whose operands a state can hold has actions that present them, and they leave the payload. -/
theorem runActions_statActions {kbf : BitVec 16} {reply : StatReply} {u : State}
    (presented : MeasurementPresented kbf u reply) (s : State) :
    ∃ operands w, statActions kbf reply = some operands ∧ runActions operands s = { state := w, refused := none } ∧
      MeasurementPresented kbf w reply ∧ SpaceKept .fsp s w := by
  cases reply with
  | measured f total => exact ⟨_, _, rfl, rfl, ⟨rfl, rfl, rfl⟩, fun _ => rfl⟩
  | noMeasurement => exact ⟨_, _, rfl, rfl, rfl, fun _ => rfl⟩
  | notFound => exact presented.elim
  | ioError => exact presented.elim

/-! ### FSRENDER and what follows it (R182) -/

section
variable {operands : List HostAction} {t : Transport} {buf : Buffer} {s : State}

/-- What the host does after FSRENDER has an outcome. -/
theorem freeSpaceRender_of_next {w v : State} (present : runActions operands s = { state := w, refused := none })
    (h : exec .fsrender w = .next v) (current : List Byte) :
    freeSpaceRender operands t buf current s =
      if v.status = 0x20#8 then endAfterRead 0x86 (.blockError v.status) v
      else sendIfChanged t 0x86 buf 4 current (v.bytes .fsp 16)
        (if v.status = OutcomeKind.code .cleared then [clearedMarker] else []) v := by
  have run := (runActions_append (bs := [.command (encode .fsrender)]) present).trans
    (runActions_command (decode_encode .fsrender) h)
  simp only [freeSpaceRender, run]
  rfl

/-- A refused FSRENDER and one that overflows send nothing; otherwise the payload is compared with the page's. -/
theorem sendsWithin_freeSpaceRender (fits : 4 + 16 ≤ buf.length) :
    SendsWithin 4 16 buf (freeSpaceRender operands t buf ((buf.drop 4).take 16) s) := by
  unfold freeSpaceRender
  dsimp only
  split
  · exact sendsWithin_of_sends_nil (endAfterRead_sends ..)
  · split_ifs
    · exact sendsWithin_of_sends_nil (endAfterRead_sends ..)
    · exact sendsWithin_sendIfChanged fits (length_bytes ..)
    · exact sendsWithin_sendIfChanged fits (length_bytes ..)

end

/-! ### The operation up to FSRENDER (R182) -/

/-- The state with the payload of a page copied to FSP (R182 (2)). -/
def State.payloadLoaded (buf : Buffer) (s : State) : State :=
  (runActions (putBytes .fsp 0 ((buf.drop 4).take 16)) s).state

/-- A whole payload is copied byte by byte. -/
theorem part_eq_bytes_payloadLoaded {buf : Buffer} (whole : ((buf.drop 4).take 16).length = 16) (s : State) :
    (buf.drop 4).take 16 = (s.payloadLoaded buf).bytes .fsp 16 := by
  obtain ⟨u, copied, _, reads⟩ :=
    runActions_putBytes (at' := Loc.fsp) (sp := .fsp) (by decide) (fun _ => address_fsp_of_lt) _ s whole.le
  rw [State.payloadLoaded, copied, part_eq_bytes_iff]
  intro x hx
  have fits := le_length_of_length_part (by decide) whole
  have byte : u.readByte .fsp x = ((buf.drop 4).take 16).getD x 0#8 :=
    (reads .fsp x).trans (if_pos ⟨rfl, hx.trans_eq whole.symm⟩)
  rw [byte, List.getD_eq_getElem?_getD, List.getElem?_take_of_lt hx, List.getElem?_drop,
    List.getElem?_eq_getElem (by omega), Option.getD_some]

section
variable {t : Transport} {s : State} {kbf : BitVec 16}

theorem freeSpacePageOperation_of_failed (read : receivePage t 0x86 = none) (new : Option StatReply) :
    freeSpacePageOperation new kbf t s = endAfterRead 0x86 (.failed .transportError) s := by
  rw [freeSpacePageOperation, read]

variable {buf : Buffer} (read : receivePage t 0x86 = some buf)
include read

theorem freeSpacePageOperation_of_malformed (malformed : diagnosticPageValid buf 0x86 16 = false)
    (new : Option StatReply) :
    freeSpacePageOperation new kbf t s = endAfterRead 0x86 (.failed .malformedPage) s := by
  simp only [freeSpacePageOperation, read, if_pos malformed]

theorem freeSpacePageOperation_of_short (valid : diagnosticPageValid buf 0x86 16 = true)
    (short : ((buf.drop 4).take 16).length ≠ 16) (new : Option StatReply) :
    freeSpacePageOperation new kbf t s = endAfterRead 0x86 .refused s := by
  simp only [freeSpacePageOperation, read, valid, Bool.true_eq_false, if_false, if_pos short]

/-- After a page that does not validate or ends before its payload does, nothing is sent. -/
theorem sends_freeSpacePageOperation_of_unfit
    (unfit : ¬ (diagnosticPageValid buf 0x86 16 = true ∧ ((buf.drop 4).take 16).length = 16))
    (new : Option StatReply) : (freeSpacePageOperation new kbf t s).sends = [] := by
  cases valid : diagnosticPageValid buf 0x86 16 with
  | false => rw [freeSpacePageOperation_of_malformed read valid, endAfterRead_sends]
  | true => rw [freeSpacePageOperation_of_short read valid fun whole => unfit ⟨valid, whole⟩, endAfterRead_sends]

section
variable (valid : diagnosticPageValid buf 0x86 16 = true) (whole : ((buf.drop 4).take 16).length = 16)
include valid whole

theorem freeSpacePageOperation_none :
    freeSpacePageOperation none kbf t s = endAfterRead 0x86 .shown (s.payloadLoaded buf) := by
  simp only [freeSpacePageOperation, read, valid, Bool.true_eq_false, if_false, whole, ne_eq, not_true_eq_false]
  rfl

theorem freeSpacePageOperation_of_no_operands {reply : StatReply} (no : statActions kbf reply = none) :
    freeSpacePageOperation (some reply) kbf t s = endAfterRead 0x86 .statFailed (s.payloadLoaded buf) := by
  simp only [freeSpacePageOperation, read, valid, Bool.true_eq_false, if_false, whole, ne_eq, not_true_eq_false, no]
  rfl

theorem freeSpacePageOperation_of_operands {reply : StatReply} {operands : List HostAction}
    (present : statActions kbf reply = some operands) :
    freeSpacePageOperation (some reply) kbf t s =
      freeSpaceRender operands t buf ((buf.drop 4).take 16) (s.payloadLoaded buf) := by
  simp only [freeSpacePageOperation, read, valid, Bool.true_eq_false, if_false, whole, ne_eq, not_true_eq_false, present]
  rfl

/-- A measurement or the reserved path brings FSRENDER a state with its operands and the page's payload, and the outcome
decides the rest. -/
theorem freeSpacePageOperation_of_presented {reply : StatReply} {u : State}
    (presented : MeasurementPresented kbf u reply) (s : State) :
    ∃ w, MeasurementPresented kbf w reply ∧ PagePayloadHolds buf w ∧ ∀ v, exec .fsrender w = .next v →
      freeSpacePageOperation (some reply) kbf t s =
        if v.status = 0x20#8 then endAfterRead 0x86 (.blockError v.status) v
        else sendIfChanged t 0x86 buf 4 ((buf.drop 4).take 16) (v.bytes .fsp 16)
          (if v.status = OutcomeKind.code .cleared then [clearedMarker] else []) v := by
  obtain ⟨operands, w, actions, present, holds, kept⟩ := runActions_statActions presented (s.payloadLoaded buf)
  have payload := (part_eq_bytes_payloadLoaded whole s).trans
    ((bytes_eq_bytes_iff _ w .fsp 16).mpr fun o _ => (kept o).symm)
  refine ⟨w, holds, (pagePayloadHolds_iff buf w).mpr payload, fun v e => ?_⟩
  rw [freeSpacePageOperation_of_operands read valid whole actions, freeSpaceRender_of_next present e]

end

/-- Without operands for FSRENDER nothing is sent, whatever the page is. -/
theorem sends_freeSpacePageOperation_of_no_operands {new : Option StatReply}
    (no : ∀ reply, new = some reply → statActions kbf reply = none) :
    (freeSpacePageOperation new kbf t s).sends = [] := by
  by_cases fit : diagnosticPageValid buf 0x86 16 = true ∧ ((buf.drop 4).take 16).length = 16
  · obtain ⟨valid, whole⟩ := fit
    cases new with
    | none => rw [freeSpacePageOperation_none read valid whole, endAfterRead_sends]
    | some reply => rw [freeSpacePageOperation_of_no_operands read valid whole (no reply rfl), endAfterRead_sends]
  · exact sends_freeSpacePageOperation_of_unfit read fit new

/-- Whatever the page and the reply are, the operation sends only a changed payload. -/
theorem sendsWithin_freeSpacePageOperation (new : Option StatReply) (kbf : BitVec 16) (s : State) :
    SendsWithin 4 16 buf (freeSpacePageOperation new kbf t s) := by
  by_cases fit : diagnosticPageValid buf 0x86 16 = true ∧ ((buf.drop 4).take 16).length = 16
  · obtain ⟨valid, whole⟩ := fit
    cases new with
    | none => exact sendsWithin_of_sends_nil (sends_freeSpacePageOperation_of_no_operands read nofun)
    | some reply =>
      cases present : statActions kbf reply with
      | none =>
        rw [freeSpacePageOperation_of_no_operands read valid whole present]
        exact sendsWithin_of_sends_nil (endAfterRead_sends ..)
      | some operands =>
        rw [freeSpacePageOperation_of_operands read valid whole present]
        exact sendsWithin_freeSpaceRender (le_length_of_length_part (by decide) whole)
  · exact sendsWithin_of_sends_nil (sends_freeSpacePageOperation_of_unfit read fit new)

end

/-- Settles O55: FSRENDER sees the page's payload and the reply's operands, which decide its outcome and its payload. -/
theorem freeSpacePageSentOnlyWhenChanged : Obligations.FreeSpacePageSentOnlyWhenChanged := by
  intro new kbf t s buf read run
  refine ⟨sendsWithin_freeSpacePageOperation read new kbf s, fun noMeasurement => ?_, ?_⟩
  · refine sends_freeSpacePageOperation_of_no_operands read fun reply e => statActions_eq_none ?_
    simpa only [e, reduceCtorEq, false_or, Option.some.injEq] using noMeasurement
  · rintro reply u w rfl presented payload e noOverflow valid
    have current := (pagePayloadHolds_iff buf u).mp payload
    have whole : ((buf.drop 4).take 16).length = 16 := current ▸ length_bytes u .fsp 16
    obtain ⟨u', presented', payload', ends⟩ := freeSpacePageOperation_of_presented read valid whole presented s
    have agree : FspAgree u u' :=
      (bytes_eq_bytes_iff u u' .fsp 16).mp (current.symm.trans ((pagePayloadHolds_iff buf u').mp payload'))
    obtain ⟨w', e', status, results⟩ := (fsrender_agrees_of_presented presented presented' agree).1 w e
    have new : w.bytes .fsp 16 = w'.bytes .fsp 16 := (bytes_eq_bytes_iff w w' .fsp 16).mpr results
    have reaches := ends w' e'
    rw [if_neg (status ▸ noOverflow), ← new] at reaches
    simp only [spaceKept_fsp_iff e, ← current, pagePayloadHolds_iff]
    exact sendIfChanged_bytes (le_length_of_length_part (by decide) whole) reaches

/-- Settles O56: with these operands FSRENDER ends in DisplayOverflow, whatever the payload is. -/
theorem overflowSendsNothing : Obligations.OverflowSendsNothing := by
  intro f total kbf t s buf read valid long unit free large
  have operands : MeasurementPresented kbf { s with free := f, total := total, kbf := kbf } (.measured f total) :=
    ⟨rfl, rfl, rfl⟩
  obtain ⟨u, ⟨rfl, rfl, rfl⟩, _, ends⟩ :=
    freeSpacePageOperation_of_presented read valid (length_part (o := 4) long) operands s
  have positive : 0 < u.kbf.toNat ^ 4 := Nat.pow_pos unit
  obtain ⟨v, e, overflow, _⟩ := fsrenderOverflow u ⟨by omega, unit, free⟩ large
  rw [ends v e, if_pos overflow, overflow]
  exact ⟨rfl, rfl⟩

end Sys2Proof.Machine
end

section
/-! Reads that fail and pages that do not validate (44_host_page_operations.md R184). -/

namespace Sys2Proof.Machine

/-- No new label and one that has an encoding both reach the exchange. -/
theorem exists_labelExchange {new : Option LabelInput} (h : new = none ∨ ∃ l v, new = some l ∧ Encodes l v)
    (t : Transport) (s : State) : ∃ bytes w, labelPageOperation new t s = labelExchange bytes t w := by
  rcases h with rfl | ⟨l, v, rfl, encodes⟩
  · exact ⟨none, s, rfl⟩
  · obtain ⟨w, reaches, _⟩ := labelPageOperation_of_encodes encodes t s
    exact ⟨_, w, reaches⟩

/-- Settles O59: each operation ends where it looks at the read's answer. -/
theorem failedReadSendsNothing : Obligations.FailedReadSendsNothing := by
  intro t s
  refine ⟨fun new hnew => ?_, fun new kbf => ?_, fun p target => ?_⟩
  · obtain ⟨bytes, w, reaches⟩ := exists_labelExchange hnew t s
    intro run
    have reaches : run = labelExchange bytes t w := reaches
    refine ⟨fun failed => ?_, fun buf read malformed => ?_⟩
    · rw [reaches, labelExchange_of_failed failed]
      exact ⟨rfl, rfl⟩
    · rw [reaches, labelExchange_of_malformed read malformed]
      exact ⟨rfl, rfl⟩
  · refine ⟨fun failed => ?_, fun buf read malformed => ?_⟩
    · rw [freeSpacePageOperation_of_failed failed]
      exact ⟨rfl, rfl⟩
    · rw [freeSpacePageOperation_of_malformed read malformed]
      exact ⟨rfl, rfl⟩
  · refine ⟨fun failed => ?_, fun buf read malformed => ?_⟩
    · rw [modePageFlagOperation_of_failed failed]
      exact ⟨rfl, rfl⟩
    · rw [modePageFlagOperation_of_malformed read malformed]
      exact ⟨rfl, rfl⟩

end Sys2Proof.Machine
end

section
/-! The outcome codes of each operation (60_exceptions.md R200, the raised-by column). -/

namespace Sys2Proof.Machine

theorem charmask_status_of_next {c : Byte} {s t : State} (h : exec (.charmask c) s = .next t) :
    t.status ∈ [0x00#8, 0x10#8] := by
  rw [exec_charmask] at h
  rcases execCharmask_cases c s with ⟨_, _, e⟩ | ⟨_, e⟩ <;> obtain rfl := next_inj (e.symm.trans h)
  · exact .head _
  · exact .tail _ (.head _)

theorem seggeom_status_of_next {b : BitVec 4} {s t : State} (h : exec (.seggeom b) s = .next t) :
    t.status ∈ [0x00#8, 0x31#8] := by
  rw [exec_seggeom] at h
  rcases execSeggeom_cases b s with ⟨_, e⟩ | ⟨_, e⟩ <;> obtain rfl := next_inj (e.symm.trans h)
  · exact .head _
  · exact .tail _ (.head _)

theorem enctext_status_of_next {s t : State} (h : exec .enctext s = .next t) :
    t.status ∈ [0x00#8, 0x10#8, 0x11#8] := by
  rw [exec_enctext] at h
  rcases execEnctext_cases s with ⟨_, e⟩ | ⟨_, _, e⟩ | ⟨_, _, _, e⟩ <;> obtain rfl := next_inj (e.symm.trans h)
  · exact .tail _ (.tail _ (.head _))
  · exact .tail _ (.head _)
  · exact .head _

theorem decrender_status_of_next {s t : State} (h : exec .decrender s = .next t) : t.status = 0x00#8 := by
  obtain rfl := next_inj ((exec_decrender_eq s).symm.trans h)
  rfl

/-- The codes of ENCRAW without the lengths that `encraw_status_of_next` gives with them. -/
theorem encraw_status_mem_of_next {s t : State} (h : exec .encraw s = .next t) :
    t.status ∈ [0x00#8, 0x11#8, 0x12#8, 0x13#8, 0x14#8] := by
  rcases encraw_status_of_next h with ⟨_, tooLong⟩ | ⟨_, _, badLength⟩ | ⟨_, _, groups⟩
  · rw [tooLong]
    decide
  · rw [badLength]
    decide
  · have among : [0x00#8, 0x13#8, 0x14#8] ⊆ [0x00#8, 0x11#8, 0x12#8, 0x13#8, 0x14#8] := by decide
    exact among groups

/-- Settles O16: the codes of each operation's next states. -/
theorem outcomesByOperation : Obligations.OutcomesByOperation := by
  intro i s t h
  cases i with
  | charmask c => exact charmask_status_of_next h
  | seggeom b => exact seggeom_status_of_next h
  | enctext => exact enctext_status_of_next h
  | encraw => exact encraw_status_mem_of_next h
  | decrender => exact decrender_status_of_next h
  | fsrender => exact fsrender_status_of_next h

end Sys2Proof.Machine
end
